-- ==== Sys2Proof/Word.lean ====
section
/-! DEFINITION. Word.lean: the bit-vector types that cross the block's boundary. -/

namespace Sys2Proof

/-- One byte of the alphabet, the key or a stream (spec 10_state R17: 8-bit bytes). -/
abbrev Byte := BitVec 8

/-- A 32-bit word of the command channel or of the register port (R44, R55). -/
abbrev Word := BitVec 32

/-- A 9-bit item of the output channel (R62). -/
abbrev Token := BitVec 9

end Sys2Proof
end

