-- ==== Sys2Proof/Syntax.lean ====
section
/-! DEFINITION. Syntax.lean: the commands of the block (spec 30_encoding R56 to R58), one constructor per row of
spec/opcode_table.json. -/

namespace Sys2Proof

/-- The direction of a stream: START's mode field, 0 = ENC, 1 = DEC (R56 format M, R21). -/
inductive Mode where
  | enc
  | dec
deriving DecidableEq, Repr

/-- The fifteen mnemonics of the opcode map (R58). `END` is `endStream`, since `end` is a Lean keyword. -/
inductive Opcode where
  | nop | clear | apush | kpush | setpad | build | start | data | endStream | abort | encb | decb | pack | unpack | errack
deriving DecidableEq, Repr

/-- A command with its operands (R56, R57). A byte operand is any of the 256 bytes. A code operand (C1, C2, CODE) is a
natural number, as codes are throughout the spec (R12); that it fits its 8-bit field is `WellFormed`. -/
inductive Instr where
  | nop
  | clear
  | apush (byte : Byte)
  | kpush (byte : Byte)
  | setpad (byte : Byte)
  | build
  | start (mode : Mode)
  | data (byte : Byte)
  | endStream
  | abort
  | encb (c1 c2 : Nat)
  | decb (c1 c2 : Nat)
  | pack (byte : Byte)
  | unpack (code : Nat)
  | errack
deriving DecidableEq, Repr

/-- The mnemonic of a command. -/
def Instr.opcode : Instr → Opcode
  | .nop => .nop
  | .clear => .clear
  | .apush _ => .apush
  | .kpush _ => .kpush
  | .setpad _ => .setpad
  | .build => .build
  | .start _ => .start
  | .data _ => .data
  | .endStream => .endStream
  | .abort => .abort
  | .encb _ _ => .encb
  | .decb _ _ => .decb
  | .pack _ => .pack
  | .unpack _ => .unpack
  | .errack => .errack

end Sys2Proof
end

