-- ==== Sys2Proof/WellFormed.lean ====
section
/-! DEFINITION. WellFormed.lean: the operands an encoding can hold (spec 30_encoding R57: "A code field can hold 0 to
255"). Byte and mode operands fit their fields by type. -/

namespace Sys2Proof

/-- A code operand fits its 8-bit field (R57). -/
def codeFits (c : Nat) : Bool := decide (c < 256)

/-- The command can be written as a command word: every code operand fits its field. Whether a code is below N is NOT
checked here: that is the command's own check, which raises BAD_CODE (R57, R90, R91, R74). -/
def Instr.wellFormed : Instr → Bool
  | .encb c1 c2 => codeFits c1 && codeFits c2
  | .decb c1 c2 => codeFits c1 && codeFits c2
  | .unpack c => codeFits c
  | .nop | .clear | .apush _ | .kpush _ | .setpad _ | .build | .start _ | .data _ | .endStream | .abort | .pack _
  | .errack => true

/-- `Instr.wellFormed` as a proposition. -/
abbrev WellFormed (i : Instr) : Prop := i.wellFormed = true

end Sys2Proof
end

