-- ==== Sys2Proof/Decode.lean ====
section
/-! DEFINITION. Decode.lean: the decoder of command words (spec 30_encoding R56 to R61) and the encoder beside it. -/

namespace Sys2Proof

/-- Why a word is illegal (R59, R60). -/
inductive DecodeError where
  /-- OPC = 0xF, the reserved opcode: ILLEGAL_CMD subcode 1. -/
  | reservedOpcode
  /-- OPC 0x0 to 0xE with a reserved bit set: ILLEGAL_CMD subcode 2. -/
  | reservedBits
deriving DecidableEq, Repr

/-- One row of the opcode map: `match` and `mask` (R58). -/
structure OpcodeRow where
  pattern : Word
  mask : Word
deriving DecidableEq, Repr

/-- The opcode map (R58): each mnemonic's match and mask. -/
def opcodeRow : Opcode → OpcodeRow
  | .nop => ⟨0x00000000, 0xFFFFFFFF⟩
  | .clear => ⟨0x10000000, 0xFFFFFFFF⟩
  | .apush => ⟨0x20000000, 0xFFFFFF00⟩
  | .kpush => ⟨0x30000000, 0xFFFFFF00⟩
  | .setpad => ⟨0x40000000, 0xFFFFFF00⟩
  | .build => ⟨0x50000000, 0xFFFFFFFF⟩
  | .start => ⟨0x60000000, 0xFFFFFFFE⟩
  | .data => ⟨0x70000000, 0xFFFFFF00⟩
  | .endStream => ⟨0x80000000, 0xFFFFFFFF⟩
  | .abort => ⟨0x90000000, 0xFFFFFFFF⟩
  | .encb => ⟨0xA0000000, 0xFFFF0000⟩
  | .decb => ⟨0xB0000000, 0xFFFF0000⟩
  | .pack => ⟨0xC0000000, 0xFFFFFF00⟩
  | .unpack => ⟨0xD0000000, 0xFFFFFF00⟩
  | .errack => ⟨0xE0000000, 0xFFFFFFFF⟩

/-- OPC = w[31:28] (R56). -/
def opcField (w : Word) : BitVec 4 := w.extractLsb' 28 4

/-- BYTE, C2 and CODE = w[7:0] (R57). -/
def lowField (w : Word) : Byte := w.extractLsb' 0 8

/-- C1 = w[15:8] (R57). -/
def highField (w : Word) : Byte := w.extractLsb' 8 8

/-- MODE = w[0], 0 = ENC and 1 = DEC (R56, R57). -/
def modeField (w : Word) : Mode := if w.extractLsb' 0 1 = 1#1 then .dec else .enc

/-- The row of R58 with a given OPC; none for the reserved opcode 0xF. -/
def opcodeOf (opc : BitVec 4) : Option Opcode :=
  match opc.toNat with
  | 0x0 => some .nop
  | 0x1 => some .clear
  | 0x2 => some .apush
  | 0x3 => some .kpush
  | 0x4 => some .setpad
  | 0x5 => some .build
  | 0x6 => some .start
  | 0x7 => some .data
  | 0x8 => some .endStream
  | 0x9 => some .abort
  | 0xA => some .encb
  | 0xB => some .decb
  | 0xC => some .pack
  | 0xD => some .unpack
  | 0xE => some .errack
  | _ => none

/-- Operand assembly (R57): every operand is an unsigned field, taken as is. -/
def assembleOperands (o : Opcode) (w : Word) : Instr :=
  match o with
  | .nop => .nop
  | .clear => .clear
  | .apush => .apush (lowField w)
  | .kpush => .kpush (lowField w)
  | .setpad => .setpad (lowField w)
  | .build => .build
  | .start => .start (modeField w)
  | .data => .data (lowField w)
  | .endStream => .endStream
  | .abort => .abort
  | .encb => .encb (highField w).toNat (lowField w).toNat
  | .decb => .decb (highField w).toNat (lowField w).toNat
  | .pack => .pack (lowField w)
  | .unpack => .unpack (lowField w).toNat
  | .errack => .errack

/-- The decode function, total over all words (R59). -/
def decode (w : Word) : Except DecodeError Instr :=
  match opcodeOf (opcField w) with
  | none => .error .reservedOpcode
  | some o =>
    if w &&& (opcodeRow o).mask = (opcodeRow o).pattern then .ok (assembleOperands o w) else .error .reservedBits

/-- The instruction the decoder reads from an opcode-table word: a command is exactly one 32-bit word (R61), and the
table numbers its bits as the spec does (R11: bit 0 least significant). -/
def decodeTableWord (nbits w : Nat) : Option Instr := (decode (BitVec.ofNat 32 (w % 2 ^ nbits))).toOption

/-! The encoder, written from the bit layout of R56, most significant bits first. -/

/-- Format Z: `oooo 0000 … 0000`. -/
def encodeZ (opc : BitVec 4) : Word := opc ++ 0#28

/-- Formats BY and C: `oooo 0000 0000 0000 0000 0000 bbbb bbbb`. -/
def encodeBY (opc : BitVec 4) (b : Byte) : Word := opc ++ (0#20 ++ b)

/-- Format M: `oooo 0000 … 000m`. -/
def encodeM (opc : BitVec 4) (m : BitVec 1) : Word := opc ++ (0#27 ++ m)

/-- Format CC: `oooo 0000 0000 0000 pppp pppp qqqq qqqq`. -/
def encodeCC (opc : BitVec 4) (p q : Byte) : Word := opc ++ (0#12 ++ (p ++ q))

/-- START's mode operand as its bit: ENC 0, DEC 1 (R56). -/
def Mode.bit : Mode → BitVec 1
  | .enc => 0#1
  | .dec => 1#1

/-- The command word of a well-formed command (R56, R58). -/
def encode : Instr → Word
  | .nop => encodeZ 0x0#4
  | .clear => encodeZ 0x1#4
  | .apush b => encodeBY 0x2#4 b
  | .kpush b => encodeBY 0x3#4 b
  | .setpad b => encodeBY 0x4#4 b
  | .build => encodeZ 0x5#4
  | .start m => encodeM 0x6#4 m.bit
  | .data b => encodeBY 0x7#4 b
  | .endStream => encodeZ 0x8#4
  | .abort => encodeZ 0x9#4
  | .encb c1 c2 => encodeCC 0xA#4 (BitVec.ofNat 8 c1) (BitVec.ofNat 8 c2)
  | .decb c1 c2 => encodeCC 0xB#4 (BitVec.ofNat 8 c1) (BitVec.ofNat 8 c2)
  | .pack b => encodeBY 0xC#4 b
  | .unpack c => encodeBY 0xD#4 (BitVec.ofNat 8 c)
  | .errack => encodeZ 0xE#4

end Sys2Proof
end

