-- ==== Sys2Proof/Config.lean ====
section
/-! DEFINITION. Config.lean: the build-time parameters of the block (spec 00_scope section 4). A block's parameters stand
in its state as a constant field (log entry 1), so that every statement about all states is about every legal block.
OUT_FIFO_DEPTH is not architectural and no rule depends on it (R10, R54): the model has none. -/

namespace Sys2Proof

/-- The build-time parameters of one block. -/
structure Params where
  /-- KMAX, the largest square side; 1 to 11 (R5). -/
  kmax : Nat
  /-- CARRY_DEPTH, the capacity of the carry buffer in bytes; 1 to 65535 (R7). -/
  carryDepth : Nat
deriving DecidableEq, Repr

/-- The defaults: KMAX = 8, CARRY_DEPTH = 1024 (R5, R7). -/
def Params.default : Params := { kmax := 8, carryDepth := 1024 }

/-- The legal ranges (R5, R7). -/
abbrev Params.Legal (p : Params) : Prop := 1 ≤ p.kmax ∧ p.kmax ≤ 11 ∧ 1 ≤ p.carryDepth ∧ p.carryDepth ≤ 65535

end Sys2Proof
end

