-- ==== Sys2Proof/Machine/State.lean ====
section
/-! DEFINITION. Machine/State.lean: the state record of spec 10_state R17, plain data, and its reset values (R131). -/

namespace Sys2Proof.Machine

/-- STATE, the command processor's state: IDLE (0), STREAM (1) or ERROR (2) (R17, R26). -/
inductive ProcState where
  | idle
  | stream
  | error
deriving DecidableEq, Repr

/-- An entry of CODEC: a valid bit and a 7-bit code (R37, R38). -/
structure CodecEntry where
  valid : Bool
  code : Nat
deriving DecidableEq, Repr

/-- An entry of ENC or DEC: a valid bit and a packed bigram of 2*BMAX bits (R37, R41). -/
structure TableEntry where
  valid : Bool
  value : Nat
deriving DecidableEq, Repr

/-- The five internal memories of R37, for naming one in a fault. -/
inductive MemoryName where
  | alpha
  | key
  | codec
  | enc
  | dec
deriving DecidableEq, Repr

/-- An internal memory: the entries that differ from what an unlisted index reads as, by strictly rising index. -/
abbrev Memory (α : Type) := List (Nat × α)

/-- Why the model stops with a fault. -/
inductive Fault where
  /-- An internal memory was accessed at an index it does not have. Raised by the memory accesses of APUSH, KPUSH,
  BUILD, UNPACK, ENCB, DECB, DATA and END, only in states that break the bounds of R18 item 7 or item 5: R43 says that
  every index the rules form is in range. Safe: the model stops where the spec says the block never comes. -/
  | indexOutOfRange (memory : MemoryName) (index : Nat)
deriving DecidableEq, Repr

/-- Why the model refuses an instruction. -/
inductive Refusal where
  /-- The instruction has no meaning in the model. Raised by no arm of `exec`: every command of the opcode table is
  modelled. Safe. -/
  | notModelled (mnemonic : String)
deriving DecidableEq, Repr

/-- The architectural state (R17), with two fields of the model's own: `params` (log entry 1) and `cmds` (log entry 2). -/
structure State where
  /-- The model's own field: the build-time parameters KMAX and CARRY_DEPTH (R5, R7), read through PARAMS (R25). -/
  params : Params
  /-- STATE. -/
  procState : ProcState
  /-- TV, tables valid (R19). -/
  tv : Bool
  /-- MODE, the direction of the current or last stream (R21). -/
  mode : Mode
  /-- BUSY (R20). -/
  busy : Bool
  /-- ALEN, the number of alphabet symbols written; 8 bits. -/
  alen : Nat
  /-- ALPHA[0..NMAX-1], the alphabet symbols. -/
  alpha : Memory Byte
  /-- KLEN, the number of key symbols written; 8 bits. -/
  klen : Nat
  /-- KEY[0..2*NMAX-1], the key symbols. -/
  key : Memory Byte
  /-- PAD, the padding symbol. -/
  pad : Byte
  /-- K, the square side, 0 when TV = 0; 4 bits. -/
  k : Nat
  /-- B, the packed-code width, 0 when TV = 0; 4 bits. -/
  b : Nat
  /-- CODEC[0..255], the byte-to-code table. -/
  codec : Memory CodecEntry
  /-- ENC[0..TDEPTH-1], the encrypt table. -/
  enc : Memory TableEntry
  /-- DEC[0..TDEPTH-1], the decrypt table. -/
  dec : Memory TableEntry
  /-- PEND, the pending first half of a bigram; 1 + 7 bits. -/
  pend : Option Nat
  /-- CARRY, the excluded bytes held while a code is pending, first in first out. -/
  carry : List Byte
  /-- RESULT, the result of the last query (R30). -/
  result : BitVec 32
  /-- ERR_CODE (R109); 0 = none. -/
  errCode : BitVec 8
  /-- ERR_SUB. -/
  errSub : BitVec 8
  /-- ERR_ARG. -/
  errArg : BitVec 16
  /-- ERR_CMD, the command word that raised the error (R28). -/
  errCmd : BitVec 32
  /-- IN_COUNT, DATA bytes accepted in the current or last stream (R33). -/
  inCount : BitVec 32
  /-- OUT_COUNT, data tokens emitted in the current or last stream (R33). -/
  outCount : BitVec 32
  /-- CMD_DONE, command words consumed since hardware reset (R34). -/
  cmdDone : BitVec 32
  /-- OUT, the tokens emitted and not yet taken by the host, oldest first (R53). -/
  out : List Token
  /-- The model's own field: the command words the host has written and the block has not yet taken, oldest first
  (R16, R55: the model sees only the sequence of words). -/
  cmds : List Word
deriving DecidableEq, Repr

/-- The machine right after hardware reset (R131, the "reset" column of R17), for given build-time parameters. ALPHA,
KEY, CODEC, ENC and DEC are unspecified by the spec; the model lists nothing in them (log entry 3). -/
def State.resetWith (p : Params) : State where
  params := p
  procState := .idle
  tv := false
  mode := .enc
  busy := false
  alen := 0
  alpha := []
  klen := 0
  key := []
  pad := 0x20
  k := 0
  b := 0
  codec := []
  enc := []
  dec := []
  pend := none
  carry := []
  result := 0
  errCode := 0
  errSub := 0
  errArg := 0
  errCmd := 0
  inCount := 0
  outCount := 0
  cmdDone := 0
  out := []
  cmds := []

/-- The machine right after hardware reset, with the default parameters. -/
def State.reset : State := State.resetWith Params.default

end Sys2Proof.Machine
end

