-- ==== Sys2Proof/Machine/Arith.lean ====
section
/-! DEFINITION. Machine/Arith.lean: the natural-number primitives of spec 00_scope R12, the sizes that follow from the
build-time parameters (R5, R6), and bigram packing (20_memory R40). -/

namespace Sys2Proof.Machine

/-- `isqrt(n)`, the largest natural `r` with `r*r <= n` (R12). -/
def isqrt : Nat → Nat
  | 0 => 0
  | n + 1 => if (isqrt n + 1) * (isqrt n + 1) ≤ n + 1 then isqrt n + 1 else isqrt n

/-- `clog2(n)`, the least natural `c` with `2^c >= n` (R12). -/
def clog2 : Nat → Nat
  | 0 => 0
  | n + 1 => if n + 1 ≤ 2 ^ clog2 n then clog2 n else clog2 n + 1

/-- NMAX = KMAX*KMAX (R5). -/
def nmaxOf (p : Params) : Nat := p.kmax * p.kmax

/-- BMAX = clog2(NMAX) (R6). -/
def bmaxOf (p : Params) : Nat := clog2 (nmaxOf p)

/-- TDEPTH = 2^(2*BMAX) (R6). -/
def tdepthOf (p : Params) : Nat := 2 ^ (2 * bmaxOf p)

/-- `pack2(c1, c2) = (c1 << B) | c2` (R40). -/
def pack2 (b c1 c2 : Nat) : Nat := c1 <<< b ||| c2

/-- `unpack2(v) = (v >> B, v & (2^B - 1))` (R40). -/
def unpack2 (b v : Nat) : Nat × Nat := (v >>> b, v &&& (2 ^ b - 1))

end Sys2Proof.Machine
end

