-- ==== Sys2Proof/Machine/Ops.lean ====
section
/-! DEFINITION. Machine/Ops.lean: the operations every command shares: the internal memories, the output channel, the
outcome of a command's pseudocode, error entry (60_exceptions R121) and the return from ERROR state (44_control R108). -/

namespace Sys2Proof.Machine

/-! ## Internal memories (20_memory R37) -/

/-- The entry at an index, given what an unlisted index reads as. -/
def Memory.read {α : Type} (unlisted : α) : Memory α → Nat → α
  | [], _ => unlisted
  | (j, x) :: m, i => if i < j then unlisted else if i = j then x else Memory.read unlisted m i

/-- Write one entry, keeping the canonical form: writing what an unlisted index reads as removes the entry. -/
def Memory.write {α : Type} [DecidableEq α] (unlisted : α) : Memory α → Nat → α → Memory α
  | [], i, v => if v = unlisted then [] else [(i, v)]
  | (j, x) :: m, i, v =>
    if i < j then (if v = unlisted then (j, x) :: m else (i, v) :: (j, x) :: m)
    else if i = j then (if v = unlisted then m else (i, v) :: m)
    else (j, x) :: Memory.write unlisted m i v

/-- The memory whose every entry holds what an unlisted index reads as: what filling a whole memory with the sentinel
leaves (40_codec R68, 41_table_builder R80). -/
def Memory.blank {α : Type} : Memory α := []

/-- The canonical form: indices strictly rising, all below the memory's size, and no entry equal to what an unlisted
index reads as. -/
def Memory.wf {α : Type} [DecidableEq α] (unlisted : α) (size : Nat) : Memory α → Bool
  | [] => true
  | (i, v) :: m =>
    decide (i < size) && decide (v ≠ unlisted) && m.all (fun e => decide (i < e.1)) && Memory.wf unlisted size m

/-- What an ALPHA or KEY entry that nothing has written reads as: 0x00 (log entry 3). -/
def unlistedByte : Byte := 0x00

/-- CODEC's unknown code, {valid = 0, code = 0} (R38): what an unlisted CODEC entry reads as. -/
def unknownCode : CodecEntry := { valid := false, code := 0 }

/-- The sentinel of ENC and DEC, {valid = 0, value = 0} (R41, R80): what an unlisted table entry reads as. -/
def sentinel : TableEntry := { valid := false, value := 0 }

/-! ## What a command's pseudocode ends in -/

/-- ERR_CODE's values outside 0 (R109). -/
inductive ErrCode where
  | illegalCmd
  | badState
  | invalidAlphabet
  | invalidKey
  | invalidPad
  | badCode
  | carryOverflow
  | internal
deriving DecidableEq, Repr

/-- The 8-bit number of an error code (R109). -/
def ErrCode.bits : ErrCode → BitVec 8
  | .illegalCmd => 0x01
  | .badState => 0x02
  | .invalidAlphabet => 0x03
  | .invalidKey => 0x04
  | .invalidPad => 0x05
  | .badCode => 0x06
  | .carryOverflow => 0x07
  | .internal => 0x08

/-- The operands of `raise E(sub, arg)` (R13). -/
structure ErrorReport where
  code : ErrCode
  sub : Nat
  arg : Nat
deriving DecidableEq, Repr

/-- Why a piece of pseudocode stops before its last line. -/
inductive Stop where
  | raised (e : ErrorReport)
  | fault (f : Fault)
deriving DecidableEq, Repr

/-- How a command's pseudocode ends: at its last line, at a `raise` with the state reached there, or at a fault. -/
inductive Run where
  | done (s : State)
  | raised (e : ErrorReport) (s : State)
  | fault (f : Fault)
deriving DecidableEq, Repr

/-- `raise E(sub, arg)` inside a computation. -/
def raise {α : Type} (code : ErrCode) (sub arg : Nat) : Except Stop α := .error (.raised { code, sub, arg })

/-- Stop a computation in state `s`. -/
def stopAt (s : State) : Stop → Run
  | .raised e => .raised e s
  | .fault f => .fault f

/-- A command that checks before it writes (R121: every command except BUILD): when it stops, it has changed nothing. -/
def precise (s : State) : Except Stop State → Run
  | .ok t => .done t
  | .error stop => stopAt s stop

/-- `MemRead(M, i)` (R13) on a memory of `size` entries. An index the memory does not have faults (R43). -/
def memRead {α : Type} (name : MemoryName) (size : Nat) (unlisted : α) (m : Memory α) (i : Nat) : Except Stop α :=
  if i < size then .ok (Memory.read unlisted m i) else .error (.fault (.indexOutOfRange name i))

/-- `MemWrite(M, i, v)` (R13) on a memory of `size` entries. An index the memory does not have faults (R43). -/
def memWrite {α : Type} [DecidableEq α] (name : MemoryName) (size : Nat) (unlisted : α) (m : Memory α) (i : Nat)
    (v : α) : Except Stop (Memory α) :=
  if i < size then .ok (Memory.write unlisted m i v) else .error (.fault (.indexOutOfRange name i))

/-! ## The output channel (20_memory R53, 30_encoding R62) -/

/-- The EOS marker: a stream ended by END (R62). -/
def eosMarker : Token := 0x100

/-- The ABORT marker: a stream ended by ABORT, by CLEAR or by error entry (R62). -/
def abortMarker : Token := 0x101

/-- A data token: bit [8] = 0, bits [7:0] the byte (R62). -/
def dataToken (v : Byte) : Token := 0#1 ++ v

/-- `emit(t)` (R13): append a token to OUT. -/
def emit (t : Token) (s : State) : State := { s with out := s.out ++ [t] }

/-- `emit_byte(b)` (R13): emit a data token and add 1 to OUT_COUNT, modulo 2^32. -/
def emitByte (v : Byte) (s : State) : State := { emit (dataToken v) s with outCount := s.outCount + 1 }

/-- Emit bytes in order, from index 0 (R13). -/
def emitBytes (vs : List Byte) (s : State) : State := vs.foldl (fun s v => emitByte v s) s

/-- End the open stream, if there is one, with the ABORT marker, and discard the pending code and the carry
(the shared part of R99 and R121). -/
def abortOpenStream (s : State) : State :=
  if s.procState = .stream then { emit abortMarker s with pend := none, carry := [] } else s

/-! ## Error entry and the way back -/

/-- `error_entry(E, sub, arg, w)` (R121): abort an open stream, record the error and the offending word, enter ERROR. -/
def errorEntry (e : ErrorReport) (w : Word) (s : State) : State :=
  { abortOpenStream s with
    errCode := e.code.bits, errSub := BitVec.ofNat 8 e.sub, errArg := BitVec.ofNat 16 e.arg, errCmd := w,
    procState := .error }

/-- Leave ERROR state: clear the error registers and return to IDLE, keeping all else (R108, R122). -/
def leaveError (s : State) : State :=
  { s with errCode := 0, errSub := 0, errArg := 0, errCmd := 0, procState := .idle }

end Sys2Proof.Machine
end

