-- ==== Sys2Proof/Machine/Flags.lean ====
section
/-! DEFINITION. Machine/Flags.lean: the status flags (10_state R19 to R22), what sets and clears them, and what they
allow (44_control R105). -/

namespace Sys2Proof.Machine

/-- STATE as its number: 0 = IDLE, 1 = STREAM, 2 = ERROR (R26). -/
def ProcState.number : ProcState → Nat
  | .idle => 0
  | .stream => 1
  | .error => 2

/-- A flag as its number. -/
def flagNumber (f : Bool) : Nat := if f then 1 else 0

/-- MODE as its number: 0 = encrypt, 1 = decrypt (R17). -/
def modeNumber : Mode → Nat
  | .enc => 0
  | .dec => 1

/-- `invalidate` (R70): TV <- 0; K <- 0; B <- 0. -/
def invalidate (s : State) : State := { s with tv := false, k := 0, b := 0 }

/-- BUILD's commit (R83): K <- k; B <- b; TV <- 1. -/
def commit (k b : Nat) (s : State) : State := { s with k := k, b := b, tv := true }

/-- The command processor takes a word: BUSY <- 1 (R20, R104). -/
def beginCycle (s : State) : State := { s with busy := true }

/-- The command's effects are complete: CMD_DONE <- CMD_DONE + 1, modulo 2^32, and BUSY <- 0 (R104, R34). -/
def retire (s : State) : State := { s with cmdDone := s.cmdDone + 1, busy := false }

/-- `allowed(d, STATE, TV)`, the table of R105. It is applied only outside ERROR state; the STREAM column does not look
at TV (log entry 6). -/
def allowed (o : Opcode) (st : ProcState) (tv : Bool) : Bool :=
  match st with
  | .error => false
  | .idle =>
    match o with
    | .nop | .clear | .apush | .kpush | .setpad | .build | .abort | .errack => true
    | .start | .pack | .unpack | .encb | .decb => tv
    | .data | .endStream => false
  | .stream =>
    match o with
    | .nop | .clear | .data | .endStream | .abort | .pack | .unpack | .encb | .decb | .errack => true
    | .apush | .kpush | .setpad | .build | .start => false

/-- The commands that run in ERROR state: CLEAR and ERRACK (R104). -/
def runsInError : Opcode → Bool
  | .clear | .errack => true
  | .nop | .apush | .kpush | .setpad | .build | .start | .data | .endStream | .abort | .encb | .decb | .pack
  | .unpack => false

/-- BAD_STATE(sub = STATE | (TV << 2), arg = 0) (R104). -/
def badState (st : ProcState) (tv : Bool) : ErrorReport :=
  { code := .badState, sub := st.number ||| flagNumber tv <<< 2, arg := 0 }

end Sys2Proof.Machine
end

