-- ==== Sys2Proof/Machine/Cycle.lean ====
section
/-! DEFINITION. Machine/Cycle.lean: the command cycle `step(w)` of 44_control R104, for a legal word and for an illegal
one, and the command channel it takes words from. -/

namespace Sys2Proof.Machine

/-- The end of a cycle: a raise performs error entry with the offending word (R104, R121), and either way the word is
counted at `(*)`. -/
def endCycle (w : Word) : Run → Host.Outcome State Fault Refusal
  | .done s => .next (retire s)
  | .raised e s => .next (retire (errorEntry e w s))
  | .fault f => .fault f

/-- The cycle of a legal command (R104) whose own rule is `body`: the ERROR gate, the state check, then the rule. The
offending word of a raise is the command's own encoding, the only word that decodes to it (R58, log entry 7). -/
def runCommand (i : Instr) (body : State → Run) (s : State) : Host.Outcome State Fault Refusal :=
  let s := beginCycle s
  endCycle (encode i)
    (if s.procState = .error then (if runsInError i.opcode then body s else .done s)
     else if allowed i.opcode s.procState s.tv then body s
     else .raised (badState s.procState s.tv) s)

/-- The subcode of ILLEGAL_CMD: 1 = reserved opcode, 2 = reserved bit set (R109, R110). -/
def illegalSub : DecodeError → Nat
  | .reservedOpcode => 1
  | .reservedBits => 2

/-- The cycle of an illegal word (R104, R110): discarded in ERROR state, ILLEGAL_CMD elsewhere. -/
def runIllegal (w : Word) (e : DecodeError) (s : State) : Host.Outcome State Fault Refusal :=
  let s := beginCycle s
  endCycle w
    (if s.procState = .error then .done s
     else .raised { code := .illegalCmd, sub := illegalSub e, arg := 0 } s)

/-- Take the oldest word the host has written (R16, R104: in arrival order, one at a time); none when there is none. -/
def takeWord (s : State) : Option (Word × State) :=
  match s.cmds with
  | [] => none
  | w :: ws => some (w, { s with cmds := ws })

/-- Place a word where the next `takeWord` finds it. -/
def placeWord (w : Word) (s : State) : State := { s with cmds := w :: s.cmds }

end Sys2Proof.Machine
end

