-- ==== Sys2Proof/Machine/Operands.lean ====
section
/-! DEFINITION. Machine/Operands.lean: how a command reads its operands against the state: code operands against N
(30_encoding R57), `pack` and `unpack` (40_codec R65, R66), and the RESULT word (10_state R30). -/

namespace Sys2Proof.Machine

/-- A code operand must be below N, else BAD_CODE with the operand's subcode (R57, R109, R115). N of the current
configuration is ALEN (R18 item 5, log entry 5). -/
def checkCode (sub c : Nat) (s : State) : Except Stop Unit :=
  if s.alen ≤ c then raise .badCode sub c else .ok ()

/-- `pack(v)` (R65): the CODEC entry of a byte. Every byte is an index of CODEC's 256 entries. -/
def packByte (v : Byte) (s : State) : CodecEntry := Memory.read unknownCode s.codec v.toNat

/-- `unpack(c)` (R66): the byte of the alphabet symbol with code `c`. -/
def unpackCode (c : Nat) (s : State) : Except Stop Byte :=
  memRead .alpha (nmaxOf s.params) unlistedByte s.alpha c

/-- `RESULT <- zext_32({1, RHI, RLO})`: RVALID [16], RHI [15:8], RLO [7:0] (R30). -/
def resultWord (rhi rlo : Byte) : BitVec 32 := 0#15 ++ (1#1 ++ (rhi ++ rlo))

/-- A code's low 8 bits, `o[7:0]`. -/
def codeByte (c : Nat) : Byte := BitVec.ofNat 8 c

end Sys2Proof.Machine
end

