-- ==== Sys2Proof/Machine/Codec.lean ====
section
/-! DEFINITION. Machine/Codec.lean: the alphabet codec (40_codec): its construction and APUSH, SETPAD, PACK, UNPACK. -/

namespace Sys2Proof.Machine

/-- `codec_build` (R68): every entry unknown, then entry ALPHA[i] = {valid = 1, code = i} for i in 0..N-1. -/
def codecBuild (alpha : Memory Byte) (n : Nat) : Memory CodecEntry :=
  (List.range n).foldl
    (fun codec i =>
      Memory.write unknownCode codec (Memory.read unlistedByte alpha i).toNat { valid := true, code := i })
    Memory.blank

/-- APUSH's rule (R71). -/
def apush (byte : Byte) (s : State) : Except Stop State :=
  if s.alen = nmaxOf s.params then raise .invalidAlphabet 5 s.alen
  else do
    let alpha ← memWrite .alpha (nmaxOf s.params) unlistedByte s.alpha s.alen byte
    .ok (invalidate { s with alpha := alpha, alen := s.alen + 1 })

/-- APUSH: append one alphabet symbol (R71). -/
def execApush (byte : Byte) (s : State) : Host.Outcome State Fault Refusal :=
  runCommand (.apush byte) (fun s => precise s (apush byte s)) s

/-- SETPAD: set the padding symbol (R72). -/
def execSetpad (byte : Byte) (s : State) : Host.Outcome State Fault Refusal :=
  runCommand (.setpad byte) (fun s => .done (invalidate { s with pad := byte })) s

/-- PACK's RESULT (R73): {1, 0x00, code} for an alphabet member, 0 for the unknown code. -/
def packResult (e : CodecEntry) : BitVec 32 := if e.valid then resultWord 0x00 (codeByte e.code) else 0

/-- PACK: query `pack` of a byte (R73). -/
def execPack (byte : Byte) (s : State) : Host.Outcome State Fault Refusal :=
  runCommand (.pack byte) (fun s => .done { s with result := packResult (packByte byte s) }) s

/-- UNPACK's rule (R74). -/
def unpackQuery (code : Nat) (s : State) : Except Stop State := do
  checkCode 1 code s
  let v ← unpackCode code s
  .ok { s with result := resultWord 0x00 v }

/-- UNPACK: query `unpack` of a code (R74). -/
def execUnpack (code : Nat) (s : State) : Host.Outcome State Fault Refusal :=
  runCommand (.unpack code) (fun s => precise s (unpackQuery code s)) s

end Sys2Proof.Machine
end

