-- ==== Sys2Proof/Machine/Builder.lean ====
section
/-! DEFINITION. Machine/Builder.lean: the table builder (41_table_builder): the checks, the three squares, the ENC and
DEC tables, KPUSH and BUILD. -/

namespace Sys2Proof.Machine

/-- KPUSH's rule (R75). -/
def kpush (byte : Byte) (s : State) : Except Stop State :=
  if s.klen = 2 * nmaxOf s.params then raise .invalidKey 1 s.klen
  else do
    let key ← memWrite .key (2 * nmaxOf s.params) unlistedByte s.key s.klen byte
    .ok (invalidate { s with key := key, klen := s.klen + 1 })

/-- KPUSH: append one key symbol (R75). -/
def execKpush (byte : Byte) (s : State) : Host.Outcome State Fault Refusal :=
  runCommand (.kpush byte) (fun s => precise s (kpush byte s)) s

/-! ## The checks -/

/-- The alphabet symbol with code `i`. -/
def symbolAt (s : State) (i : Nat) : Byte := Memory.read unlistedByte s.alpha i

/-- The key symbol at index `i`. -/
def keyAt (s : State) (i : Nat) : Byte := Memory.read unlistedByte s.key i

/-- The symbol at index `i` occurs at a lower index (R77). -/
def duplicateAt (s : State) (i : Nat) : Bool := (List.range i).any (fun j => symbolAt s j == symbolAt s i)

/-- `alpha_check` (R77) of N = ALEN symbols. Its loops read ALPHA[0..N-1], which the memory has exactly when
N <= NMAX (R43). -/
def alphaCheck (s : State) : Except Stop Unit :=
  let n := s.alen
  if n = 0 then raise .invalidAlphabet 1 0
  else if isqrt n * isqrt n ≠ n then raise .invalidAlphabet 2 n
  else if nmaxOf s.params < n then .error (.fault (.indexOutOfRange .alpha (nmaxOf s.params)))
  else
    match (List.range n).find? (fun i => decide (0x80 ≤ (symbolAt s i).toNat)) with
    | some i => raise .invalidAlphabet 3 i
    | none =>
      match (List.range n).find? (fun i => duplicateAt s i) with
      | some i => raise .invalidAlphabet 4 i
      | none => .ok ()

/-- `pad_check` (R78), after `codec_build`. -/
def padCheck (s : State) : Except Stop Unit :=
  if (packByte s.pad s).valid then .ok () else raise .invalidPad 1 s.pad.toNat

/-- `key_check` (R79), after `codec_build`. -/
def keyCheck (s : State) : Except Stop Unit :=
  let n := s.alen
  if s.klen ≠ 2 * n then raise .invalidKey 2 s.klen
  else
    match (List.range (2 * n)).find? (fun i => !(packByte (keyAt s i) s).valid) with
    | some i => raise .invalidKey 3 i
    | none => .ok ()

/-! ## The squares (20_memory R39) and the tables -/

/-- Square0[y][x] = y*k + x, the code of ALPHA[y*k + x] (R39). -/
def square0 (k y x : Nat) : Nat := y * k + x

/-- Square1[y][x] = CODEC[KEY[y*k + x]].code: KeyA, row-major (R39). -/
def square1 (s : State) (k y x : Nat) : Nat := (packByte (keyAt s (y * k + x)) s).code

/-- Square2[y][x] = CODEC[KEY[N + y*k + x]].code: KeyB, row-major (R39). -/
def square2 (s : State) (k y x : Nat) : Nat := (packByte (keyAt s (s.alen + y * k + x)) s).code

/-- The loop indices (c1y, c1x, c2y, c2x) of `populate`, in loop order (R81). -/
def bigramPositions (k : Nat) : List (Nat × Nat × Nat × Nat) :=
  (List.range k).flatMap fun c1y => (List.range k).flatMap fun c1x =>
    (List.range k).flatMap fun c2y => (List.range k).map fun c2x => (c1y, c1x, c2y, c2x)

/-- One turn of `populate` (R81): ENC[pack2(p1, p2)] <- {1, pack2(t1, t2)}, with t1 = Square1[c1y][c2x] and
t2 = Square2[c2y][c1x]. -/
def populateOne (s : State) (k b : Nat) (enc : Memory TableEntry) (at_ : Nat × Nat × Nat × Nat) : Memory TableEntry :=
  match at_ with
  | (c1y, c1x, c2y, c2x) =>
    Memory.write sentinel enc (pack2 b (square0 k c1y c1x) (square0 k c2y c2x))
      { valid := true, value := pack2 b (square1 s k c1y c2x) (square2 s k c2y c1x) }

/-- `populate` (R81), over the ENC that `fill` left. -/
def populate (s : State) (k b : Nat) (enc : Memory TableEntry) : Memory TableEntry :=
  (bigramPositions k).foldl (populateOne s k b) enc

/-- `invert` (R82) over the given ENC indices in order: the DEC reached, and the index that broke the bijection, if
one did. -/
def invertOver (enc : Memory TableEntry) : List Nat → Memory TableEntry → Memory TableEntry × Option Nat
  | [], dec => (dec, none)
  | i :: is, dec =>
    let e := Memory.read sentinel enc i
    if e.valid then
      if (Memory.read sentinel dec e.value).valid then (dec, some i)
      else invertOver enc is (Memory.write sentinel dec e.value { valid := true, value := i })
    else invertOver enc is dec

/-- `invert` (R82): all indices 0..2^(2b)-1, ascending. -/
def invert (enc : Memory TableEntry) (b : Nat) (dec : Memory TableEntry) : Memory TableEntry × Option Nat :=
  invertOver enc (List.range (2 ^ (2 * b))) dec

/-- `codec_build`, as the step of `build` that writes CODEC (R68, R76). -/
def writeCodec (s : State) : State := { s with codec := codecBuild s.alpha s.alen }

/-- `fill` (R80): every entry of ENC and DEC becomes the sentinel. -/
def fillTables (s : State) : State := { s with enc := Memory.blank, dec := Memory.blank }

/-- `populate`, as the step of `build` that writes ENC (R81, R76). -/
def writeEnc (k b : Nat) (s : State) : State := { s with enc := populate s k b s.enc }

/-- The steps of `build` after its checks (R76): `fill`, `populate`, `invert` and, if no collision, the commit (R80 to
R83). A collision leaves the DEC entries written so far. -/
def buildTables (s : State) : Run :=
  let k := isqrt s.alen
  let b := clog2 s.alen
  let s := writeEnc k b (fillTables s)
  match invert s.enc b s.dec with
  | (dec, some i) => .raised { code := .invalidKey, sub := 4, arg := i } { s with dec := dec }
  | (dec, none) => .done (commit k b { s with dec := dec })

/-- `build` (R76): the steps in the spec's order, stopping at the first raise with what the steps so far wrote. -/
def build (s : State) : Run :=
  let s := invalidate s
  match alphaCheck s with
  | .error stop => stopAt s stop
  | .ok () =>
    let s := writeCodec s
    match padCheck s with
    | .error stop => stopAt s stop
    | .ok () =>
      match keyCheck s with
      | .error stop => stopAt s stop
      | .ok () => buildTables s

/-- BUILD: construct the codec and the tables (R87). -/
def execBuild (s : State) : Host.Outcome State Fault Refusal := runCommand .build build s

end Sys2Proof.Machine
end

