-- ==== Sys2Proof/Machine/Control.lean ====
section
/-! DEFINITION. Machine/Control.lean: the control commands (44_control): NOP, CLEAR, ERRACK. -/

namespace Sys2Proof.Machine

/-- NOP: do nothing (R106). -/
def execNop (s : State) : Host.Outcome State Fault Refusal := runCommand .nop (fun s => .done s) s

/-- CLEAR's rule (R107, the "CLEAR" column of R17). ALPHA, KEY, CODEC, ENC and DEC keep their contents; CMD_DONE and the
tokens already in OUT are kept. -/
def clear (s : State) : State :=
  { abortOpenStream s with
    procState := .idle, tv := false, mode := .enc,
    alen := 0, klen := 0, pad := 0x20, k := 0, b := 0,
    pend := none, carry := [],
    result := 0,
    errCode := 0, errSub := 0, errArg := 0, errCmd := 0,
    inCount := 0, outCount := 0 }

/-- CLEAR: soft reset (R107). -/
def execClear (s : State) : Host.Outcome State Fault Refusal := runCommand .clear (fun s => .done (clear s)) s

/-- ERRACK: acknowledge an error and leave ERROR state; elsewhere no effect (R108). -/
def execErrack (s : State) : Host.Outcome State Fault Refusal :=
  runCommand .errack (fun s => .done (if s.procState = .error then leaveError s else s)) s

end Sys2Proof.Machine
end

