-- ==== Sys2Proof/Machine/Engine.lean ====
section
/-! DEFINITION. Machine/Engine.lean: the bigram engine (42_bigram_engine): `lookup`, ENCB and DECB. -/

namespace Sys2Proof.Machine

/-- The name of the table a direction reads (R88). -/
def tableName : Mode → MemoryName
  | .enc => .enc
  | .dec => .dec

/-- The table a direction reads: ENC for encrypt, DEC for decrypt (R88). -/
def tableOf (m : Mode) (s : State) : Memory TableEntry :=
  match m with
  | .enc => s.enc
  | .dec => s.dec

/-- `lookup(m, c1, c2)` (R88). It writes nothing. -/
def lookup (m : Mode) (c1 c2 : Nat) (s : State) : Except Stop (Nat × Nat) := do
  let e ← memRead (tableName m) (tdepthOf s.params) sentinel (tableOf m s) (pack2 s.b c1 c2)
  if e.valid then .ok (unpack2 s.b e.value) else raise .internal 2 (pack2 s.b c1 c2)

/-- The rule of ENCB and DECB (R90, R91): C1 is checked before C2. -/
def bigramQuery (m : Mode) (c1 c2 : Nat) (s : State) : Except Stop State := do
  checkCode 1 c1 s
  checkCode 2 c2 s
  let o ← lookup m c1 c2 s
  .ok { s with result := resultWord (codeByte o.1) (codeByte o.2) }

/-- ENCB: encrypt one bigram (R90). -/
def execEncb (c1 c2 : Nat) (s : State) : Host.Outcome State Fault Refusal :=
  runCommand (.encb c1 c2) (fun s => precise s (bigramQuery .enc c1 c2 s)) s

/-- DECB: decrypt one bigram (R91). -/
def execDecb (c1 c2 : Nat) (s : State) : Host.Outcome State Fault Refusal :=
  runCommand (.decb c1 c2) (fun s => precise s (bigramQuery .dec c1 c2 s)) s

end Sys2Proof.Machine
end

