-- ==== Sys2Proof/Machine/Stream.lean ====
section
/-! DEFINITION. Machine/Stream.lean: the stream processor (43_stream_processor): START, DATA, END, ABORT. -/

namespace Sys2Proof.Machine

/-- The emissions of `resolve` (R92): the first output byte, the whole carry in order, the second output byte; then
PEND <- none and CARRY <- []. -/
def emitBigram (x1 x2 : Byte) (s : State) : State :=
  { emitByte x2 (emitBytes s.carry (emitByte x1 s)) with pend := none, carry := [] }

/-- `resolve(c2)` with PEND = some(c1) (R92). -/
def resolve (c1 c2 : Nat) (s : State) : Except Stop State := do
  let o ← lookup s.mode c1 c2 s
  let x1 ← unpackCode o.1 s
  let x2 ← unpackCode o.2 s
  .ok (emitBigram x1 x2 s)

/-- START: begin a stream in one direction (R93). -/
def execStart (mode : Mode) (s : State) : Host.Outcome State Fault Refusal :=
  runCommand (.start mode)
    (fun s => .done { s with mode := mode, pend := none, carry := [], inCount := 0, outCount := 0,
                             procState := .stream }) s

/-- An alphabet byte with code `c` (R95). -/
def alphabetByte (c : Nat) (s : State) : Except Stop State :=
  match s.pend with
  | none => .ok { s with pend := some c }
  | some c1 => resolve c1 c s

/-- An excluded byte (R96, R97): emitted at once when nothing is pending, carried otherwise. -/
def excludedByte (byte : Byte) (s : State) : Except Stop State :=
  match s.pend with
  | none => .ok (emitByte byte s)
  | some _ =>
    if s.carry.length = s.params.carryDepth then raise .carryOverflow 0 s.params.carryDepth
    else .ok { s with carry := s.carry ++ [byte] }

/-- DATA's rule (R94). -/
def dataByte (byte : Byte) (s : State) : Except Stop State := do
  let t ← if (packByte byte s).valid then alphabetByte (packByte byte s).code s else excludedByte byte s
  .ok { t with inCount := t.inCount + 1 }

/-- DATA: process one input byte (R94). -/
def execData (byte : Byte) (s : State) : Host.Outcome State Fault Refusal :=
  runCommand (.data byte) (fun s => precise s (dataByte byte s)) s

/-- END's padding (R98): a pending code is resolved with PAD as the second half; a carry without a pending code is the
source's invariant violation. -/
def padPending (s : State) : Except Stop State :=
  match s.pend with
  | some c1 => resolve c1 (packByte s.pad s).code s
  | none => if 0 < s.carry.length then raise .internal 1 s.carry.length else .ok s

/-- END's rule (R98). -/
def endOfStream (s : State) : Except Stop State := do
  let t ← padPending s
  .ok { emit eosMarker t with procState := .idle }

/-- END: end of stream (R98). -/
def execEnd (s : State) : Host.Outcome State Fault Refusal :=
  runCommand .endStream (fun s => precise s (endOfStream s)) s

/-- ABORT's rule (R99): in STREAM, end the stream with the ABORT marker; in IDLE, nothing. -/
def abortStream (s : State) : State :=
  if s.procState = .stream then { abortOpenStream s with procState := .idle } else s

/-- ABORT: abandon the current stream (R99). -/
def execAbort (s : State) : Host.Outcome State Fault Refusal := runCommand .abort (fun s => .done (abortStream s)) s

end Sys2Proof.Machine
end

