-- ==== Sys2Proof/Machine/Dispatch.lean ====
section
/-! DEFINITION. Machine/Dispatch.lean: `exec i s` is the whole command cycle of 44_control R104 for the legal command
`i`: one arm per constructor of Instr. -/

namespace Sys2Proof.Machine

def exec (i : Instr) (s : State) : Host.Outcome State Fault Refusal :=
  match i with
  | .nop => Sys2Proof.Machine.execNop s
  | .clear => Sys2Proof.Machine.execClear s
  | .apush byte => Sys2Proof.Machine.execApush byte s
  | .kpush byte => Sys2Proof.Machine.execKpush byte s
  | .setpad byte => Sys2Proof.Machine.execSetpad byte s
  | .build => Sys2Proof.Machine.execBuild s
  | .start mode => Sys2Proof.Machine.execStart mode s
  | .data byte => Sys2Proof.Machine.execData byte s
  | .endStream => Sys2Proof.Machine.execEnd s
  | .abort => Sys2Proof.Machine.execAbort s
  | .encb c1 c2 => Sys2Proof.Machine.execEncb c1 c2 s
  | .decb c1 c2 => Sys2Proof.Machine.execDecb c1 c2 s
  | .pack byte => Sys2Proof.Machine.execPack byte s
  | .unpack code => Sys2Proof.Machine.execUnpack code s
  | .errack => Sys2Proof.Machine.execErrack s

end Sys2Proof.Machine
end

