-- ==== Sys2Proof/Machine/Step.lean ====
section
/-! DEFINITION. Machine/Step.lean: one step of the command processor: take the next word of the command channel and run
its cycle (44_control R104). -/

namespace Sys2Proof.Machine

/-- One step (R104). With no word to take, the block is idle and holds its state (R130, log entry 9). -/
def step (s : State) : Host.Outcome State Fault Refusal :=
  match takeWord s with
  | none => .next s
  | some (w, s) =>
    match decode w with
    | .ok i => exec i s
    | .error e => runIllegal w e s

/-- The state with a command word placed at the front of the command channel, where `step` takes its next word. -/
def State.withFetchWord (s : State) (nbits w : Nat) : State := placeWord (BitVec.ofNat 32 (w % 2 ^ nbits)) s

end Sys2Proof.Machine
end

