-- ==== Sys2Proof/Machine/Assembler.lean ====
section
/-! DEFINITION. Machine/Assembler.lean: the assembler syntax and the pseudo-instructions (30_encoding R63, R64), from the
characters of a line to command words. What the rules leave open in the text of a line is log entry 11. It has no part in the
machine's step. -/

namespace Sys2Proof.Machine

/-- A token of an assembler line. -/
inductive AsmToken where
  | name (cs : List Char)
  | number (n : Nat)
  | byte (b : Byte)
  | text (bs : List Byte)
  | comma
deriving DecidableEq, Repr

/-- The value of a hexadecimal digit. -/
def hexDigit (c : Char) : Option Nat :=
  if '0' ≤ c ∧ c ≤ '9' then some (c.toNat - 48)
  else if 'a' ≤ c ∧ c ≤ 'f' then some (c.toNat - 87)
  else if 'A' ≤ c ∧ c ≤ 'F' then some (c.toNat - 55)
  else none

/-- The value of a digit string in a base, none when a character is no digit of it. -/
def digitsValue (base : Nat) (cs : List Char) : Option Nat :=
  if cs.isEmpty then none
  else cs.foldl (fun acc c => do
    let a ← acc
    let d ← hexDigit c
    if d < base then some (a * base + d) else none) (some 0)

/-- A number: decimal (`65`) or hexadecimal (`0x41`) (R63). -/
def numberValue : List Char → Option Nat
  | '0' :: 'x' :: cs => digitsValue 16 cs
  | cs => digitsValue 10 cs

/-- One character of a literal that `quote` ends: an escape (R63, R64) or a character that stands for its US-ASCII
code. -/
def literalByte (quote : Char) : List Char → Option (Byte × List Char)
  | '\\' :: 'n' :: cs => some (0x0A, cs)
  | '\\' :: '\\' :: cs => some (0x5C, cs)
  | '\\' :: 'x' :: h :: l :: cs => do
    let h ← hexDigit h
    let l ← hexDigit l
    some (BitVec.ofNat 8 (16 * h + l), cs)
  | '\\' :: c :: cs => if c = quote then some (BitVec.ofNat 8 c.toNat, cs) else none
  | c :: cs => if c ≠ quote ∧ c ≠ '\\' ∧ c.toNat < 0x80 then some (BitVec.ofNat 8 c.toNat, cs) else none
  | [] => none

/-- The bytes of a string literal up to its closing quote, and what follows it (R64). -/
def stringBytes : Nat → List Char → Option (List Byte × List Char)
  | 0, _ => none
  | fuel + 1, cs =>
    match cs with
    | '"' :: rest => some ([], rest)
    | _ => do
      let (b, rest) ← literalByte '"' cs
      let (bs, rest) ← stringBytes fuel rest
      some (b :: bs, rest)

/-- A character of a name or a number. -/
def wordChar (c : Char) : Bool := ('0' ≤ c && c ≤ '9') || ('A' ≤ c && c ≤ 'Z') || ('a' ≤ c && c ≤ 'z')

/-- The tokens of a line; `;` starts a comment (R63). DESIGN CHOICE (log entry 11): spaces and tabs may stand between
tokens and are needed only between two tokens made of letters and digits, so none is needed between a mnemonic and a quoted
operand. -/
def asmTokens : Nat → List Char → Option (List AsmToken)
  | 0, _ => none
  | _ + 1, [] => some []
  | fuel + 1, c :: cs =>
    if c = ';' then some []
    else if c = ' ' ∨ c = '\t' then asmTokens fuel cs
    else if c = ',' then do
      let ts ← asmTokens fuel cs
      some (.comma :: ts)
    else if c = '\'' then do
      let (b, rest) ← literalByte '\'' cs
      match rest with
      | '\'' :: rest => do
        let ts ← asmTokens fuel rest
        some (.byte b :: ts)
      | _ => none
    else if c = '"' then do
      let (bs, rest) ← stringBytes (cs.length + 1) cs
      let ts ← asmTokens fuel rest
      some (.text bs :: ts)
    else if wordChar c then do
      let word := (c :: cs).takeWhile wordChar
      let ts ← asmTokens fuel ((c :: cs).dropWhile wordChar)
      if '0' ≤ c ∧ c ≤ '9' then do
        let n ← numberValue word
        some (.number n :: ts)
      else some (.name word :: ts)
    else none

/-- The operands after a mnemonic, separated by commas (R63); a comma that separates nothing is refused (DESIGN CHOICE, log
entry 11). -/
def asmOperands : List AsmToken → Option (List AsmToken)
  | [] => some []
  | [t] => if t = .comma then none else some [t]
  | t :: .comma :: ts => if t = .comma then none else do
    let os ← asmOperands ts
    if os.isEmpty then none else some (t :: os)
  | _ :: _ :: _ => none

/-- A byte operand: a number that fits a byte, or a character literal (R63). -/
def byteOperand : AsmToken → Option Byte
  | .number n => if n < 256 then some (BitVec.ofNat 8 n) else none
  | .byte b => some b
  | .name _ | .text _ | .comma => none

/-- A mode operand: `ENC` or `DEC` (R63). -/
def modeOperand : AsmToken → Option Mode
  | .name ['E', 'N', 'C'] => some .enc
  | .name ['D', 'E', 'C'] => some .dec
  | _ => none

/-- Refuse a command whose operand does not fit its field (R63). -/
def fitting (i : Instr) : Option (List Instr) := if i.wellFormed then some [i] else none

/-! The pseudo-instructions (R64). -/

/-- `ALPHABET "s"`. -/
def expandAlphabet (s : List Byte) : List Instr := s.map .apush

/-- `KEY "s"`. -/
def expandKey (s : List Byte) : List Instr := s.map .kpush

/-- `TEXT "s"`. -/
def expandText (s : List Byte) : List Instr := s.map .data

/-- `STREAM ENC, "s"` and `STREAM DEC, "s"`. -/
def expandStream (m : Mode) (s : List Byte) : List Instr := .start m :: (expandText s ++ [.endStream])

/-- `CONFIGURE "a", "k", p`. -/
def expandConfigure (a k : List Byte) (p : Byte) : List Instr :=
  .clear :: (expandAlphabet a ++ (expandKey k ++ [.setpad p, .build]))

/-- The mnemonics (R63) and pseudo-instructions (R64). -/
inductive AsmMnemonic where
  | nop | clear | apush | kpush | setpad | build | start | data | endStream | abort | encb | decb | pack | unpack | errack
  | alphabet | key | text | stream | configure
deriving DecidableEq, Repr

/-- How each mnemonic is written (R63, R64). -/
def asmNames : List (List Char × AsmMnemonic) :=
  [(['N', 'O', 'P'], .nop), (['C', 'L', 'E', 'A', 'R'], .clear), (['A', 'P', 'U', 'S', 'H'], .apush),
    (['K', 'P', 'U', 'S', 'H'], .kpush), (['S', 'E', 'T', 'P', 'A', 'D'], .setpad),
    (['B', 'U', 'I', 'L', 'D'], .build), (['S', 'T', 'A', 'R', 'T'], .start), (['D', 'A', 'T', 'A'], .data),
    (['E', 'N', 'D'], .endStream), (['A', 'B', 'O', 'R', 'T'], .abort), (['E', 'N', 'C', 'B'], .encb),
    (['D', 'E', 'C', 'B'], .decb), (['P', 'A', 'C', 'K'], .pack), (['U', 'N', 'P', 'A', 'C', 'K'], .unpack),
    (['E', 'R', 'R', 'A', 'C', 'K'], .errack), (['A', 'L', 'P', 'H', 'A', 'B', 'E', 'T'], .alphabet),
    (['K', 'E', 'Y'], .key), (['T', 'E', 'X', 'T'], .text), (['S', 'T', 'R', 'E', 'A', 'M'], .stream),
    (['C', 'O', 'N', 'F', 'I', 'G', 'U', 'R', 'E'], .configure)]

/-- The mnemonic a name writes; none when it is not listed (R63). -/
def asmMnemonic (name : List Char) : Option AsmMnemonic := asmNames.lookup name

/-- A command with no operand. -/
def asmPlain (i : Instr) (operands : List AsmToken) : Option (List Instr) :=
  if operands = [] then some [i] else none

/-- A command with one byte operand. -/
def asmByte (mk : Byte → Instr) : List AsmToken → Option (List Instr)
  | [o] => (byteOperand o).map fun b => [mk b]
  | _ => none

/-- A command with two code operands. -/
def asmCodes (mk : Nat → Nat → Instr) : List AsmToken → Option (List Instr)
  | [.number c1, .number c2] => fitting (mk c1 c2)
  | _ => none

/-- UNPACK's one code operand. -/
def asmUnpack : List AsmToken → Option (List Instr)
  | [.number c] => fitting (.unpack c)
  | _ => none

/-- START's mode operand. -/
def asmStart : List AsmToken → Option (List Instr)
  | [o] => (modeOperand o).map fun m => [.start m]
  | _ => none

/-- A pseudo-instruction with one string operand (R64). -/
def asmText (expand : List Byte → List Instr) : List AsmToken → Option (List Instr)
  | [.text s] => some (expand s)
  | _ => none

/-- STREAM's mode and string (R64). -/
def asmStream : List AsmToken → Option (List Instr)
  | [o, .text s] => (modeOperand o).map fun m => expandStream m s
  | _ => none

/-- CONFIGURE's alphabet, key and pad (R64). -/
def asmConfigure : List AsmToken → Option (List Instr)
  | [.text a, .text k, o] => (byteOperand o).map fun p => expandConfigure a k p
  | _ => none

/-- The commands of a mnemonic with its operands: the forms of R63 and R64, and no other. -/
def asmCommands (m : AsmMnemonic) (operands : List AsmToken) : Option (List Instr) :=
  match m with
  | .nop => asmPlain .nop operands
  | .clear => asmPlain .clear operands
  | .apush => asmByte .apush operands
  | .kpush => asmByte .kpush operands
  | .setpad => asmByte .setpad operands
  | .build => asmPlain .build operands
  | .start => asmStart operands
  | .data => asmByte .data operands
  | .endStream => asmPlain .endStream operands
  | .abort => asmPlain .abort operands
  | .encb => asmCodes .encb operands
  | .decb => asmCodes .decb operands
  | .pack => asmByte .pack operands
  | .unpack => asmUnpack operands
  | .errack => asmPlain .errack operands
  | .alphabet => asmText expandAlphabet operands
  | .key => asmText expandKey operands
  | .text => asmText expandText operands
  | .stream => asmStream operands
  | .configure => asmConfigure operands

/-- One line: a mnemonic and its operands, or nothing (R63). None where the assembler refuses the line. -/
def assembleLine (line : List Char) : Option (List Instr) := do
  let ts ← asmTokens (line.length + 1) line
  match ts with
  | [] => some []
  | .name m :: ts => do
    let os ← asmOperands ts
    let m ← asmMnemonic m
    asmCommands m os
  | _ => none

/-- The command words of a program, a line each (R63, R64). -/
def assembleWords (lines : List (List Char)) : Option (List Word) :=
  (lines.mapM assembleLine).map fun is => is.flatten.map encode

end Sys2Proof.Machine
end

