-- ==== Sys2Proof/Machine/Registers.lean ====
section
/-! DEFINITION. Machine/Registers.lean: the read-only register port (10_state R23 to R34, 20_memory R44, R45). -/

namespace Sys2Proof.Machine

/-- A flag as one bit. -/
def flagBit (f : Bool) : BitVec 1 := if f then 1#1 else 0#1

/-- ID, the constant "FSQ1" (R24). -/
def regId : Word := 0x46535131

/-- PARAMS: [7:0] KMAX, [15:8] NMAX, [31:16] CARRY_DEPTH (R25). -/
def regParams (s : State) : Word :=
  BitVec.ofNat 16 s.params.carryDepth ++ (BitVec.ofNat 8 (nmaxOf s.params) ++ BitVec.ofNat 8 s.params.kmax)

/-- STATUS: [1:0] STATE, [2] TV, [3] BUSY, [4] MODE, [5] PEND (R26). -/
def regStatus (s : State) : Word :=
  0#26 ++ (flagBit s.pend.isSome ++ (s.mode.bit ++ (flagBit s.busy ++ (flagBit s.tv ++
    BitVec.ofNat 2 s.procState.number))))

/-- ERROR: [7:0] ERR_CODE, [15:8] ERR_SUB, [31:16] ERR_ARG (R27). -/
def regError (s : State) : Word := s.errArg ++ (s.errSub ++ s.errCode)

/-- CONFIG: [7:0] ALEN, [15:8] KLEN, [23:16] PAD, [27:24] K, [31:28] B; K and B read 0 when TV = 0 (R29). -/
def regConfig (s : State) : Word :=
  BitVec.ofNat 4 (if s.tv then s.b else 0) ++ (BitVec.ofNat 4 (if s.tv then s.k else 0) ++
    (s.pad ++ (BitVec.ofNat 8 s.klen ++ BitVec.ofNat 8 s.alen)))

/-- PENDING: [7:0] the pending code or 0, [8] PEND (R31). -/
def regPending (s : State) : Word := 0#23 ++ (flagBit s.pend.isSome ++ codeByte (s.pend.getD 0))

/-- CARRY_LEN: [15:0] len(CARRY) (R32). -/
def regCarryLen (s : State) : Word := 0#16 ++ BitVec.ofNat 16 s.carry.length

/-- The word a read of the register port returns (R23). An address not listed reads 0. -/
def readRegister (s : State) (addr : BitVec 8) : Word :=
  match addr.toNat with
  | 0x00 => regId
  | 0x01 => regParams s
  | 0x02 => regStatus s
  | 0x03 => regError s
  | 0x04 => s.errCmd
  | 0x05 => regConfig s
  | 0x06 => s.result
  | 0x07 => regPending s
  | 0x08 => regCarryLen s
  | 0x09 => s.inCount
  | 0x0A => s.outCount
  | 0x0B => s.cmdDone
  | _ => 0

/-- The word a read returns that overlaps the command about to run in `s` (R45): every register as before that command,
except STATUS.BUSY, which reads 1. -/
def readRegisterDuring (s : State) (addr : BitVec 8) : Word := readRegister (beginCycle s) addr

end Sys2Proof.Machine
end

