-- ==== Sys2Proof/Machine/HostPort.lean ====
section
/-! DEFINITION. Machine/HostPort.lean: what the host agent does to the block between two commands (00_scope R4): it
writes command words, takes tokens, reads registers and may assert reset. -/

namespace Sys2Proof.Machine

/-- The host writes one word to the command channel (R55): after the words it wrote before (R16). -/
def hostWrite (w : Word) (s : State) : State := { s with cmds := s.cmds ++ [w] }

/-- The host takes the token at the front of OUT (R53); none when OUT is empty. -/
def hostTake (s : State) : Option (Token × State) :=
  match s.out with
  | [] => none
  | t :: ts => some (t, { s with out := ts })

/-- Hardware reset (R131), between two commands (log entry 10): every element of the state record takes its reset value,
and the tokens not yet taken are lost. So are the words the block has not taken: CMD_DONE counts from here, and every word
it counts must be one written since (R49, log entry 2). The build-time parameters stay. -/
def hardwareReset (s : State) : State := State.resetWith s.params

/-- One act of the model's two agents (R4). -/
inductive Event where
  | write (w : Word)
  | take
  | read (addr : BitVec 8)
  | reset
  | command
deriving DecidableEq, Repr

/-- The state after one act of an agent, where it has one. A register read has no side effect (R44); a take on an empty
channel waits and changes nothing. -/
def event (e : Event) (s : State) : Host.Outcome State Fault Refusal :=
  match e with
  | .write w => .next (hostWrite w s)
  | .take => .next (match hostTake s with | none => s | some (_, t) => t)
  | .read _ => .next s
  | .reset => .next (hardwareReset s)
  | .command => step s

end Sys2Proof.Machine
end

