-- ==== Sys2Proof/Safety.lean ====
section
/-! DEFINITION. Safety.lean: the terms the statements use: the invariants of 10_state R18, what no observation can depend
on (R17), the state an error leaves (R121), and the whole-stream function (43_stream_processor R100). -/

namespace Sys2Proof.Machine

/-! ## The invariants of R18 -/

/-- R18 item 1: STATE = STREAM implies TV = 1. -/
abbrev StreamHasTables (s : State) : Prop := s.procState = .stream → s.tv = true

/-- R18 item 2: len(CARRY) > 0 implies PEND is not none. -/
abbrev CarryNeedsPending (s : State) : Prop := 0 < s.carry.length → s.pend ≠ none

/-- R18 item 3: STATE is not STREAM implies PEND = none and CARRY = []. -/
abbrev PendingOnlyInStream (s : State) : Prop := s.procState ≠ .stream → s.pend = none ∧ s.carry = []

/-- R18 item 4: ERR_CODE is not 0 exactly when STATE = ERROR. -/
abbrev ErrorIffErrorState (s : State) : Prop := s.errCode ≠ 0 ↔ s.procState = .error

/-- R18 item 5: what TV = 1 implies. That CODEC, ENC and DEC hold exactly what R76 computes from the current ALPHA, KEY
and PAD is said as: running `build` again would succeed and change nothing. -/
abbrev TablesMatchConfiguration (s : State) : Prop :=
  s.tv = true →
    1 ≤ s.alen ∧ s.alen = s.k * s.k ∧ s.b = clog2 s.alen ∧ s.klen = 2 * s.alen ∧
      (packByte s.pad s).valid = true ∧ build s = .done s

/-- R18 item 6: TV = 0 implies K = 0 and B = 0. -/
abbrev NoTablesNoSizes (s : State) : Prop := s.tv = false → s.k = 0 ∧ s.b = 0

/-- R18 item 7: the bounds. -/
abbrev WithinCapacity (s : State) : Prop :=
  s.alen ≤ nmaxOf s.params ∧ s.klen ≤ 2 * nmaxOf s.params ∧ s.carry.length ≤ s.params.carryDepth

/-- R18 item 8: PEND = some(c) implies c < N. -/
abbrev PendingInRange (s : State) : Prop := s.pend.all (fun c => decide (c < s.alen)) = true

/-- Every memory is in its canonical form, within its size (R37). -/
abbrev MemoriesCanonical (s : State) : Prop :=
  Memory.wf unlistedByte (nmaxOf s.params) s.alpha = true ∧
    Memory.wf unlistedByte (2 * nmaxOf s.params) s.key = true ∧
      Memory.wf unknownCode 256 s.codec = true ∧
        Memory.wf sentinel (tdepthOf s.params) s.enc = true ∧ Memory.wf sentinel (tdepthOf s.params) s.dec = true

/-- The pairs of ERR_CODE and ERR_SUB of R109, less INTERNAL, which cannot happen (R117). -/
def possibleErrors : List (BitVec 8 × BitVec 8) :=
  [(0, 0), (1, 1), (1, 2), (2, 0), (2, 4), (2, 5), (3, 1), (3, 2), (3, 3), (3, 4), (3, 5), (4, 1), (4, 2), (4, 3), (4, 4),
    (5, 1), (6, 1), (6, 2), (7, 0)]

/-- The error registers hold a row of R109, never INTERNAL; outside ERROR state they are 0 (R27, R28). -/
abbrev ErrorRecordPossible (s : State) : Prop :=
  (s.errCode, s.errSub) ∈ possibleErrors ∧ (s.errCode = 0 → s.errArg = 0 ∧ s.errCmd = 0)

/-- OUT holds data tokens and the two markers only (R62). -/
abbrev OutTokensLegal (s : State) : Prop := ∀ t ∈ s.out, t.toNat ≤ 0x101

/-- The invariants of R18, with the parameters' legal ranges (R5, R7), BUSY = 0 between commands (R20), the memories'
canonical form, and the values that are never produced (R62, R109, R117). -/
abbrev Inv (s : State) : Prop :=
  s.params.Legal ∧ s.busy = false ∧ StreamHasTables s ∧ CarryNeedsPending s ∧ PendingOnlyInStream s ∧
    ErrorIffErrorState s ∧ TablesMatchConfiguration s ∧ NoTablesNoSizes s ∧ WithinCapacity s ∧ PendingInRange s ∧
      MemoriesCanonical s ∧ ErrorRecordPossible s ∧ OutTokensLegal s

/-! ## Runs of both agents (R4, R49) -/

/-- The acts of the two agents in order, stopping at the first that gives no next state. -/
def eventAll : List Event → State → Host.Outcome State Fault Refusal
  | [], s => .next s
  | e :: es, s =>
    match event e s with
    | .next t => eventAll es t
    | .fault f => .fault f
    | .refused r => .refused r

/-- The number of command words written since the last hardware reset of a run, after `n` written before it (R49). -/
def writtenSinceReset : List Event → Nat → Nat
  | [], n => n
  | .write _ :: es, n => writtenSinceReset es (n + 1)
  | .reset :: es, _ => writtenSinceReset es 0
  | .take :: es, n | .read _ :: es, n | .command :: es, n => writtenSinceReset es n

/-! ## The assembler's language (R63, R64) -/

/-- The mnemonics and pseudo-instructions that an assembler accepts (R63, R64). -/
def listedMnemonics : List (List Char) :=
  [['N', 'O', 'P'], ['C', 'L', 'E', 'A', 'R'], ['A', 'P', 'U', 'S', 'H'], ['K', 'P', 'U', 'S', 'H'],
    ['S', 'E', 'T', 'P', 'A', 'D'], ['B', 'U', 'I', 'L', 'D'], ['S', 'T', 'A', 'R', 'T'], ['D', 'A', 'T', 'A'],
    ['E', 'N', 'D'], ['A', 'B', 'O', 'R', 'T'], ['E', 'N', 'C', 'B'], ['D', 'E', 'C', 'B'], ['P', 'A', 'C', 'K'],
    ['U', 'N', 'P', 'A', 'C', 'K'], ['E', 'R', 'R', 'A', 'C', 'K'], ['A', 'L', 'P', 'H', 'A', 'B', 'E', 'T'],
    ['K', 'E', 'Y'], ['T', 'E', 'X', 'T'], ['S', 'T', 'R', 'E', 'A', 'M'],
    ['C', 'O', 'N', 'F', 'I', 'G', 'U', 'R', 'E']]

/-- An operand token writes a byte: a literal, or a number that fits a byte (R63). -/
def WritesByte (o : AsmToken) (b : Byte) : Prop := o = .byte b ∨ ∃ n < 256, o = .number n ∧ b = BitVec.ofNat 8 n

/-- The mode names of START and STREAM (R63, R64). -/
def modeToken : Mode → AsmToken
  | .enc => .name ['E', 'N', 'C']
  | .dec => .name ['D', 'E', 'C']

/-- `AsmForm m ops is`: mnemonic `m` with operands `ops` is a form of R63 or R64, and `is` are its commands. -/
inductive AsmForm : List Char → List AsmToken → List Instr → Prop where
  | nop : AsmForm ['N', 'O', 'P'] [] [.nop]
  | clear : AsmForm ['C', 'L', 'E', 'A', 'R'] [] [.clear]
  | apush {o : AsmToken} {b : Byte} : WritesByte o b → AsmForm ['A', 'P', 'U', 'S', 'H'] [o] [.apush b]
  | kpush {o : AsmToken} {b : Byte} : WritesByte o b → AsmForm ['K', 'P', 'U', 'S', 'H'] [o] [.kpush b]
  | setpad {o : AsmToken} {b : Byte} : WritesByte o b → AsmForm ['S', 'E', 'T', 'P', 'A', 'D'] [o] [.setpad b]
  | build : AsmForm ['B', 'U', 'I', 'L', 'D'] [] [.build]
  | start (m : Mode) : AsmForm ['S', 'T', 'A', 'R', 'T'] [modeToken m] [.start m]
  | data {o : AsmToken} {b : Byte} : WritesByte o b → AsmForm ['D', 'A', 'T', 'A'] [o] [.data b]
  | endStream : AsmForm ['E', 'N', 'D'] [] [.endStream]
  | abort : AsmForm ['A', 'B', 'O', 'R', 'T'] [] [.abort]
  | encb {c1 c2 : Nat} : c1 < 256 → c2 < 256 → AsmForm ['E', 'N', 'C', 'B'] [.number c1, .number c2] [.encb c1 c2]
  | decb {c1 c2 : Nat} : c1 < 256 → c2 < 256 → AsmForm ['D', 'E', 'C', 'B'] [.number c1, .number c2] [.decb c1 c2]
  | pack {o : AsmToken} {b : Byte} : WritesByte o b → AsmForm ['P', 'A', 'C', 'K'] [o] [.pack b]
  | unpack {c : Nat} : c < 256 → AsmForm ['U', 'N', 'P', 'A', 'C', 'K'] [.number c] [.unpack c]
  | errack : AsmForm ['E', 'R', 'R', 'A', 'C', 'K'] [] [.errack]
  | alphabet (s : List Byte) : AsmForm ['A', 'L', 'P', 'H', 'A', 'B', 'E', 'T'] [.text s] (s.map .apush)
  | key (s : List Byte) : AsmForm ['K', 'E', 'Y'] [.text s] (s.map .kpush)
  | text (s : List Byte) : AsmForm ['T', 'E', 'X', 'T'] [.text s] (s.map .data)
  | stream (m : Mode) (s : List Byte) :
    AsmForm ['S', 'T', 'R', 'E', 'A', 'M'] [modeToken m, .text s] (.start m :: (s.map .data ++ [.endStream]))
  | configure (a k : List Byte) {o : AsmToken} {p : Byte} : WritesByte o p →
    AsmForm ['C', 'O', 'N', 'F', 'I', 'G', 'U', 'R', 'E'] [.text a, .text k, o]
      (.clear :: (a.map .apush ++ (k.map .kpush ++ [.setpad p, .build])))

/-! ## What no observation can depend on (R17, R37) -/

/-- The state with every unobservable memory entry forgotten: ALPHA at or above ALEN, KEY at or above KLEN, and CODEC,
ENC and DEC while TV = 0. -/
def observablePart (s : State) : State :=
  { s with
    alpha := s.alpha.filter (fun e => decide (e.1 < s.alen)),
    key := s.key.filter (fun e => decide (e.1 < s.klen)),
    codec := if s.tv then s.codec else [],
    enc := if s.tv then s.enc else [],
    dec := if s.tv then s.dec else [] }

/-! ## The states that a counted word and an error leave (R104, R121) -/

/-- `s` after a word that did nothing but be counted (R104): CMD_DONE raised by 1, BUSY 0. -/
def counted (s : State) : State := { s with cmdDone := s.cmdDone + 1, busy := false }

/-- `s` after a word that raised E(sub, arg) and did nothing else: the open stream aborted, the error recorded, ERROR
state, and the word counted. -/
def erred (s : State) (code sub arg : Nat) (w : Word) : State :=
  { s with
    out := if s.procState = .stream then s.out ++ [0x101] else s.out,
    pend := if s.procState = .stream then none else s.pend,
    carry := if s.procState = .stream then [] else s.carry,
    errCode := BitVec.ofNat 8 code, errSub := BitVec.ofNat 8 sub, errArg := BitVec.ofNat 16 arg, errCmd := w,
    procState := .error, cmdDone := s.cmdDone + 1, busy := false }

/-! ## What BUILD accepts (R77 to R79, R85) -/

/-- The alphabet passes R77: N = k*k >= 1 symbols, all representable, none twice, within ALPHA. -/
abbrev LegalAlphabet (s : State) (k : Nat) : Prop :=
  1 ≤ s.alen ∧ s.alen = k * k ∧ s.alen ≤ nmaxOf s.params ∧ (∀ i < s.alen, (symbolAt s i).toNat < 0x80) ∧
    ∀ i < s.alen, ∀ j < s.alen, symbolAt s i = symbolAt s j → i = j

/-- PAD is an alphabet symbol (R78). -/
abbrev PadInAlphabet (s : State) : Prop := ∃ p < s.alen, symbolAt s p = s.pad

/-- CODEC of `t` holds the alphabet of `s` as R38 says: each symbol's code, and the unknown code for every other byte. -/
abbrev CodecHoldsAlphabet (s t : State) : Prop :=
  (∀ i < s.alen, packByte (symbolAt s i) t = { valid := true, code := i }) ∧
    ∀ v, (∀ i < s.alen, symbolAt s i ≠ v) → packByte v t = { valid := false, code := 0 }

/-- The key is 2N alphabet symbols (R79). -/
abbrev KeyFromAlphabet (s : State) : Prop :=
  s.klen = 2 * s.alen ∧ ∀ i < 2 * s.alen, ∃ j < s.alen, symbolAt s j = keyAt s i

/-- Neither half of the key holds a symbol twice, so that, drawn from the alphabet, each is a permutation of it (R85). -/
abbrev HalvesPermutations (s : State) : Prop :=
  (∀ i < s.alen, ∀ j < s.alen, keyAt s i = keyAt s j → i = j) ∧
    ∀ i < s.alen, ∀ j < s.alen, keyAt s (s.alen + i) = keyAt s (s.alen + j) → i = j

/-- Two valid ENC indices below and at `a` hold one value: `a` breaks the bijection (R82). -/
def collidesAt (enc : Memory TableEntry) (a : Nat) : Prop :=
  (Memory.read sentinel enc a).valid = true ∧
    ∃ i < a, (Memory.read sentinel enc i).valid = true ∧
      (Memory.read sentinel enc i).value = (Memory.read sentinel enc a).value

/-! ## The codec, the squares and the tables as functions (R38, R39, R41, R86) -/

/-- A byte is an alphabet member. -/
def isMember (s : State) (v : Byte) : Bool := (packByte v s).valid

/-- KA[i] = pack(KEY[i]).code; KB[i] is KA[N+i] (R86). -/
def keyCode (s : State) (i : Nat) : Nat := (packByte (keyAt s i) s).code

/-- A table index is valid when both halves of `unpack2(v)` are below N (R41). -/
def validIndex (s : State) (v : Nat) : Prop := (unpack2 s.b v).1 < s.alen ∧ (unpack2 s.b v).2 < s.alen

/-- enc(p1, p2) of R86: KeyA at the first symbol's row and the second's column, KeyB at the second's row and the
first's column. -/
def encClosed (s : State) (p1 p2 : Nat) : Nat × Nat :=
  (keyCode s (p1 / s.k * s.k + p2 % s.k), keyCode s (s.alen + (p2 / s.k * s.k + p1 % s.k)))

/-- `(o1, o2)` is what the engine makes of `(c1, c2)` in direction `m`, by the closed form of R86. -/
def transforms (s : State) (m : Mode) (c1 c2 o1 o2 : Nat) : Prop :=
  o1 < s.alen ∧ o2 < s.alen ∧
    match m with
    | .enc => encClosed s c1 c2 = (o1, o2)
    | .dec => encClosed s o1 o2 = (c1, c2)

/-! ## Whole streams (R100) -/

/-- Run commands in order, stopping at the first that gives no next state. -/
def execAll : List Instr → State → Host.Outcome State Fault Refusal
  | [], s => .next s
  | i :: is, s =>
    match exec i s with
    | .next t => execAll is t
    | .fault f => .fault f
    | .refused r => .refused r

/-- The commands of one stream: START m, a DATA per byte, END. -/
def streamCommands (m : Mode) (bytes : List Byte) : List Instr := .start m :: (bytes.map .data ++ [.endStream])

/-- s_0, …, s_{n-1}, and s_n = PAD when the number of alphabet bytes is odd (R100). -/
def paddedInput (s : State) (bytes : List Byte) : List Byte :=
  if bytes.countP (isMember s) % 2 = 1 then bytes ++ [s.pad] else bytes

/-- The indices i_0 < i_1 < … of the alphabet bytes of a sequence (R100). -/
def memberIndices (s : State) (bytes : List Byte) : List Nat :=
  (List.range bytes.length).filter fun i => isMember s (bytes.getD i 0)

/-- No carry overflows: at most CARRY_DEPTH excluded bytes stand between two alphabet bytes that pair (R100). -/
abbrev CarryFits (s : State) (bytes : List Byte) : Prop :=
  ∀ j < (memberIndices s (paddedInput s bytes)).length / 2,
    (memberIndices s (paddedInput s bytes)).getD (2 * j + 1) 0 ≤
      (memberIndices s (paddedInput s bytes)).getD (2 * j) 0 + 1 + s.params.carryDepth

/-- The data bytes `o` that the stream of R100 emits for an input, in a direction. -/
def StreamOutput (s : State) (m : Mode) (bytes o : List Byte) : Prop :=
  o.length = (paddedInput s bytes).length ∧
    (∀ i < bytes.length, isMember s (bytes.getD i 0) = false → o.getD i 0 = bytes.getD i 0) ∧
      ∀ j < (memberIndices s (paddedInput s bytes)).length / 2, ∃ i₀ i₁ x y,
        i₀ = (memberIndices s (paddedInput s bytes)).getD (2 * j) 0 ∧
          i₁ = (memberIndices s (paddedInput s bytes)).getD (2 * j + 1) 0 ∧
            lookup m (packByte ((paddedInput s bytes).getD i₀ 0) s).code
                (packByte ((paddedInput s bytes).getD i₁ 0) s).code s = .ok (x, y) ∧
              o.getD i₀ 0 = symbolAt s x ∧ o.getD i₁ 0 = symbolAt s y

/-- The other direction. -/
def opposite : Mode → Mode
  | .enc => .dec
  | .dec => .enc

/-- A marker token: bit [8] = 1 (R62). -/
def isMarker (t : Token) : Bool := decide (0x100 ≤ t.toNat)

end Sys2Proof.Machine
end

