-- ==== Sys2Proof/Certificates/Slice0/Obligations.lean ====
section
/-! DEFINITION. Certificates/Slice0/Obligations.lean: the statements for the provers. Each docstring names the rule of
spec/ it formalises. -/

open Sys2Proof Sys2Proof.Machine

/-! ## Encoding (30_encoding) -/

/-- Decoding the word of a well-formed command gives the command back, for every command and every operand value its
encoding admits (R56 to R59). -/
def Obligations.DecodeUndoesEncode : Prop := ∀ i : Instr, WellFormed i → decode (encode i) = .ok i

/-- A word that decodes is the encoding of what it decodes to, and of no other well-formed command (R56 to R59). -/
def Obligations.EncodeUndoesDecode : Prop :=
  ∀ (w : Word) (i : Instr), decode w = .ok i →
    WellFormed i ∧ encode i = w ∧ ∀ j, WellFormed j → encode j = w → j = i

/-- A word is command X exactly when `(w & mask) == match` for X's row (R58); the fifteen rows are written out. -/
def Obligations.CommandExactlyWhenRowMatches : Prop :=
  ∀ w : Word,
    ((∃ i, decode w = .ok i ∧ i.opcode = .nop) ↔ w &&& 0xFFFFFFFF = 0x00000000) ∧
    ((∃ i, decode w = .ok i ∧ i.opcode = .clear) ↔ w &&& 0xFFFFFFFF = 0x10000000) ∧
    ((∃ i, decode w = .ok i ∧ i.opcode = .apush) ↔ w &&& 0xFFFFFF00 = 0x20000000) ∧
    ((∃ i, decode w = .ok i ∧ i.opcode = .kpush) ↔ w &&& 0xFFFFFF00 = 0x30000000) ∧
    ((∃ i, decode w = .ok i ∧ i.opcode = .setpad) ↔ w &&& 0xFFFFFF00 = 0x40000000) ∧
    ((∃ i, decode w = .ok i ∧ i.opcode = .build) ↔ w &&& 0xFFFFFFFF = 0x50000000) ∧
    ((∃ i, decode w = .ok i ∧ i.opcode = .start) ↔ w &&& 0xFFFFFFFE = 0x60000000) ∧
    ((∃ i, decode w = .ok i ∧ i.opcode = .data) ↔ w &&& 0xFFFFFF00 = 0x70000000) ∧
    ((∃ i, decode w = .ok i ∧ i.opcode = .endStream) ↔ w &&& 0xFFFFFFFF = 0x80000000) ∧
    ((∃ i, decode w = .ok i ∧ i.opcode = .abort) ↔ w &&& 0xFFFFFFFF = 0x90000000) ∧
    ((∃ i, decode w = .ok i ∧ i.opcode = .encb) ↔ w &&& 0xFFFF0000 = 0xA0000000) ∧
    ((∃ i, decode w = .ok i ∧ i.opcode = .decb) ↔ w &&& 0xFFFF0000 = 0xB0000000) ∧
    ((∃ i, decode w = .ok i ∧ i.opcode = .pack) ↔ w &&& 0xFFFFFF00 = 0xC0000000) ∧
    ((∃ i, decode w = .ok i ∧ i.opcode = .unpack) ↔ w &&& 0xFFFFFF00 = 0xD0000000) ∧
    ((∃ i, decode w = .ok i ∧ i.opcode = .errack) ↔ w &&& 0xFFFFFFFF = 0xE0000000)

/-- The operands of a decoded command are the word's fields, taken as is (R57). -/
def Obligations.OperandsAreTheWordsFields : Prop :=
  ∀ (w : Word) (i : Instr), decode w = .ok i →
    match i with
    | .apush v | .kpush v | .setpad v | .data v | .pack v => v = w.extractLsb' 0 8
    | .start m => m = if w.getLsbD 0 then .dec else .enc
    | .encb c1 c2 | .decb c1 c2 => c1 = (w.extractLsb' 8 8).toNat ∧ c2 = (w.extractLsb' 0 8).toNat
    | .unpack c => c = (w.extractLsb' 0 8).toNat
    | .nop | .clear | .build | .endStream | .abort | .errack => True

/-- The illegal words and their subcodes (R60): subcode 1 for OPC = 0xF; subcode 2 for OPC 0x0 to 0xE with a reserved
bit of its format set, the reserved bits being those of R56. -/
def Obligations.IllegalWordsAndSubcodes : Prop :=
  ∀ w : Word,
    (decode w = .error .reservedOpcode ↔ w.extractLsb' 28 4 = 0xF#4) ∧
    (decode w = .error .reservedBits ↔
      (w.extractLsb' 28 4 ∈ [0x0#4, 0x1#4, 0x5#4, 0x8#4, 0x9#4, 0xE#4] ∧ w.extractLsb' 0 28 ≠ 0) ∨
      (w.extractLsb' 28 4 ∈ [0x2#4, 0x3#4, 0x4#4, 0x7#4, 0xC#4, 0xD#4] ∧ w.extractLsb' 8 20 ≠ 0) ∨
      (w.extractLsb' 28 4 = 0x6#4 ∧ w.extractLsb' 1 27 ≠ 0) ∨
      (w.extractLsb' 28 4 ∈ [0xA#4, 0xB#4] ∧ w.extractLsb' 16 12 ≠ 0))

/-- A few words of the spec's programs decode to the commands its comments name (95_test_vectors P1, P6, K7). -/
def Obligations.SpecWordsDecodeAsListed : Prop :=
  decode 0x20000041 = .ok (.apush 0x41) ∧ decode 0x30000042 = .ok (.kpush 0x42) ∧
  decode 0x40000044 = .ok (.setpad 0x44) ∧ decode 0x50000000 = .ok .build ∧
  decode 0xA0000708 = .ok (.encb 7 8) ∧ decode 0xB0000002 = .ok (.decb 0 2) ∧
  decode 0x60000001 = .ok (.start .dec) ∧ decode 0x70000043 = .ok (.data 0x43) ∧
  decode 0xD0000003 = .ok (.unpack 3) ∧ decode 0xC0000061 = .ok (.pack 0x61) ∧
  decode 0x80000000 = .ok .endStream ∧ decode 0x60000002 = .error .reservedBits

/-- The assembler (R63, R64): a line whose tokens are a mnemonic and its operands assembles to the commands of its form,
expanded exactly, and to nothing when it is no form; a mnemonic not listed, a number that fits no field and a START operand
other than ENC and DEC are refused. The words of a program are the encodings of its lines' commands, all well-formed, so it
cannot produce an illegal word. The listed lines assemble as R63 and R64 write them; they fix the literals, the escapes,
the comment and the separators. How characters make tokens beyond that (spaces and tabs, none needed before a quote,
capitals only, either case of hexadecimal digits) is the model's choice (log entry 11). -/
def Obligations.AssemblerNeverProducesIllegalWord : Prop :=
  (∀ (lines : List (List Char)) (ws : List Word), assembleWords lines = some ws →
    (∃ is, lines.mapM assembleLine = some is ∧ ws = is.flatten.map encode ∧ ∀ i ∈ is.flatten, WellFormed i) ∧
    ∀ w ∈ ws, ∃ i, decode w = .ok i) ∧
  (∀ (line m : List Char) (ts ops : List AsmToken),
    asmTokens (line.length + 1) line = some (.name m :: ts) → asmOperands ts = some ops →
      (∀ is, assembleLine line = some is ↔ AsmForm m ops is) ∧
      (m ∉ listedMnemonics → assembleLine line = none) ∧
      (∀ n, .number n ∈ ops → 256 ≤ n → assembleLine line = none) ∧
      (∀ o, m = ['S', 'T', 'A', 'R', 'T'] → ops = [o] → o ≠ .name ['E', 'N', 'C'] → o ≠ .name ['D', 'E', 'C'] →
        assembleLine line = none)) ∧
  (assembleLine "APUSH 65".toList = some [.apush 0x41] ∧ assembleLine "KPUSH 0x41".toList = some [.kpush 0x41] ∧
    assembleLine "DATA 'A'".toList = some [.data 0x41] ∧ assembleLine "PACK ' '".toList = some [.pack 0x20] ∧
    assembleLine "SETPAD '\\n'".toList = some [.setpad 0x0A] ∧ assembleLine "DATA '\\x80'".toList = some [.data 0x80] ∧
    assembleLine "DATA '\\''".toList = some [.data 0x27] ∧ assembleLine "DATA '\\\\'".toList = some [.data 0x5C] ∧
    assembleLine "ENCB 0, 1 ; a comment".toList = some [.encb 0 1] ∧ assembleLine "START DEC".toList = some [.start .dec] ∧
    assembleLine "TEXT \"-\\\"\\\\\\n\\x81\"".toList = some [.data 0x2D, .data 0x22, .data 0x5C, .data 0x0A, .data 0x81] ∧
    assembleLine "CONFIGURE \"Z\", \"ZZ\", 'Z'".toList =
      some [.clear, .apush 0x5A, .kpush 0x5A, .kpush 0x5A, .setpad 0x5A, .build])

/-! ## The command cycle (44_control R104, R105; 60_exceptions) -/

/-- A step runs the decoded command: when the oldest word of the command channel decodes to `i`, the step is `exec i` on
the state without that word (R104). -/
def Obligations.StepRunsTheDecodedCommand : Prop :=
  ∀ (s : State) (w : Word) (ws : List Word) (i : Instr), s.cmds = w :: ws → decode w = .ok i →
    step s = exec i { s with cmds := ws }

/-- With no command word to take, the block holds its state (R130). -/
def Obligations.IdleBlockHoldsItsState : Prop := ∀ s : State, s.cmds = [] → step s = .next s

/-- Every word consumed raises CMD_DONE by exactly 1, whether it ran, raised or was discarded, takes exactly one word
from the channel, and leaves BUSY at 0 (R104, R20). -/
def Obligations.EveryWordIsCountedOnce : Prop :=
  ∀ (s t : State) (w : Word) (ws : List Word), s.cmds = w :: ws → step s = .next t →
    t.cmdDone = s.cmdDone + 1 ∧ t.cmds = ws ∧ t.busy = false ∧ t.params = s.params

/-- After k steps with at least k words waiting, CMD_DONE has risen by k modulo 2^32 and the k oldest words are
consumed (R34). After any acts of the two agents since a hardware reset, CMD_DONE and the words still waiting make up the
words written since the last reset, modulo 2^32; so when CMD_DONE is the number written, no word is waiting (R49). That
a reset empties the list of waiting words is the model's choice (log entry 2). -/
def Obligations.CmdDoneCountsConsumedWords : Prop :=
  (∀ (k : Nat) (s t : State), k ≤ s.cmds.length → core.run k s = .next t →
    t.cmdDone = s.cmdDone + BitVec.ofNat 32 k ∧ t.cmds = s.cmds.drop k) ∧
  ∀ (es : List Event) (s t : State), eventAll es (hardwareReset s) = .next t →
    t.cmdDone + BitVec.ofNat 32 t.cmds.length = BitVec.ofNat 32 (writtenSinceReset es 0) ∧
    (writtenSinceReset es 0 < 2 ^ 32 → t.cmdDone = BitVec.ofNat 32 (writtenSinceReset es 0) → t.cmds = [])

/-- The block takes words in the order the host wrote them (R16, R55): a word written to an empty channel is the next one
taken, and one written while another is waiting is taken after it, so writing it before or after that step gives the same
state. -/
def Obligations.WordsRunInTheOrderWritten : Prop :=
  ∀ (s : State) (w : Word),
    (s.cmds = [] → takeWord (hostWrite w s) = some (w, s)) ∧
    ∀ t, s.cmds ≠ [] → step s = .next t → step (hostWrite w s) = .next (hostWrite w t)

/-- Outside ERROR state an illegal word raises ILLEGAL_CMD: subcode 1 for OPC = 0xF, subcode 2 for OPC 0x0 to 0xE with a
reserved bit set; nothing else changes (R110, R121). -/
def Obligations.IllegalWordRaisesIllegalCmd : Prop :=
  ∀ (s : State) (w : Word) (ws : List Word), s.procState ≠ .error → s.cmds = w :: ws →
    (w.extractLsb' 28 4 = 0xF#4 → step s = .next { erred s 1 1 0 w with cmds := ws }) ∧
    (w.extractLsb' 28 4 ≠ 0xF#4 → (∀ i, decode w ≠ .ok i) → step s = .next { erred s 1 2 0 w with cmds := ws })

/-- In ERROR state every word other than CLEAR and ERRACK, legal or illegal, is discarded unchecked and raises only
CMD_DONE: the first error stays recorded (R123). -/
def Obligations.ErrorStateDiscardsWords : Prop :=
  ∀ (s : State) (w : Word) (ws : List Word), s.procState = .error → s.cmds = w :: ws →
    decode w ≠ .ok .clear → decode w ≠ .ok .errack → step s = .next { counted s with cmds := ws }

/-- BAD_STATE is raised exactly in the BAD_STATE cells of R105's table, with subcode `STATE | (TV << 2)`, and nothing
else changes (R105, R111). -/
def Obligations.BadStateExactlyInItsCells : Prop :=
  ∀ (i : Instr) (s : State), s.procState ≠ .error →
    (s.procState = .idle → s.tv = false →
      i.opcode ∈ [.start, .data, .endStream, .pack, .unpack, .encb, .decb] →
        exec i s = .next (erred s 2 0 0 (encode i))) ∧
    (s.procState = .idle → s.tv = true → i.opcode ∈ [.data, .endStream] →
        exec i s = .next (erred s 2 4 0 (encode i))) ∧
    (s.procState = .stream → s.tv = true → i.opcode ∈ [.apush, .kpush, .setpad, .build, .start] →
        exec i s = .next (erred s 2 5 0 (encode i))) ∧
    ∀ t, exec i s = .next t → s.errCode ≠ 2 → t.errCode = 2 →
      (s.procState = .idle ∧ s.tv = false ∧
        i.opcode ∈ [.start, .data, .endStream, .pack, .unpack, .encb, .decb]) ∨
      (s.procState = .idle ∧ s.tv = true ∧ i.opcode ∈ [.data, .endStream]) ∨
      (s.procState = .stream ∧ i.opcode ∈ [.apush, .kpush, .setpad, .build, .start])

/-- Errors are precise (R121): a command other than BUILD that raises has no effect other than error entry; a BUILD that
raises outside a stream also clears TV, K and B and may leave CODEC, ENC and DEC written. -/
def Obligations.ErrorsArePrecise : Prop :=
  ∀ (i : Instr) (s t : State), s.procState ≠ .error → exec i s = .next t → t.procState = .error →
    (¬(i = .build ∧ s.procState = .idle) → ∃ code sub arg, t = erred s code sub arg (encode i)) ∧
    (i = .build → s.procState = .idle → ∃ code sub arg,
      t = { erred s code sub arg (encode i) with
            tv := false, k := 0, b := 0, codec := t.codec, enc := t.enc, dec := t.dec })

/-! ## Control commands (44_control) -/

/-- NOP changes nothing but CMD_DONE, in any state (R106). -/
def Obligations.NopOnlyCounts : Prop := ∀ s : State, exec .nop s = .next (counted s)

/-- CLEAR, in any state, gives every element its CLEAR value: the configuration, the tables' validity, the stream, the
query result, the error and the stream counts are discarded, an open stream is ended by the ABORT marker, and the
memories, CMD_DONE (then + 1) and the tokens in OUT are kept (R107). -/
def Obligations.ClearDiscardsConfigurationAndStream : Prop :=
  ∀ s : State, exec .clear s = .next { s with
    out := if s.procState = .stream then s.out ++ [0x101] else s.out,
    procState := .idle, tv := false, mode := .enc, busy := false,
    alen := 0, klen := 0, pad := 0x20, k := 0, b := 0,
    pend := none, carry := [], result := 0,
    errCode := 0, errSub := 0, errArg := 0, errCmd := 0,
    inCount := 0, outCount := 0, cmdDone := s.cmdDone + 1 }

/-- ERRACK in ERROR state clears the error registers and returns to IDLE, keeping all else; elsewhere it has no effect
(R108). -/
def Obligations.ErrackLeavesErrorState : Prop :=
  ∀ s : State, exec .errack s = .next
    (if s.procState = .error then
      { counted s with errCode := 0, errSub := 0, errArg := 0, errCmd := 0, procState := .idle }
     else counted s)

/-! ## Loading the configuration (40_codec, 41_table_builder) -/

/-- APUSH (R71): in IDLE with room it appends the byte at index ALEN, raises ALEN and invalidates the tables; with ALPHA
full it raises INVALID_ALPHABET subcode 5; in STREAM it raises BAD_STATE. Every other ALPHA entry reads as before. -/
def Obligations.ApushAppendsSymbol : Prop :=
  ∀ (s : State) (v : Byte), Memory.wf unlistedByte (nmaxOf s.params) s.alpha = true →
    (s.procState = .idle → s.alen < nmaxOf s.params → ∃ m,
      exec (.apush v) s = .next { counted s with alpha := m, alen := s.alen + 1, tv := false, k := 0, b := 0 } ∧
        ∀ i, Memory.read unlistedByte m i = if i = s.alen then v else Memory.read unlistedByte s.alpha i) ∧
    (s.procState = .idle → s.alen = nmaxOf s.params →
      exec (.apush v) s = .next (erred s 3 5 s.alen (encode (.apush v)))) ∧
    (s.procState = .stream → s.tv = true → exec (.apush v) s = .next (erred s 2 5 0 (encode (.apush v))))

/-- KPUSH (R75): in IDLE with room it appends the byte at index KLEN, raises KLEN and invalidates the tables; with KEY
full it raises INVALID_KEY subcode 1; in STREAM it raises BAD_STATE. Every other KEY entry reads as before. -/
def Obligations.KpushAppendsSymbol : Prop :=
  ∀ (s : State) (v : Byte), Memory.wf unlistedByte (2 * nmaxOf s.params) s.key = true →
    (s.procState = .idle → s.klen < 2 * nmaxOf s.params → ∃ m,
      exec (.kpush v) s = .next { counted s with key := m, klen := s.klen + 1, tv := false, k := 0, b := 0 } ∧
        ∀ i, Memory.read unlistedByte m i = if i = s.klen then v else Memory.read unlistedByte s.key i) ∧
    (s.procState = .idle → s.klen = 2 * nmaxOf s.params →
      exec (.kpush v) s = .next (erred s 4 1 s.klen (encode (.kpush v)))) ∧
    (s.procState = .stream → s.tv = true → exec (.kpush v) s = .next (erred s 2 5 0 (encode (.kpush v))))

/-- SETPAD (R72): in IDLE it writes PAD and invalidates the tables; in STREAM it raises BAD_STATE. -/
def Obligations.SetpadWritesPad : Prop :=
  ∀ (s : State) (v : Byte),
    (s.procState = .idle →
      exec (.setpad v) s = .next { counted s with pad := v, tv := false, k := 0, b := 0 }) ∧
    (s.procState = .stream → s.tv = true → exec (.setpad v) s = .next (erred s 2 5 0 (encode (.setpad v))))

/-! ## BUILD (41_table_builder) -/

/-- BUILD in IDLE of a legal alphabet, a pad in it and a key of two permutations of it succeeds (R76, R83, R85): TV, K
and B are set, CODEC is as R38 says, ENC holds the closed form of R86 at the N^2 valid indices and the sentinel
elsewhere, DEC maps each of ENC's values back, and nothing else changes. -/
def Obligations.BuildOfLegalConfigurationSucceeds : Prop :=
  ∀ (s : State) (k : Nat), s.procState = .idle → LegalAlphabet s k → PadInAlphabet s → KeyFromAlphabet s →
    HalvesPermutations s → ∃ t, exec .build s = .next t ∧
      t = { counted s with
            codec := t.codec, enc := t.enc, dec := t.dec, tv := true, k := k, b := clog2 s.alen } ∧
      (∀ i < s.alen, packByte (symbolAt s i) t = { valid := true, code := i }) ∧
      (∀ v, (∀ i < s.alen, symbolAt s i ≠ v) → packByte v t = { valid := false, code := 0 }) ∧
      (∀ p1 < s.alen, ∀ p2 < s.alen, ∀ o1 o2, encClosed t p1 p2 = (o1, o2) →
        o1 < s.alen ∧ o2 < s.alen ∧
        Memory.read sentinel t.enc (p1 * 2 ^ t.b + p2) = { valid := true, value := o1 * 2 ^ t.b + o2 } ∧
        Memory.read sentinel t.dec (o1 * 2 ^ t.b + o2) = { valid := true, value := p1 * 2 ^ t.b + p2 }) ∧
      ∀ v, ¬validIndex t v →
        Memory.read sentinel t.enc v = { valid := false, value := 0 } ∧
        Memory.read sentinel t.dec v = { valid := false, value := 0 }

/-- BUILD's alphabet checks, in their order (R77): empty, not a square, the first symbol of 0x80 or more, the first
symbol that occurs at a lower index; each clears TV, K and B and writes nothing else but the error. -/
def Obligations.BuildChecksTheAlphabet : Prop :=
  ∀ s : State, s.procState = .idle →
    (s.alen = 0 →
      exec .build s = .next { erred s 3 1 0 0x50000000 with tv := false, k := 0, b := 0 }) ∧
    (s.alen ≠ 0 → (∀ k, k * k ≠ s.alen) →
      exec .build s = .next { erred s 3 2 s.alen 0x50000000 with tv := false, k := 0, b := 0 }) ∧
    (∀ k i, s.alen = k * k → s.alen ≤ nmaxOf s.params → i < s.alen → 0x80 ≤ (symbolAt s i).toNat →
      (∀ j < i, (symbolAt s j).toNat < 0x80) →
        exec .build s = .next { erred s 3 3 i 0x50000000 with tv := false, k := 0, b := 0 }) ∧
    (∀ k i, s.alen = k * k → s.alen ≤ nmaxOf s.params → i < s.alen →
      (∀ j < s.alen, (symbolAt s j).toNat < 0x80) → (∃ j < i, symbolAt s j = symbolAt s i) →
      (∀ a < i, ∀ j < a, symbolAt s j ≠ symbolAt s a) →
        exec .build s = .next { erred s 3 4 i 0x50000000 with tv := false, k := 0, b := 0 })

/-- BUILD's pad check and key checks, after a legal alphabet and in their order (R78, R79): PAD not an alphabet member,
key length not 2N, the first key symbol not in the alphabet; each also clears TV, K and B, and leaves CODEC
holding the alphabet as R38 says. -/
def Obligations.BuildChecksPadAndKey : Prop :=
  ∀ (s : State) (k : Nat), s.procState = .idle → LegalAlphabet s k →
    (¬PadInAlphabet s → ∃ t, exec .build s = .next t ∧
      t = { erred s 5 1 s.pad.toNat 0x50000000 with tv := false, k := 0, b := 0, codec := t.codec } ∧ CodecHoldsAlphabet s t) ∧
    (PadInAlphabet s → s.klen ≠ 2 * s.alen → ∃ t, exec .build s = .next t ∧
      t = { erred s 4 2 s.klen 0x50000000 with tv := false, k := 0, b := 0, codec := t.codec } ∧ CodecHoldsAlphabet s t) ∧
    (∀ i, PadInAlphabet s → s.klen = 2 * s.alen → i < 2 * s.alen → (∀ j < s.alen, symbolAt s j ≠ keyAt s i) →
      (∀ a < i, ∃ j < s.alen, symbolAt s j = keyAt s a) → ∃ t, exec .build s = .next t ∧
        t = { erred s 4 3 i 0x50000000 with tv := false, k := 0, b := 0, codec := t.codec } ∧ CodecHoldsAlphabet s t)

/-- BUILD's bijection check (R82, R85): when everything else passes and a half of the key holds a symbol twice, the
inversion raises INVALID_KEY subcode 4. ENC holds the closed form of R86 at the N^2 valid indices and the sentinel
elsewhere, and ARG is the smallest ENC index whose value an earlier index already produced. -/
def Obligations.BuildRefusesNonPermutationKey : Prop :=
  ∀ (s : State) (k : Nat), s.procState = .idle → LegalAlphabet s k → PadInAlphabet s → KeyFromAlphabet s →
    ¬HalvesPermutations s → ∃ t u a, exec .build s = .next t ∧
      t = { erred s 4 4 a 0x50000000 with
            tv := false, k := 0, b := 0, codec := t.codec, enc := t.enc, dec := t.dec } ∧
      u = { t with k := k, b := clog2 s.alen } ∧
      (∀ i < s.alen, packByte (symbolAt s i) u = { valid := true, code := i }) ∧
      (∀ p1 < s.alen, ∀ p2 < s.alen, ∀ o1 o2, encClosed u p1 p2 = (o1, o2) →
        o1 < s.alen ∧ o2 < s.alen ∧
        Memory.read sentinel t.enc (p1 * 2 ^ u.b + p2) = { valid := true, value := o1 * 2 ^ u.b + o2 }) ∧
      (∀ v, ¬validIndex u v → Memory.read sentinel t.enc v = { valid := false, value := 0 }) ∧
      collidesAt t.enc a ∧ ∀ j < a, ¬collidesAt t.enc j

/-! ## The built tables (40_codec R67, 41_table_builder R84, R86; 42_bigram_engine R89) -/

/-- While TV = 1, `pack` and `unpack` are inverse on the alphabet (R67). -/
def Obligations.PackAndUnpackAreInverse : Prop :=
  ∀ s : State, Inv s → s.tv = true →
    (∀ c < s.alen, ∃ v, unpackCode c s = .ok v ∧ packByte v s = { valid := true, code := c }) ∧
    ∀ v, (packByte v s).valid = true → unpackCode (packByte v s).code s = .ok v

/-- While TV = 1, ENC and DEC are inverse bijections of the valid indices, and every other entry is invalid (R84). -/
def Obligations.TablesAreInverseBijections : Prop :=
  ∀ s : State, Inv s → s.tv = true →
    (∀ v, validIndex s v →
      (Memory.read sentinel s.enc v).valid = true ∧ validIndex s (Memory.read sentinel s.enc v).value) ∧
    (∀ v, ¬validIndex s v → (Memory.read sentinel s.enc v).valid = false) ∧
    (∀ u, validIndex s u → ∃ v, (validIndex s v ∧ (Memory.read sentinel s.enc v).value = u) ∧
      ∀ w, validIndex s w → (Memory.read sentinel s.enc w).value = u → w = v) ∧
    (∀ v, validIndex s v →
      Memory.read sentinel s.dec (Memory.read sentinel s.enc v).value = { valid := true, value := v }) ∧
    (∀ u, validIndex s u → (Memory.read sentinel s.dec u).valid = true ∧
      (Memory.read sentinel s.enc (Memory.read sentinel s.dec u).value).value = u) ∧
    ∀ u, ¬validIndex s u → (Memory.read sentinel s.dec u).valid = false

/-- While TV = 1, the lookups of the two directions undo each other on all pairs of codes (R89). -/
def Obligations.LookupsUndoEachOther : Prop :=
  ∀ (s : State) (m : Mode) (c1 c2 : Nat), Inv s → s.tv = true → c1 < s.alen → c2 < s.alen →
    ∃ o1 o2, lookup m c1 c2 s = .ok (o1, o2) ∧ lookup (opposite m) o1 o2 s = .ok (c1, c2)

/-- While TV = 1, the tables hold the closed form (R86): ENC at two codes is `enc`, and DEC at two codes is the two
positions that the unique places of the codes in KeyA and KeyB give. -/
def Obligations.TablesHoldTheClosedForm : Prop :=
  ∀ s : State, Inv s → s.tv = true →
    (∀ p1 < s.alen, ∀ p2 < s.alen,
      unpack2 s.b (Memory.read sentinel s.enc (pack2 s.b p1 p2)).value = encClosed s p1 p2) ∧
    ∀ t1 < s.alen, ∀ t2 < s.alen, ∃ r1 < s.k, ∃ q1 < s.k, ∃ r2 < s.k, ∃ q2 < s.k,
      unpack2 s.b (Memory.read sentinel s.dec (pack2 s.b t1 t2)).value = (r1 * s.k + q1, r2 * s.k + q2) ∧
      keyCode s (r1 * s.k + q2) = t1 ∧ keyCode s (s.alen + (r2 * s.k + q1)) = t2 ∧
      ∀ y < s.k, ∀ x < s.k, (keyCode s (y * s.k + x) = t1 → y = r1 ∧ x = q2) ∧
        (keyCode s (s.alen + (y * s.k + x)) = t2 → y = r2 ∧ x = q1)

/-! ## Queries (40_codec R73, R74; 42_bigram_engine R90, R91) -/

/-- PACK (R73): with TV = 1, in IDLE or STREAM, RESULT is {1, 0x00, i} for the symbol with code i and 0 for a byte that
is no symbol, and nothing else changes; in IDLE with TV = 0 it raises BAD_STATE. -/
def Obligations.PackQueriesTheCodec : Prop :=
  ∀ (s : State) (v : Byte), Inv s →
    (s.procState ≠ .error → s.tv = true → ∀ i < s.alen, symbolAt s i = v →
      exec (.pack v) s = .next { counted s with result := BitVec.ofNat 32 (0x10000 + i) }) ∧
    (s.procState ≠ .error → s.tv = true → (∀ i < s.alen, symbolAt s i ≠ v) →
      exec (.pack v) s = .next { counted s with result := 0 }) ∧
    (s.procState = .idle → s.tv = false → exec (.pack v) s = .next (erred s 2 0 0 (encode (.pack v))))

/-- UNPACK (R74): with TV = 1, in IDLE or STREAM, RESULT is {1, 0x00, byte} for a code below N, and a code of N or more
raises BAD_CODE subcode 1; in IDLE with TV = 0 it raises BAD_STATE. -/
def Obligations.UnpackQueriesTheAlphabet : Prop :=
  ∀ (s : State) (c : Nat), s.alen ≤ nmaxOf s.params →
    (s.procState ≠ .error → s.tv = true → c < s.alen →
      exec (.unpack c) s = .next { counted s with result := BitVec.ofNat 32 (0x10000 + (symbolAt s c).toNat) }) ∧
    (s.procState ≠ .error → s.tv = true → s.alen ≤ c →
      exec (.unpack c) s = .next (erred s 6 1 c (encode (.unpack c)))) ∧
    (s.procState = .idle → s.tv = false → exec (.unpack c) s = .next (erred s 2 0 0 (encode (.unpack c))))

/-- ENCB (R90, R86): with TV = 1, in IDLE or STREAM and both codes below N, RESULT is {1, o1, o2} for the closed form
(o1, o2) of the four-square rule, and nothing else changes; C1 is checked before C2; in IDLE with TV = 0 it raises
BAD_STATE. -/
def Obligations.EncbComputesTheFourSquareRule : Prop :=
  ∀ (s : State) (c1 c2 : Nat), Inv s →
    (s.procState ≠ .error → s.tv = true → c1 < s.alen → c2 < s.alen →
      exec (.encb c1 c2) s = .next { counted s with
        result := BitVec.ofNat 32 (0x10000 + (encClosed s c1 c2).1 * 0x100 + (encClosed s c1 c2).2) }) ∧
    (s.procState ≠ .error → s.tv = true → s.alen ≤ c1 →
      exec (.encb c1 c2) s = .next (erred s 6 1 c1 (encode (.encb c1 c2)))) ∧
    (s.procState ≠ .error → s.tv = true → c1 < s.alen → s.alen ≤ c2 →
      exec (.encb c1 c2) s = .next (erred s 6 2 c2 (encode (.encb c1 c2)))) ∧
    (s.procState = .idle → s.tv = false → exec (.encb c1 c2) s = .next (erred s 2 0 0 (encode (.encb c1 c2))))

/-- DECB (R91, R86): with TV = 1, in IDLE or STREAM and both codes below N, RESULT is {1, p1, p2} for the one bigram
that the closed form takes to (c1, c2), and nothing else changes; C1 is checked before C2; in IDLE with TV = 0 it raises
BAD_STATE. -/
def Obligations.DecbInvertsTheFourSquareRule : Prop :=
  ∀ (s : State) (c1 c2 : Nat), Inv s →
    (s.procState ≠ .error → s.tv = true → c1 < s.alen → c2 < s.alen → ∃ p1 < s.alen, ∃ p2 < s.alen,
      encClosed s p1 p2 = (c1, c2) ∧
      (∀ q1 < s.alen, ∀ q2 < s.alen, encClosed s q1 q2 = (c1, c2) → q1 = p1 ∧ q2 = p2) ∧
      exec (.decb c1 c2) s = .next { counted s with result := BitVec.ofNat 32 (0x10000 + p1 * 0x100 + p2) }) ∧
    (s.procState ≠ .error → s.tv = true → s.alen ≤ c1 →
      exec (.decb c1 c2) s = .next (erred s 6 1 c1 (encode (.decb c1 c2)))) ∧
    (s.procState ≠ .error → s.tv = true → c1 < s.alen → s.alen ≤ c2 →
      exec (.decb c1 c2) s = .next (erred s 6 2 c2 (encode (.decb c1 c2)))) ∧
    (s.procState = .idle → s.tv = false → exec (.decb c1 c2) s = .next (erred s 2 0 0 (encode (.decb c1 c2))))

/-! ## Streams (43_stream_processor) -/

/-- START (R93): in IDLE with TV = 1 it opens a stream: MODE written, PEND and CARRY emptied, both counts 0, nothing
emitted; in IDLE with TV = 0 and inside a stream it raises BAD_STATE. -/
def Obligations.StartOpensAStream : Prop :=
  ∀ (s : State) (m : Mode),
    (s.procState = .idle → s.tv = true →
      exec (.start m) s = .next { counted s with
        mode := m, pend := none, carry := [], inCount := 0, outCount := 0, procState := .stream }) ∧
    (s.procState = .idle → s.tv = false → exec (.start m) s = .next (erred s 2 0 0 (encode (.start m)))) ∧
    (s.procState = .stream → s.tv = true → exec (.start m) s = .next (erred s 2 5 0 (encode (.start m))))

/-- DATA of an alphabet byte (R95, R92): with nothing pending its code becomes pending; with c1 pending the pair is
transformed, by the closed form in the stream's direction, and the first output byte, the whole carry in order and the
second output byte are emitted. IN_COUNT is raised by 1 and nothing else changes. -/
def Obligations.DataOfAlphabetByte : Prop :=
  ∀ (s : State) (c : Nat), Inv s → s.procState = .stream → c < s.alen →
    (s.pend = none → exec (.data (symbolAt s c)) s = .next { counted s with
      pend := some c, inCount := s.inCount + 1 }) ∧
    ∀ c1, s.pend = some c1 → ∃ o1 o2, transforms s s.mode c1 c o1 o2 ∧
      exec (.data (symbolAt s c)) s = .next { counted s with
        out := s.out ++ ((symbolAt s o1).setWidth 9 :: (s.carry.map (·.setWidth 9) ++ [(symbolAt s o2).setWidth 9])),
        outCount := s.outCount + BitVec.ofNat 32 (s.carry.length + 2),
        pend := none, carry := [], inCount := s.inCount + 1 }

/-- DATA of an excluded byte with nothing pending: the byte is emitted at once (R96). -/
def Obligations.ExcludedByteEmittedAtOnce : Prop :=
  ∀ (s : State) (v : Byte), Inv s → s.procState = .stream → (∀ i < s.alen, symbolAt s i ≠ v) → s.pend = none →
    exec (.data v) s = .next { counted s with
      out := s.out ++ [v.setWidth 9], outCount := s.outCount + 1, inCount := s.inCount + 1 }

/-- DATA of an excluded byte while a code is pending (R97, R116): the byte is appended to CARRY, or, when CARRY already
holds CARRY_DEPTH bytes, CARRY_OVERFLOW is raised and nothing is appended. -/
def Obligations.ExcludedByteCarried : Prop :=
  ∀ (s : State) (v : Byte) (c : Nat), Inv s → s.procState = .stream → (∀ i < s.alen, symbolAt s i ≠ v) →
    s.pend = some c →
    (s.carry.length ≠ s.params.carryDepth → exec (.data v) s = .next { counted s with
      carry := s.carry ++ [v], inCount := s.inCount + 1 }) ∧
    (s.carry.length = s.params.carryDepth →
      exec (.data v) s = .next (erred s 7 0 s.params.carryDepth (encode (.data v))))

/-- END (R98): with nothing pending it emits EOS and returns to IDLE; with c1 pending it first transforms c1 with PAD's
code and emits the first output byte, the carry and the second output byte. In IDLE it raises BAD_STATE. -/
def Obligations.EndPadsAndClosesTheStream : Prop :=
  ∀ s : State, Inv s →
    (s.procState = .stream → s.pend = none →
      exec .endStream s = .next { counted s with out := s.out ++ [0x100], procState := .idle }) ∧
    (∀ c1, s.procState = .stream → s.pend = some c1 → ∃ p o1 o2, p < s.alen ∧ symbolAt s p = s.pad ∧
      transforms s s.mode c1 p o1 o2 ∧
      exec .endStream s = .next { counted s with
        out := s.out ++
          ((symbolAt s o1).setWidth 9 :: (s.carry.map (·.setWidth 9) ++ [(symbolAt s o2).setWidth 9, 0x100])),
        outCount := s.outCount + BitVec.ofNat 32 (s.carry.length + 2),
        pend := none, carry := [], procState := .idle }) ∧
    (s.procState = .idle → s.tv = false → exec .endStream s = .next (erred s 2 0 0 0x80000000)) ∧
    (s.procState = .idle → s.tv = true → exec .endStream s = .next (erred s 2 4 0 0x80000000))

/-- ABORT (R99): in STREAM it emits the ABORT marker, discards the pending code and the carry and returns to IDLE,
recording no error and keeping the counts; elsewhere it changes nothing but CMD_DONE. -/
def Obligations.AbortEndsTheStream : Prop :=
  ∀ s : State, exec .abort s = .next
    (if s.procState = .stream then
      { counted s with out := s.out ++ [0x101], pend := none, carry := [], procState := .idle }
     else counted s)

/-- The whole-stream function (R100): from an IDLE state with tables, START m, a DATA per byte and END run to completion
and emit exactly the output of R100 followed by EOS; IN_COUNT ends at n, OUT_COUNT at n + (a mod 2). -/
def Obligations.StreamComputesTheWholeStreamFunction : Prop :=
  ∀ (s : State) (m : Mode) (bytes : List Byte), Inv s → s.procState = .idle → s.tv = true → CarryFits s bytes →
    ∃ o, StreamOutput s m bytes o ∧
      execAll (streamCommands m bytes) s = .next { s with
        mode := m, inCount := BitVec.ofNat 32 bytes.length, outCount := BitVec.ofNat 32 o.length,
        out := s.out ++ (o.map (·.setWidth 9) ++ [0x100]), pend := none, carry := [], busy := false,
        cmdDone := s.cmdDone + BitVec.ofNat 32 (bytes.length + 2) }

/-- Excluded-byte positional invariance (R101): the excluded bytes of a stream's output are those of its input, at the
same indices, and removing every alphabet byte from both gives identical sequences. -/
def Obligations.ExcludedBytesKeepTheirPlaces : Prop :=
  ∀ (s : State) (m : Mode) (bytes : List Byte) (t : State), Inv s → s.procState = .idle → s.tv = true →
    CarryFits s bytes → execAll (streamCommands m bytes) s = .next t →
    ∃ o : List Byte, t.out = s.out ++ (o.map (·.setWidth 9) ++ [0x100]) ∧
      (∀ i < bytes.length, isMember s (bytes.getD i 0) = false → o.getD i 0 = bytes.getD i 0) ∧
      o.filter (fun v => !isMember s v) = bytes.filter (fun v => !isMember s v)

/-- Round trip with padding (R103, R102): a stream's output has an even number of alphabet bytes, at the indices of the
padded input's, and running it through the other direction with the same tables gives back the input, followed by PAD
when the number of its alphabet bytes is odd. -/
def Obligations.OppositeStreamRestoresTheInput : Prop :=
  ∀ (s : State) (m : Mode) (bytes : List Byte), Inv s → s.procState = .idle → s.tv = true → CarryFits s bytes →
    ∃ o t u, execAll (streamCommands m bytes) s = .next t ∧
      t.out = s.out ++ (o.map (·.setWidth 9) ++ [0x100]) ∧
      memberIndices s o = memberIndices s (paddedInput s bytes) ∧ (memberIndices s o).length % 2 = 0 ∧
      execAll (streamCommands (opposite m) o) t = .next u ∧
      u.out = t.out ++ ((paddedInput s bytes).map (·.setWidth 9) ++ [0x100])

/-! ## Rules over all commands -/

/-- Every memory is written only by its own command (R37): ALPHA and ALEN by APUSH, KEY and KLEN by KPUSH, PAD by SETPAD,
CODEC, ENC and DEC by BUILD; and CLEAR writes ALEN, KLEN and PAD. -/
def Obligations.MemoriesWrittenOnlyByTheirCommands : Prop :=
  ∀ (i : Instr) (s t : State), exec i s = .next t →
    (t.alpha ≠ s.alpha → i.opcode = .apush) ∧ (t.key ≠ s.key → i.opcode = .kpush) ∧
    (t.codec ≠ s.codec → i = .build) ∧ (t.enc ≠ s.enc → i = .build) ∧ (t.dec ≠ s.dec → i = .build) ∧
    (t.alen ≠ s.alen → i.opcode = .apush ∨ i = .clear) ∧ (t.klen ≠ s.klen → i.opcode = .kpush ∨ i = .clear) ∧
    (t.pad ≠ s.pad → i.opcode = .setpad ∨ i = .clear)

/-- RESULT is written only by the four queries and CLEAR, and a query that raises leaves it unchanged (R30). -/
def Obligations.ResultWrittenOnlyByQueries : Prop :=
  ∀ (i : Instr) (s t : State), exec i s = .next t → t.result ≠ s.result →
    i = .clear ∨ (i.opcode ∈ [.pack, .unpack, .encb, .decb] ∧ t.procState ≠ .error)

/-- MODE is written only by START, from its field, and by CLEAR, to 0 (R21). -/
def Obligations.ModeWrittenOnlyByStartAndClear : Prop :=
  ∀ (i : Instr) (s t : State), exec i s = .next t → t.mode ≠ s.mode →
    i = .start t.mode ∨ (i = .clear ∧ t.mode = .enc)

/-- TV is set only by BUILD and cleared only by BUILD, APUSH, KPUSH, SETPAD and CLEAR; K and B change only with those
same commands (R19). -/
def Obligations.TablesValidChangesOnlyWith : Prop :=
  ∀ (i : Instr) (s t : State), exec i s = .next t →
    (s.tv = false → t.tv = true → i = .build) ∧
    (s.tv = true → t.tv = false → i.opcode ∈ [.build, .apush, .kpush, .setpad, .clear]) ∧
    (t.k ≠ s.k ∨ t.b ≠ s.b → i.opcode ∈ [.build, .apush, .kpush, .setpad, .clear])

/-- The stream counts (R33): START sets both to 0, CLEAR too; otherwise IN_COUNT rises by 1 exactly for an accepted DATA
and OUT_COUNT by the number of data tokens emitted, markers not counted. -/
def Obligations.StreamCountsCountBytes : Prop :=
  ∀ (i : Instr) (s t : State) (new : List Token), exec i s = .next t → t.out = s.out ++ new →
    (i = .clear ∨ (i.opcode = .start ∧ s.procState = .idle ∧ t.procState = .stream) →
      t.inCount = 0 ∧ t.outCount = 0) ∧
    (¬(i = .clear ∨ (i.opcode = .start ∧ s.procState = .idle ∧ t.procState = .stream)) →
      t.inCount = s.inCount + (if i.opcode = .data ∧ s.procState = .stream ∧ t.procState = .stream then 1 else 0) ∧
      t.outCount = s.outCount + BitVec.ofNat 32 (new.countP (fun x => !isMarker x)))

/-- A command only appends to OUT. Leaving STREAM appends exactly one marker, last: EOS when END left it for IDLE, ABORT
otherwise; no other command appends a marker (R62, R53). -/
def Obligations.StreamEndsWithExactlyOneMarker : Prop :=
  ∀ (i : Instr) (s t : State), exec i s = .next t → ∃ datas markers,
    t.out = s.out ++ (datas ++ markers) ∧ (∀ x ∈ datas, x.toNat < 0x100) ∧
      markers =
        if s.procState = .stream ∧ t.procState ≠ .stream then
          (if i = .endStream ∧ t.procState = .idle then [0x100] else [0x101])
        else []

/-! ## The register port and the host (10_state, 20_memory, 70_reset_and_hazards) -/

/-- The register words right after reset, with the default parameters (R131). -/
def Obligations.ResetRegisterWords : Prop :=
  readRegister State.reset 0x00 = 0x46535131 ∧ readRegister State.reset 0x01 = 0x04004008 ∧
  readRegister State.reset 0x05 = 0x00200000 ∧
  ∀ a : BitVec 8, a ≠ 0x00 → a ≠ 0x01 → a ≠ 0x05 → readRegister State.reset a = 0

/-- Every address from 0x0C up reads 0 in every state (R23). -/
def Obligations.UnlistedRegistersReadZero : Prop :=
  ∀ (s : State) (a : BitVec 8), 0x0C ≤ a.toNat → readRegister s a = 0

/-- In every state ID reads its constant, and ERR_CMD, RESULT, IN_COUNT, OUT_COUNT and CMD_DONE read the elements they
name (R24, R28, R30, R33, R34); while the invariants hold, the fields of STATUS, ERROR, PENDING and CARRY_LEN are as R26,
R27, R31 and R32 place them. -/
def Obligations.StatusAndStreamRegisterFields : Prop :=
  ∀ s : State,
    readRegister s 0x00 = 0x46535131 ∧ readRegister s 0x04 = s.errCmd ∧ readRegister s 0x06 = s.result ∧
    readRegister s 0x09 = s.inCount ∧ readRegister s 0x0A = s.outCount ∧ readRegister s 0x0B = s.cmdDone ∧
    (Inv s →
      readRegister s 0x02 = BitVec.ofNat 32
        ((match s.procState with | .idle => 0 | .stream => 1 | .error => 2) + (if s.tv then 4 else 0) +
          (if s.busy then 8 else 0) + (match s.mode with | .enc => 0 | .dec => 16) +
          (if s.pend.isSome then 32 else 0)) ∧
      readRegister s 0x03 = BitVec.ofNat 32 (s.errCode.toNat + s.errSub.toNat * 2 ^ 8 + s.errArg.toNat * 2 ^ 16) ∧
      readRegister s 0x07 = BitVec.ofNat 32 (match s.pend with | none => 0 | some c => 0x100 + c) ∧
      readRegister s 0x08 = BitVec.ofNat 32 s.carry.length)

/-- The fields of CONFIG and PARAMS (R29, R25): no bound of the state is cut off by its field's width. -/
def Obligations.ConfigAndParamsRegisterFields : Prop :=
  ∀ s : State, Inv s →
    (readRegister s 0x05).toNat =
      s.alen + s.klen * 2 ^ 8 + s.pad.toNat * 2 ^ 16 + s.k * 2 ^ 24 + s.b * 2 ^ 28 ∧
    (readRegister s 0x01).toNat =
      s.params.kmax + s.params.kmax * s.params.kmax * 2 ^ 8 + s.params.carryDepth * 2 ^ 16

/-- A read that overlaps a command returns every register's value from before that command, except STATUS.BUSY, which
reads 1 (R45). -/
def Obligations.ReadDuringCommandIsTheOldState : Prop :=
  ∀ (s : State) (a : BitVec 8), s.busy = false →
    (a ≠ 0x02 → readRegisterDuring s a = readRegister s a) ∧
    (a = 0x02 → readRegisterDuring s a = readRegister s a ||| 0x00000008)

/-- Hardware reset (R131): every element takes its reset value, whatever the state was; the tokens not yet taken are
lost and no marker is emitted. The unspecified memories are left open here; that the parameters stay and the words not yet
taken are lost too is the model's choice (log entries 1 and 2). -/
def Obligations.HardwareResetGivesResetValues : Prop :=
  ∀ s : State, ∃ alpha key codec enc dec, hardwareReset s =
    { params := s.params, procState := .idle, tv := false, mode := .enc, busy := false,
      alen := 0, alpha := alpha, klen := 0, key := key, pad := 0x20, k := 0, b := 0,
      codec := codec, enc := enc, dec := dec, pend := none, carry := [], result := 0,
      errCode := 0, errSub := 0, errArg := 0, errCmd := 0, inCount := 0, outCount := 0, cmdDone := 0,
      out := [], cmds := [] }

/-- The host takes tokens from the front of OUT, in order; a step never removes, changes or reorders a token that is
still in OUT, so taking before or after a step takes the same token and leaves the same state (R53, R54). -/
def Obligations.TakingATokenCommutesWithAStep : Prop :=
  ∀ (s t s' : State) (x : Token), hostTake s = some (x, s') → step s = .next t →
    ∃ t', step s' = .next t' ∧ hostTake t = some (x, t')

/-! ## Invariants -/

/-- The invariants of R18 hold at reset, for every legal choice of the build-time parameters. -/
def Obligations.InvariantsHoldAtReset : Prop := ∀ p : Params, p.Legal → Inv (State.resetWith p)

/-- From every state that keeps the invariants, a step answers a next state, which keeps them: the cycle never stops, no
memory index is out of range, and INTERNAL is never raised (R18, R43, R104, R117). -/
def Obligations.EveryStepKeepsTheInvariants : Prop := ∀ s : State, Inv s → ∃ t, step s = .next t ∧ Inv t

/-- Every act of the host keeps the invariants too (R4, R18): writing a word, taking a token, reading a register,
hardware reset. -/
def Obligations.EveryHostActKeepsTheInvariants : Prop :=
  ∀ (s : State) (e : Event), Inv s → ∃ t, event e s = .next t ∧ Inv t

/-- No observation can depend on the unspecified memory contents (R17, R37): two states that agree except in entries
that ALEN, KLEN or TV gate off step to states that agree in the same sense, and all registers and all tokens are
equal. -/
def Obligations.UnspecifiedMemoryIsUnobservable : Prop :=
  ∀ s t : State, Inv s → Inv t → observablePart s = observablePart t →
    ∃ s' t', step s = .next s' ∧ step t = .next t' ∧ observablePart s' = observablePart t' ∧
      s'.out = t'.out ∧ ∀ a, readRegister s' a = readRegister t' a
end

