-- ==== Sys2Proof/Laws/Arith.lean ====
section
/-! SUPPORT. Laws/Arith.lean: the natural-number primitives do what spec 00_scope R12 and 20_memory R40 say. -/

namespace Sys2Proof.Machine

/-- `isqrt n` is the largest natural whose square is at most `n` (R12). -/
theorem isqrt_bounds (n : Nat) : isqrt n * isqrt n ≤ n ∧ n < (isqrt n + 1) * (isqrt n + 1) := by
  induction n with
  | zero => simp [isqrt]
  | succ n ih =>
    obtain ⟨hle, hlt⟩ := ih
    simp only [isqrt]
    split
    · refine ⟨by assumption, ?_⟩
      nlinarith
    · refine ⟨by omega, by omega⟩

/-- The square root of a square. -/
@[simp] theorem isqrt_mul_self (k : Nat) : isqrt (k * k) = k := by
  obtain ⟨hle, hlt⟩ := isqrt_bounds (k * k)
  rcases Nat.lt_trichotomy (isqrt (k * k)) k with h | h | h
  · nlinarith
  · exact h
  · nlinarith

/-- `2 ^ clog2 n` reaches `n` (R12). -/
theorem le_two_pow_clog2 (n : Nat) : n ≤ 2 ^ clog2 n := by
  induction n with
  | zero => simp
  | succ n ih =>
    simp only [clog2]
    split
    · assumption
    · rw [Nat.pow_succ]
      have : 0 < 2 ^ clog2 n := Nat.two_pow_pos _
      omega

/-- `clog2 n` is the least such exponent (R12). -/
theorem clog2_le_of_le_two_pow (n c : Nat) (h : n ≤ 2 ^ c) : clog2 n ≤ c := by
  induction n with
  | zero => simp [clog2]
  | succ n ih =>
    have hc := ih (by omega)
    simp only [clog2]
    split
    · exact hc
    · rename_i hbig
      rcases Nat.lt_or_eq_of_le hc with hlt | heq
      · omega
      · rw [heq] at hbig; omega

/-- A larger number needs at least as many bits. -/
theorem clog2_mono {m n : Nat} (h : m ≤ n) : clog2 m ≤ clog2 n :=
  clog2_le_of_le_two_pow m _ (h.trans (le_two_pow_clog2 n))

/-- Packing is addition when the second code fits (R12: the operands of `|` share no set bit). -/
theorem pack2_eq_add {b c1 c2 : Nat} (h : c2 < 2 ^ b) : pack2 b c1 c2 = c1 * 2 ^ b + c2 := by
  rw [pack2, Nat.shiftLeft_eq, Nat.mul_comm, Nat.two_pow_add_eq_or_of_lt h]

/-- Unpacking is division and remainder by `2 ^ b` (R40). -/
theorem unpack2_eq (b v : Nat) : unpack2 b v = (v / 2 ^ b, v % 2 ^ b) := by
  rw [unpack2, Nat.shiftRight_eq_div_pow, Nat.and_two_pow_sub_one_eq_mod]

/-- Unpacking undoes packing (R40). -/
@[simp] theorem unpack2_pack2 {b c1 c2 : Nat} (h : c2 < 2 ^ b) : unpack2 b (pack2 b c1 c2) = (c1, c2) := by
  have hp : 0 < 2 ^ b := Nat.two_pow_pos b
  rw [unpack2_eq, pack2_eq_add h, Nat.mul_comm, Nat.mul_add_div hp, Nat.mul_add_mod]
  simp [Nat.div_eq_of_lt h, Nat.mod_eq_of_lt h]

/-- Packing undoes unpacking (R40). -/
@[simp] theorem pack2_unpack2 (b v : Nat) : pack2 b (unpack2 b v).1 (unpack2 b v).2 = v := by
  have hp : 0 < 2 ^ b := Nat.two_pow_pos b
  rw [unpack2_eq, pack2_eq_add (Nat.mod_lt _ hp), Nat.mul_comm]
  exact Nat.div_add_mod v (2 ^ b)

/-- Two bigrams of codes that fit have one index only when they are the same bigram. -/
theorem pack2_inj {b c1 c2 d1 d2 : Nat} (hc : c2 < 2 ^ b) (hd : d2 < 2 ^ b) :
    pack2 b c1 c2 = pack2 b d1 d2 ↔ c1 = d1 ∧ c2 = d2 := by
  constructor
  · intro h
    have := congrArg (unpack2 b) h
    rw [unpack2_pack2 hc, unpack2_pack2 hd] at this
    simpa using this
  · rintro ⟨rfl, rfl⟩; rfl

/-- The index of a bigram of codes below `2 ^ b` is below `2 ^ (2 * b)` (R41). -/
theorem pack2_lt {b c1 c2 : Nat} (h1 : c1 < 2 ^ b) (h2 : c2 < 2 ^ b) : pack2 b c1 c2 < 2 ^ (2 * b) := by
  rw [pack2_eq_add h2, two_mul, Nat.pow_add]
  nlinarith

/-- A configuration's table index space lies within the tables (R41). -/
theorem index_space_le_tdepth {p : Params} {n : Nat} (h : n ≤ nmaxOf p) : 2 ^ (2 * clog2 n) ≤ tdepthOf p := by
  have := clog2_mono h
  exact Nat.pow_le_pow_right (by norm_num) (by rw [bmaxOf]; omega)

end Sys2Proof.Machine
end

