-- ==== Sys2Proof/Laws/Assembler.lean ====
section
/-! SUPPORT. Laws/Assembler.lean: what the assembler's forms can produce, and what they refuse (30_encoding R63). -/

namespace Sys2Proof.Machine

/-- A byte operand is never a number of 256 or more (R63). -/
theorem byteOperand_number {n : Nat} (h : 256 ≤ n) : byteOperand (.number n) = none := by
  simp [byteOperand, Nat.not_lt.mpr h]

/-- A mode operand is never a number (R63). -/
theorem modeOperand_number (n : Nat) : modeOperand (.number n) = none := rfl

/-- What a byte operand is (R63). -/
theorem byteOperand_some_iff {o : AsmToken} {b : Byte} : byteOperand o = some b ↔ WritesByte o b := by
  unfold byteOperand WritesByte
  cases o with
  | number n => by_cases h : n < 256 <;> simp [h, eq_comm]
  | name _ | byte _ | text _ | comma => simp

/-- What a mode operand is (R63). -/
theorem modeOperand_some_iff {o : AsmToken} {m : Mode} : modeOperand o = some m ↔ o = modeToken m := by
  constructor
  · unfold modeOperand
    split <;> intro h <;> cases h <;> rfl
  · rintro rfl
    cases m <;> rfl

/-- A name that writes a mnemonic is one of the listed ones (R63). -/
theorem mem_asmNames {name : List Char} {a : AsmMnemonic} (h : asmMnemonic name = some a) : (name, a) ∈ asmNames := by
  obtain ⟨l₁, l₂, hl, -⟩ := List.lookup_eq_some_iff.mp h
  simp [hl]

/-- What `fitting` lets through is the command itself, and well-formed (R63). -/
theorem fitting_some_iff {i : Instr} {is : List Instr} : fitting i = some is ↔ WellFormed i ∧ is = [i] := by
  unfold fitting WellFormed
  cases i.wellFormed with
  | false => simp
  | true => exact ⟨fun h => ⟨rfl, by injection h with h; exact h.symm⟩, fun ⟨_, h⟩ => by rw [h]; rfl⟩

/-- The one shape of a line that has commands: a listed mnemonic with operands of one of its forms. -/
theorem assembleLine_of_tokens {line m : List Char} {ts ops : List AsmToken}
    (ht : asmTokens (line.length + 1) line = some (.name m :: ts)) (ho : asmOperands ts = some ops) :
    assembleLine line = (asmMnemonic m).bind (fun a => asmCommands a ops) := by
  simp [assembleLine, ht, ho, Option.bind]

/-- No form takes a number that fits no field (R63). -/
theorem asmCommands_number {a : AsmMnemonic} {ops : List AsmToken} {n : Nat} (hn : .number n ∈ ops) (h : 256 ≤ n) :
    asmCommands a ops = none := by
  have hb := byteOperand_number h
  cases a <;> simp only [asmCommands]
  case nop | clear | build | endStream | abort | errack => unfold asmPlain; split <;> simp_all
  case apush | kpush | setpad | data | pack => unfold asmByte; split <;> simp_all
  case start =>
    unfold asmStart
    split
    · obtain rfl := List.mem_singleton.mp hn
      rfl
    · rfl
  case encb | decb =>
    unfold asmCodes
    split
    · simp only [fitting, Instr.wellFormed, codeFits]
      simp at hn
      rcases hn with rfl | rfl <;> simp <;> omega
    · rfl
  case unpack => unfold asmUnpack; split <;> simp_all [fitting, Instr.wellFormed, codeFits]
  case alphabet | key | text => unfold asmText; split <;> simp_all
  case stream =>
    unfold asmStream
    split
    · simp at hn
      subst hn
      rfl
    · rfl
  case configure => unfold asmConfigure; split <;> simp_all

/-- Every form produces well-formed commands only (R63). -/
theorem asmCommands_wellFormed {a : AsmMnemonic} {ops : List AsmToken} {is : List Instr}
    (h : asmCommands a ops = some is) : ∀ i ∈ is, WellFormed i := by
  cases a <;> simp only [asmCommands] at h
  case nop | clear | build | endStream | abort | errack =>
    unfold asmPlain at h; split at h <;> cases h; simp [WellFormed, Instr.wellFormed]
  case apush | kpush | setpad | data | pack =>
    unfold asmByte at h
    split at h
    · obtain ⟨b, -, rfl⟩ := Option.map_eq_some_iff.mp h
      simp [WellFormed, Instr.wellFormed]
    · cases h
  case start =>
    unfold asmStart at h
    split at h
    · obtain ⟨m, -, rfl⟩ := Option.map_eq_some_iff.mp h
      simp [WellFormed, Instr.wellFormed]
    · cases h
  case encb | decb =>
    unfold asmCodes at h
    split at h
    · obtain ⟨hi, rfl⟩ := fitting_some_iff.mp h
      exact fun i hm => List.mem_singleton.mp hm ▸ hi
    · cases h
  case unpack =>
    unfold asmUnpack at h
    split at h
    · obtain ⟨hi, rfl⟩ := fitting_some_iff.mp h
      exact fun i hm => List.mem_singleton.mp hm ▸ hi
    · cases h
  case alphabet | key | text =>
    unfold asmText at h
    split at h <;> cases h
    simp [expandAlphabet, expandKey, expandText, WellFormed, Instr.wellFormed]
  case stream =>
    unfold asmStream at h
    split at h
    · obtain ⟨m, -, rfl⟩ := Option.map_eq_some_iff.mp h
      simp [expandStream, expandText, WellFormed, Instr.wellFormed, or_imp, forall_and]
    · cases h
  case configure =>
    unfold asmConfigure at h
    split at h
    · obtain ⟨p, -, rfl⟩ := Option.map_eq_some_iff.mp h
      simp [expandConfigure, expandAlphabet, expandKey, WellFormed, Instr.wellFormed, or_imp, forall_and]
    · cases h

end Sys2Proof.Machine
end

