-- ==== Sys2Proof/Laws/Memory.lean ====
section
/-! SUPPORT. Laws/Memory.lean: the laws of the internal memories: read after write, the canonical form, and that equal
contents are equal data. -/

namespace Sys2Proof.Machine

variable {α : Type} {u v : α} {size i j : Nat} {m m' : Memory α}

@[simp] theorem read_nil (u : α) (i : Nat) : Memory.read u [] i = u := rfl

@[simp] theorem read_blank (u : α) (i : Nat) : Memory.read u Memory.blank i = u := rfl

/-- Below every listed index, a memory reads as unlisted. -/
theorem read_of_lt_all (h : ∀ e ∈ m, i < e.1) : Memory.read u m i = u := by
  cases m with
  | nil => rfl
  | cons e m =>
    obtain ⟨j, x⟩ := e
    have : i < j := h (j, x) (by simp)
    simp [Memory.read, this]

/-- What a read of a nonempty memory answers. -/
theorem read_cons (u : α) (j : Nat) (x : α) (m : Memory α) (i : Nat) :
    Memory.read u ((j, x) :: m) i = if i < j then u else if i = j then x else Memory.read u m i := rfl

/-- `MemRead` answers the entry of an index the memory has, and faults on any other. -/
theorem memRead_ok_iff (name : MemoryName) (u : α) (m : Memory α) (i : Nat) (v : α) :
    memRead name size u m i = .ok v ↔ i < size ∧ Memory.read u m i = v := by
  unfold memRead; split <;> simp_all

variable [DecidableEq α]

@[simp] theorem wf_nil (u : α) (size : Nat) : Memory.wf u size [] = true := rfl

@[simp] theorem wf_blank (u : α) (size : Nat) : Memory.wf u size Memory.blank = true := rfl

/-- The canonical form of a nonempty memory. -/
theorem wf_cons_iff (x : α) :
    Memory.wf u size ((j, x) :: m) = true ↔
      j < size ∧ x ≠ u ∧ (∀ e ∈ m, j < e.1) ∧ Memory.wf u size m = true := by
  simp [Memory.wf, and_assoc]

/-- The entries of a written memory were there before or are the one written. -/
theorem mem_write {e : Nat × α} (h : e ∈ Memory.write u m i v) : e ∈ m ∨ e = (i, v) := by
  induction m with
  | nil =>
    simp only [Memory.write] at h
    split at h <;> simp_all
  | cons f m ih =>
    obtain ⟨j, x⟩ := f
    simp only [Memory.write] at h
    split at h
    · split at h
      · exact .inl h
      · rcases List.mem_cons.1 h with h | h
        · exact .inr h
        · exact .inl h
    · split at h
      · split at h
        · exact .inl (List.mem_cons_of_mem _ h)
        · rcases List.mem_cons.1 h with h | h
          · exact .inr h
          · exact .inl (List.mem_cons_of_mem _ h)
      · rcases List.mem_cons.1 h with h | h
        · exact .inl (h ▸ List.mem_cons_self)
        · rcases ih h with h | h
          · exact .inl (List.mem_cons_of_mem _ h)
          · exact .inr h

/-- A write inside the memory keeps the canonical form. -/
theorem write_wf (h : Memory.wf u size m = true) (hi : i < size) (v : α) :
    Memory.wf u size (Memory.write u m i v) = true := by
  induction m with
  | nil =>
    simp only [Memory.write]
    split
    · rfl
    · rw [wf_cons_iff]; simp_all
  | cons f m ih =>
    obtain ⟨j, x⟩ := f
    have hm := h
    rw [wf_cons_iff] at hm
    obtain ⟨hj, hx, hlt, hw⟩ := hm
    simp only [Memory.write]
    split
    · rename_i hij
      split
      · exact h
      · rw [wf_cons_iff]
        refine ⟨hi, by assumption, ?_, h⟩
        intro e he
        rcases List.mem_cons.1 he with rfl | he
        · exact hij
        · exact hij.trans (hlt e he)
    · split
      · rename_i heq
        subst heq
        split
        · exact hw
        · rw [wf_cons_iff]; exact ⟨hi, by assumption, hlt, hw⟩
      · rename_i hnl hne
        rw [wf_cons_iff]
        refine ⟨hj, hx, ?_, ih hw⟩
        intro e he
        rcases mem_write he with he | rfl
        · exact hlt e he
        · simp only; omega

/-- Read after write: the written index reads the value written, every other index as before. -/
theorem read_write (h : Memory.wf u size m = true) (i j : Nat) (v : α) :
    Memory.read u (Memory.write u m i v) j = if j = i then v else Memory.read u m j := by
  induction m with
  | nil =>
    simp only [Memory.write]
    split <;> simp only [Memory.read] <;> (repeat' split) <;> simp_all
  | cons f m ih =>
    obtain ⟨k, x⟩ := f
    rw [wf_cons_iff] at h
    obtain ⟨-, -, hlt, hw⟩ := h
    simp only [Memory.write]
    split
    · rename_i hik
      split
      · rename_i hv
        subst hv
        by_cases hji : j = i
        · subst hji; simp [read_cons, hik]
        · simp [hji]
      · rw [read_cons]
        by_cases hji : j = i
        · subst hji; simp
        · by_cases hlt' : j < i
          · simp [hlt', hji, read_cons, show j < k by omega]
          · simp [hlt', hji]
    · split
      · rename_i heq
        subst heq
        split
        · rename_i hv
          subst hv
          rw [read_cons]
          by_cases hji : j = i
          · subst hji; simp [read_of_lt_all hlt]
          · by_cases hlt' : j < i
            · simp only [hlt', if_true, hji, if_false]
              exact read_of_lt_all fun e he => hlt'.trans (hlt e he)
            · simp [hlt', hji]
        · simp only [read_cons]
          by_cases hji : j = i
          · subst hji; simp
          · simp [hji]
      · rename_i hnl hne
        rw [read_cons, read_cons, ih hw]
        by_cases hji : j = i
        · subst hji; simp [hnl, hne]
        · simp [hji]

/-- A write within the memory is read back. -/
theorem read_write_same (h : Memory.wf u size m = true) (i : Nat) (v : α) :
    Memory.read u (Memory.write u m i v) i = v := by rw [read_write h]; simp

/-- A write leaves every other index alone. -/
theorem read_write_other (h : Memory.wf u size m = true) (hij : j ≠ i) (v : α) :
    Memory.read u (Memory.write u m i v) j = Memory.read u m j := by rw [read_write h]; simp [hij]

/-- Past the memory's size, a canonical memory reads as unlisted. -/
theorem read_of_size_le (h : Memory.wf u size m = true) (hi : size ≤ i) : Memory.read u m i = u := by
  induction m with
  | nil => rfl
  | cons f m ih =>
    obtain ⟨j, x⟩ := f
    rw [wf_cons_iff] at h
    obtain ⟨hj, -, -, hw⟩ := h
    rw [read_cons, if_neg (by omega), if_neg (by omega), ih hw]

/-- The listed entries of a canonical memory are what it reads as. -/
theorem mem_iff_read (h : Memory.wf u size m = true) (i : Nat) (v : α) :
    (i, v) ∈ m ↔ Memory.read u m i = v ∧ v ≠ u := by
  induction m with
  | nil =>
    simp only [List.not_mem_nil, read_nil, false_iff, not_and, not_not]
    exact fun h => h.symm
  | cons f m ih =>
    obtain ⟨j, x⟩ := f
    rw [wf_cons_iff] at h
    obtain ⟨-, hx, hlt, hw⟩ := h
    rw [List.mem_cons, read_cons, ih hw]
    by_cases hij : i < j
    · have hread : Memory.read u m i = u := read_of_lt_all fun e he => hij.trans (hlt e he)
      simp only [hij, if_true, Prod.mk.injEq, hread]
      constructor
      · rintro (⟨rfl, -⟩ | h)
        · omega
        · exact h
      · exact fun h => .inr h
    · by_cases heq : i = j
      · subst heq
        have hread : Memory.read u m i = u := read_of_lt_all hlt
        simp only [lt_irrefl, if_false, if_true, Prod.mk.injEq, true_and, hread]
        constructor
        · rintro (rfl | ⟨rfl, h⟩)
          · exact ⟨rfl, hx⟩
          · exact absurd rfl h
        · exact fun h => .inl h.1.symm
      · simp [hij, heq]

/-- Canonical memories with equal contents are equal data. -/
theorem memory_ext (h : Memory.wf u size m = true) (h' : Memory.wf u size m' = true)
    (hread : ∀ i, Memory.read u m i = Memory.read u m' i) : m = m' := by
  induction m generalizing m' with
  | nil =>
    cases m' with
    | nil => rfl
    | cons f m' =>
      obtain ⟨j, x⟩ := f
      have := hread j
      rw [wf_cons_iff] at h'
      simp [read_cons] at this
      exact absurd this.symm h'.2.1
  | cons e m ih =>
    obtain ⟨i, v⟩ := e
    have hm := (wf_cons_iff (u := u) (size := size) v).1 h
    cases m' with
    | nil =>
      have := hread i
      simp [read_cons] at this
      exact absurd this hm.2.1
    | cons f m' =>
      obtain ⟨j, x⟩ := f
      have hm' := (wf_cons_iff (u := u) (size := size) x).1 h'
      have hij : i = j := by
        rcases Nat.lt_trichotomy i j with hlt | heq | hgt
        · have := hread i
          simp [read_cons, hlt] at this
          exact absurd this hm.2.1
        · exact heq
        · have := hread j
          simp [read_cons, hgt] at this
          exact absurd this.symm hm'.2.1
      subst hij
      have hvx : v = x := by simpa [read_cons] using hread i
      subst hvx
      congr 1
      refine ih hm.2.2.2 hm'.2.2.2 fun k => ?_
      by_cases hk : i < k
      · have := hread k
        simpa [read_cons, show ¬ k < i by omega, show ¬ k = i by omega] using this
      · rw [read_of_lt_all fun e he => lt_of_le_of_lt (Nat.le_of_not_lt hk) (hm.2.2.1 e he),
          read_of_lt_all fun e he => lt_of_le_of_lt (Nat.le_of_not_lt hk) (hm'.2.2.1 e he)]

/-- `MemWrite` answers the written memory for an index the memory has, and faults on any other. -/
theorem memWrite_ok_iff (name : MemoryName) (u : α) (m m' : Memory α) (i : Nat) (v : α) :
    memWrite name size u m i v = .ok m' ↔ i < size ∧ Memory.write u m i v = m' := by
  unfold memWrite; split <;> simp_all

/-- Every operation that answers a memory keeps its canonical form. -/
theorem memWrite_wf {name : MemoryName} (h : Memory.wf u size m = true)
    (hw : memWrite name size u m i v = .ok m') : Memory.wf u size m' = true := by
  rw [memWrite_ok_iff] at hw
  exact hw.2 ▸ write_wf h hw.1 v

end Sys2Proof.Machine
end

