-- ==== Sys2Proof/Laws/State.lean ====
section
/-! SUPPORT. Laws/State.lean: for each named update of the state, what it leaves in every field. -/

namespace Sys2Proof.Machine

/-! ### `emit` -/

@[simp] theorem emit_params (t : Token) (s : State) : (emit t s).params = s.params := rfl
@[simp] theorem emit_procState (t : Token) (s : State) : (emit t s).procState = s.procState := rfl
@[simp] theorem emit_tv (t : Token) (s : State) : (emit t s).tv = s.tv := rfl
@[simp] theorem emit_mode (t : Token) (s : State) : (emit t s).mode = s.mode := rfl
@[simp] theorem emit_busy (t : Token) (s : State) : (emit t s).busy = s.busy := rfl
@[simp] theorem emit_alen (t : Token) (s : State) : (emit t s).alen = s.alen := rfl
@[simp] theorem emit_alpha (t : Token) (s : State) : (emit t s).alpha = s.alpha := rfl
@[simp] theorem emit_klen (t : Token) (s : State) : (emit t s).klen = s.klen := rfl
@[simp] theorem emit_key (t : Token) (s : State) : (emit t s).key = s.key := rfl
@[simp] theorem emit_pad (t : Token) (s : State) : (emit t s).pad = s.pad := rfl
@[simp] theorem emit_k (t : Token) (s : State) : (emit t s).k = s.k := rfl
@[simp] theorem emit_b (t : Token) (s : State) : (emit t s).b = s.b := rfl
@[simp] theorem emit_codec (t : Token) (s : State) : (emit t s).codec = s.codec := rfl
@[simp] theorem emit_enc (t : Token) (s : State) : (emit t s).enc = s.enc := rfl
@[simp] theorem emit_dec (t : Token) (s : State) : (emit t s).dec = s.dec := rfl
@[simp] theorem emit_pend (t : Token) (s : State) : (emit t s).pend = s.pend := rfl
@[simp] theorem emit_carry (t : Token) (s : State) : (emit t s).carry = s.carry := rfl
@[simp] theorem emit_result (t : Token) (s : State) : (emit t s).result = s.result := rfl
@[simp] theorem emit_errCode (t : Token) (s : State) : (emit t s).errCode = s.errCode := rfl
@[simp] theorem emit_errSub (t : Token) (s : State) : (emit t s).errSub = s.errSub := rfl
@[simp] theorem emit_errArg (t : Token) (s : State) : (emit t s).errArg = s.errArg := rfl
@[simp] theorem emit_errCmd (t : Token) (s : State) : (emit t s).errCmd = s.errCmd := rfl
@[simp] theorem emit_inCount (t : Token) (s : State) : (emit t s).inCount = s.inCount := rfl
@[simp] theorem emit_outCount (t : Token) (s : State) : (emit t s).outCount = s.outCount := rfl
@[simp] theorem emit_cmdDone (t : Token) (s : State) : (emit t s).cmdDone = s.cmdDone := rfl
@[simp] theorem emit_out (t : Token) (s : State) : (emit t s).out = s.out ++ [t] := rfl
@[simp] theorem emit_cmds (t : Token) (s : State) : (emit t s).cmds = s.cmds := rfl

/-! ### `emitByte` -/

@[simp] theorem emitByte_params (v : Byte) (s : State) : (emitByte v s).params = s.params := rfl
@[simp] theorem emitByte_procState (v : Byte) (s : State) : (emitByte v s).procState = s.procState := rfl
@[simp] theorem emitByte_tv (v : Byte) (s : State) : (emitByte v s).tv = s.tv := rfl
@[simp] theorem emitByte_mode (v : Byte) (s : State) : (emitByte v s).mode = s.mode := rfl
@[simp] theorem emitByte_busy (v : Byte) (s : State) : (emitByte v s).busy = s.busy := rfl
@[simp] theorem emitByte_alen (v : Byte) (s : State) : (emitByte v s).alen = s.alen := rfl
@[simp] theorem emitByte_alpha (v : Byte) (s : State) : (emitByte v s).alpha = s.alpha := rfl
@[simp] theorem emitByte_klen (v : Byte) (s : State) : (emitByte v s).klen = s.klen := rfl
@[simp] theorem emitByte_key (v : Byte) (s : State) : (emitByte v s).key = s.key := rfl
@[simp] theorem emitByte_pad (v : Byte) (s : State) : (emitByte v s).pad = s.pad := rfl
@[simp] theorem emitByte_k (v : Byte) (s : State) : (emitByte v s).k = s.k := rfl
@[simp] theorem emitByte_b (v : Byte) (s : State) : (emitByte v s).b = s.b := rfl
@[simp] theorem emitByte_codec (v : Byte) (s : State) : (emitByte v s).codec = s.codec := rfl
@[simp] theorem emitByte_enc (v : Byte) (s : State) : (emitByte v s).enc = s.enc := rfl
@[simp] theorem emitByte_dec (v : Byte) (s : State) : (emitByte v s).dec = s.dec := rfl
@[simp] theorem emitByte_pend (v : Byte) (s : State) : (emitByte v s).pend = s.pend := rfl
@[simp] theorem emitByte_carry (v : Byte) (s : State) : (emitByte v s).carry = s.carry := rfl
@[simp] theorem emitByte_result (v : Byte) (s : State) : (emitByte v s).result = s.result := rfl
@[simp] theorem emitByte_errCode (v : Byte) (s : State) : (emitByte v s).errCode = s.errCode := rfl
@[simp] theorem emitByte_errSub (v : Byte) (s : State) : (emitByte v s).errSub = s.errSub := rfl
@[simp] theorem emitByte_errArg (v : Byte) (s : State) : (emitByte v s).errArg = s.errArg := rfl
@[simp] theorem emitByte_errCmd (v : Byte) (s : State) : (emitByte v s).errCmd = s.errCmd := rfl
@[simp] theorem emitByte_inCount (v : Byte) (s : State) : (emitByte v s).inCount = s.inCount := rfl
@[simp] theorem emitByte_outCount (v : Byte) (s : State) : (emitByte v s).outCount = s.outCount + 1 := rfl
@[simp] theorem emitByte_cmdDone (v : Byte) (s : State) : (emitByte v s).cmdDone = s.cmdDone := rfl
@[simp] theorem emitByte_out (v : Byte) (s : State) : (emitByte v s).out = s.out ++ [dataToken v] := rfl
@[simp] theorem emitByte_cmds (v : Byte) (s : State) : (emitByte v s).cmds = s.cmds := rfl

/-! ### `invalidate` -/

@[simp] theorem invalidate_params (s : State) : (invalidate s).params = s.params := rfl
@[simp] theorem invalidate_procState (s : State) : (invalidate s).procState = s.procState := rfl
@[simp] theorem invalidate_tv (s : State) : (invalidate s).tv = false := rfl
@[simp] theorem invalidate_mode (s : State) : (invalidate s).mode = s.mode := rfl
@[simp] theorem invalidate_busy (s : State) : (invalidate s).busy = s.busy := rfl
@[simp] theorem invalidate_alen (s : State) : (invalidate s).alen = s.alen := rfl
@[simp] theorem invalidate_alpha (s : State) : (invalidate s).alpha = s.alpha := rfl
@[simp] theorem invalidate_klen (s : State) : (invalidate s).klen = s.klen := rfl
@[simp] theorem invalidate_key (s : State) : (invalidate s).key = s.key := rfl
@[simp] theorem invalidate_pad (s : State) : (invalidate s).pad = s.pad := rfl
@[simp] theorem invalidate_k (s : State) : (invalidate s).k = 0 := rfl
@[simp] theorem invalidate_b (s : State) : (invalidate s).b = 0 := rfl
@[simp] theorem invalidate_codec (s : State) : (invalidate s).codec = s.codec := rfl
@[simp] theorem invalidate_enc (s : State) : (invalidate s).enc = s.enc := rfl
@[simp] theorem invalidate_dec (s : State) : (invalidate s).dec = s.dec := rfl
@[simp] theorem invalidate_pend (s : State) : (invalidate s).pend = s.pend := rfl
@[simp] theorem invalidate_carry (s : State) : (invalidate s).carry = s.carry := rfl
@[simp] theorem invalidate_result (s : State) : (invalidate s).result = s.result := rfl
@[simp] theorem invalidate_errCode (s : State) : (invalidate s).errCode = s.errCode := rfl
@[simp] theorem invalidate_errSub (s : State) : (invalidate s).errSub = s.errSub := rfl
@[simp] theorem invalidate_errArg (s : State) : (invalidate s).errArg = s.errArg := rfl
@[simp] theorem invalidate_errCmd (s : State) : (invalidate s).errCmd = s.errCmd := rfl
@[simp] theorem invalidate_inCount (s : State) : (invalidate s).inCount = s.inCount := rfl
@[simp] theorem invalidate_outCount (s : State) : (invalidate s).outCount = s.outCount := rfl
@[simp] theorem invalidate_cmdDone (s : State) : (invalidate s).cmdDone = s.cmdDone := rfl
@[simp] theorem invalidate_out (s : State) : (invalidate s).out = s.out := rfl
@[simp] theorem invalidate_cmds (s : State) : (invalidate s).cmds = s.cmds := rfl

/-! ### `commit` -/

@[simp] theorem commit_params (kk bb : Nat) (s : State) : (commit kk bb s).params = s.params := rfl
@[simp] theorem commit_procState (kk bb : Nat) (s : State) : (commit kk bb s).procState = s.procState := rfl
@[simp] theorem commit_tv (kk bb : Nat) (s : State) : (commit kk bb s).tv = true := rfl
@[simp] theorem commit_mode (kk bb : Nat) (s : State) : (commit kk bb s).mode = s.mode := rfl
@[simp] theorem commit_busy (kk bb : Nat) (s : State) : (commit kk bb s).busy = s.busy := rfl
@[simp] theorem commit_alen (kk bb : Nat) (s : State) : (commit kk bb s).alen = s.alen := rfl
@[simp] theorem commit_alpha (kk bb : Nat) (s : State) : (commit kk bb s).alpha = s.alpha := rfl
@[simp] theorem commit_klen (kk bb : Nat) (s : State) : (commit kk bb s).klen = s.klen := rfl
@[simp] theorem commit_key (kk bb : Nat) (s : State) : (commit kk bb s).key = s.key := rfl
@[simp] theorem commit_pad (kk bb : Nat) (s : State) : (commit kk bb s).pad = s.pad := rfl
@[simp] theorem commit_k (kk bb : Nat) (s : State) : (commit kk bb s).k = kk := rfl
@[simp] theorem commit_b (kk bb : Nat) (s : State) : (commit kk bb s).b = bb := rfl
@[simp] theorem commit_codec (kk bb : Nat) (s : State) : (commit kk bb s).codec = s.codec := rfl
@[simp] theorem commit_enc (kk bb : Nat) (s : State) : (commit kk bb s).enc = s.enc := rfl
@[simp] theorem commit_dec (kk bb : Nat) (s : State) : (commit kk bb s).dec = s.dec := rfl
@[simp] theorem commit_pend (kk bb : Nat) (s : State) : (commit kk bb s).pend = s.pend := rfl
@[simp] theorem commit_carry (kk bb : Nat) (s : State) : (commit kk bb s).carry = s.carry := rfl
@[simp] theorem commit_result (kk bb : Nat) (s : State) : (commit kk bb s).result = s.result := rfl
@[simp] theorem commit_errCode (kk bb : Nat) (s : State) : (commit kk bb s).errCode = s.errCode := rfl
@[simp] theorem commit_errSub (kk bb : Nat) (s : State) : (commit kk bb s).errSub = s.errSub := rfl
@[simp] theorem commit_errArg (kk bb : Nat) (s : State) : (commit kk bb s).errArg = s.errArg := rfl
@[simp] theorem commit_errCmd (kk bb : Nat) (s : State) : (commit kk bb s).errCmd = s.errCmd := rfl
@[simp] theorem commit_inCount (kk bb : Nat) (s : State) : (commit kk bb s).inCount = s.inCount := rfl
@[simp] theorem commit_outCount (kk bb : Nat) (s : State) : (commit kk bb s).outCount = s.outCount := rfl
@[simp] theorem commit_cmdDone (kk bb : Nat) (s : State) : (commit kk bb s).cmdDone = s.cmdDone := rfl
@[simp] theorem commit_out (kk bb : Nat) (s : State) : (commit kk bb s).out = s.out := rfl
@[simp] theorem commit_cmds (kk bb : Nat) (s : State) : (commit kk bb s).cmds = s.cmds := rfl

/-! ### `beginCycle` -/

@[simp] theorem beginCycle_params (s : State) : (beginCycle s).params = s.params := rfl
@[simp] theorem beginCycle_procState (s : State) : (beginCycle s).procState = s.procState := rfl
@[simp] theorem beginCycle_tv (s : State) : (beginCycle s).tv = s.tv := rfl
@[simp] theorem beginCycle_mode (s : State) : (beginCycle s).mode = s.mode := rfl
@[simp] theorem beginCycle_busy (s : State) : (beginCycle s).busy = true := rfl
@[simp] theorem beginCycle_alen (s : State) : (beginCycle s).alen = s.alen := rfl
@[simp] theorem beginCycle_alpha (s : State) : (beginCycle s).alpha = s.alpha := rfl
@[simp] theorem beginCycle_klen (s : State) : (beginCycle s).klen = s.klen := rfl
@[simp] theorem beginCycle_key (s : State) : (beginCycle s).key = s.key := rfl
@[simp] theorem beginCycle_pad (s : State) : (beginCycle s).pad = s.pad := rfl
@[simp] theorem beginCycle_k (s : State) : (beginCycle s).k = s.k := rfl
@[simp] theorem beginCycle_b (s : State) : (beginCycle s).b = s.b := rfl
@[simp] theorem beginCycle_codec (s : State) : (beginCycle s).codec = s.codec := rfl
@[simp] theorem beginCycle_enc (s : State) : (beginCycle s).enc = s.enc := rfl
@[simp] theorem beginCycle_dec (s : State) : (beginCycle s).dec = s.dec := rfl
@[simp] theorem beginCycle_pend (s : State) : (beginCycle s).pend = s.pend := rfl
@[simp] theorem beginCycle_carry (s : State) : (beginCycle s).carry = s.carry := rfl
@[simp] theorem beginCycle_result (s : State) : (beginCycle s).result = s.result := rfl
@[simp] theorem beginCycle_errCode (s : State) : (beginCycle s).errCode = s.errCode := rfl
@[simp] theorem beginCycle_errSub (s : State) : (beginCycle s).errSub = s.errSub := rfl
@[simp] theorem beginCycle_errArg (s : State) : (beginCycle s).errArg = s.errArg := rfl
@[simp] theorem beginCycle_errCmd (s : State) : (beginCycle s).errCmd = s.errCmd := rfl
@[simp] theorem beginCycle_inCount (s : State) : (beginCycle s).inCount = s.inCount := rfl
@[simp] theorem beginCycle_outCount (s : State) : (beginCycle s).outCount = s.outCount := rfl
@[simp] theorem beginCycle_cmdDone (s : State) : (beginCycle s).cmdDone = s.cmdDone := rfl
@[simp] theorem beginCycle_out (s : State) : (beginCycle s).out = s.out := rfl
@[simp] theorem beginCycle_cmds (s : State) : (beginCycle s).cmds = s.cmds := rfl

/-! ### `retire` -/

@[simp] theorem retire_params (s : State) : (retire s).params = s.params := rfl
@[simp] theorem retire_procState (s : State) : (retire s).procState = s.procState := rfl
@[simp] theorem retire_tv (s : State) : (retire s).tv = s.tv := rfl
@[simp] theorem retire_mode (s : State) : (retire s).mode = s.mode := rfl
@[simp] theorem retire_busy (s : State) : (retire s).busy = false := rfl
@[simp] theorem retire_alen (s : State) : (retire s).alen = s.alen := rfl
@[simp] theorem retire_alpha (s : State) : (retire s).alpha = s.alpha := rfl
@[simp] theorem retire_klen (s : State) : (retire s).klen = s.klen := rfl
@[simp] theorem retire_key (s : State) : (retire s).key = s.key := rfl
@[simp] theorem retire_pad (s : State) : (retire s).pad = s.pad := rfl
@[simp] theorem retire_k (s : State) : (retire s).k = s.k := rfl
@[simp] theorem retire_b (s : State) : (retire s).b = s.b := rfl
@[simp] theorem retire_codec (s : State) : (retire s).codec = s.codec := rfl
@[simp] theorem retire_enc (s : State) : (retire s).enc = s.enc := rfl
@[simp] theorem retire_dec (s : State) : (retire s).dec = s.dec := rfl
@[simp] theorem retire_pend (s : State) : (retire s).pend = s.pend := rfl
@[simp] theorem retire_carry (s : State) : (retire s).carry = s.carry := rfl
@[simp] theorem retire_result (s : State) : (retire s).result = s.result := rfl
@[simp] theorem retire_errCode (s : State) : (retire s).errCode = s.errCode := rfl
@[simp] theorem retire_errSub (s : State) : (retire s).errSub = s.errSub := rfl
@[simp] theorem retire_errArg (s : State) : (retire s).errArg = s.errArg := rfl
@[simp] theorem retire_errCmd (s : State) : (retire s).errCmd = s.errCmd := rfl
@[simp] theorem retire_inCount (s : State) : (retire s).inCount = s.inCount := rfl
@[simp] theorem retire_outCount (s : State) : (retire s).outCount = s.outCount := rfl
@[simp] theorem retire_cmdDone (s : State) : (retire s).cmdDone = s.cmdDone + 1 := rfl
@[simp] theorem retire_out (s : State) : (retire s).out = s.out := rfl
@[simp] theorem retire_cmds (s : State) : (retire s).cmds = s.cmds := rfl

/-! ### `leaveError` -/

@[simp] theorem leaveError_params (s : State) : (leaveError s).params = s.params := rfl
@[simp] theorem leaveError_procState (s : State) : (leaveError s).procState = .idle := rfl
@[simp] theorem leaveError_tv (s : State) : (leaveError s).tv = s.tv := rfl
@[simp] theorem leaveError_mode (s : State) : (leaveError s).mode = s.mode := rfl
@[simp] theorem leaveError_busy (s : State) : (leaveError s).busy = s.busy := rfl
@[simp] theorem leaveError_alen (s : State) : (leaveError s).alen = s.alen := rfl
@[simp] theorem leaveError_alpha (s : State) : (leaveError s).alpha = s.alpha := rfl
@[simp] theorem leaveError_klen (s : State) : (leaveError s).klen = s.klen := rfl
@[simp] theorem leaveError_key (s : State) : (leaveError s).key = s.key := rfl
@[simp] theorem leaveError_pad (s : State) : (leaveError s).pad = s.pad := rfl
@[simp] theorem leaveError_k (s : State) : (leaveError s).k = s.k := rfl
@[simp] theorem leaveError_b (s : State) : (leaveError s).b = s.b := rfl
@[simp] theorem leaveError_codec (s : State) : (leaveError s).codec = s.codec := rfl
@[simp] theorem leaveError_enc (s : State) : (leaveError s).enc = s.enc := rfl
@[simp] theorem leaveError_dec (s : State) : (leaveError s).dec = s.dec := rfl
@[simp] theorem leaveError_pend (s : State) : (leaveError s).pend = s.pend := rfl
@[simp] theorem leaveError_carry (s : State) : (leaveError s).carry = s.carry := rfl
@[simp] theorem leaveError_result (s : State) : (leaveError s).result = s.result := rfl
@[simp] theorem leaveError_errCode (s : State) : (leaveError s).errCode = 0 := rfl
@[simp] theorem leaveError_errSub (s : State) : (leaveError s).errSub = 0 := rfl
@[simp] theorem leaveError_errArg (s : State) : (leaveError s).errArg = 0 := rfl
@[simp] theorem leaveError_errCmd (s : State) : (leaveError s).errCmd = 0 := rfl
@[simp] theorem leaveError_inCount (s : State) : (leaveError s).inCount = s.inCount := rfl
@[simp] theorem leaveError_outCount (s : State) : (leaveError s).outCount = s.outCount := rfl
@[simp] theorem leaveError_cmdDone (s : State) : (leaveError s).cmdDone = s.cmdDone := rfl
@[simp] theorem leaveError_out (s : State) : (leaveError s).out = s.out := rfl
@[simp] theorem leaveError_cmds (s : State) : (leaveError s).cmds = s.cmds := rfl

/-! ### `placeWord` -/

@[simp] theorem placeWord_params (w : Word) (s : State) : (placeWord w s).params = s.params := rfl
@[simp] theorem placeWord_procState (w : Word) (s : State) : (placeWord w s).procState = s.procState := rfl
@[simp] theorem placeWord_tv (w : Word) (s : State) : (placeWord w s).tv = s.tv := rfl
@[simp] theorem placeWord_mode (w : Word) (s : State) : (placeWord w s).mode = s.mode := rfl
@[simp] theorem placeWord_busy (w : Word) (s : State) : (placeWord w s).busy = s.busy := rfl
@[simp] theorem placeWord_alen (w : Word) (s : State) : (placeWord w s).alen = s.alen := rfl
@[simp] theorem placeWord_alpha (w : Word) (s : State) : (placeWord w s).alpha = s.alpha := rfl
@[simp] theorem placeWord_klen (w : Word) (s : State) : (placeWord w s).klen = s.klen := rfl
@[simp] theorem placeWord_key (w : Word) (s : State) : (placeWord w s).key = s.key := rfl
@[simp] theorem placeWord_pad (w : Word) (s : State) : (placeWord w s).pad = s.pad := rfl
@[simp] theorem placeWord_k (w : Word) (s : State) : (placeWord w s).k = s.k := rfl
@[simp] theorem placeWord_b (w : Word) (s : State) : (placeWord w s).b = s.b := rfl
@[simp] theorem placeWord_codec (w : Word) (s : State) : (placeWord w s).codec = s.codec := rfl
@[simp] theorem placeWord_enc (w : Word) (s : State) : (placeWord w s).enc = s.enc := rfl
@[simp] theorem placeWord_dec (w : Word) (s : State) : (placeWord w s).dec = s.dec := rfl
@[simp] theorem placeWord_pend (w : Word) (s : State) : (placeWord w s).pend = s.pend := rfl
@[simp] theorem placeWord_carry (w : Word) (s : State) : (placeWord w s).carry = s.carry := rfl
@[simp] theorem placeWord_result (w : Word) (s : State) : (placeWord w s).result = s.result := rfl
@[simp] theorem placeWord_errCode (w : Word) (s : State) : (placeWord w s).errCode = s.errCode := rfl
@[simp] theorem placeWord_errSub (w : Word) (s : State) : (placeWord w s).errSub = s.errSub := rfl
@[simp] theorem placeWord_errArg (w : Word) (s : State) : (placeWord w s).errArg = s.errArg := rfl
@[simp] theorem placeWord_errCmd (w : Word) (s : State) : (placeWord w s).errCmd = s.errCmd := rfl
@[simp] theorem placeWord_inCount (w : Word) (s : State) : (placeWord w s).inCount = s.inCount := rfl
@[simp] theorem placeWord_outCount (w : Word) (s : State) : (placeWord w s).outCount = s.outCount := rfl
@[simp] theorem placeWord_cmdDone (w : Word) (s : State) : (placeWord w s).cmdDone = s.cmdDone := rfl
@[simp] theorem placeWord_out (w : Word) (s : State) : (placeWord w s).out = s.out := rfl
@[simp] theorem placeWord_cmds (w : Word) (s : State) : (placeWord w s).cmds = w :: s.cmds := rfl

/-! ### `hardwareReset` -/

@[simp] theorem hardwareReset_eq (s : State) : hardwareReset s = State.resetWith s.params := rfl

/-! ### `hostWrite` -/

@[simp] theorem hostWrite_params (w : Word) (s : State) : (hostWrite w s).params = s.params := rfl
@[simp] theorem hostWrite_procState (w : Word) (s : State) : (hostWrite w s).procState = s.procState := rfl
@[simp] theorem hostWrite_tv (w : Word) (s : State) : (hostWrite w s).tv = s.tv := rfl
@[simp] theorem hostWrite_mode (w : Word) (s : State) : (hostWrite w s).mode = s.mode := rfl
@[simp] theorem hostWrite_busy (w : Word) (s : State) : (hostWrite w s).busy = s.busy := rfl
@[simp] theorem hostWrite_alen (w : Word) (s : State) : (hostWrite w s).alen = s.alen := rfl
@[simp] theorem hostWrite_alpha (w : Word) (s : State) : (hostWrite w s).alpha = s.alpha := rfl
@[simp] theorem hostWrite_klen (w : Word) (s : State) : (hostWrite w s).klen = s.klen := rfl
@[simp] theorem hostWrite_key (w : Word) (s : State) : (hostWrite w s).key = s.key := rfl
@[simp] theorem hostWrite_pad (w : Word) (s : State) : (hostWrite w s).pad = s.pad := rfl
@[simp] theorem hostWrite_k (w : Word) (s : State) : (hostWrite w s).k = s.k := rfl
@[simp] theorem hostWrite_b (w : Word) (s : State) : (hostWrite w s).b = s.b := rfl
@[simp] theorem hostWrite_codec (w : Word) (s : State) : (hostWrite w s).codec = s.codec := rfl
@[simp] theorem hostWrite_enc (w : Word) (s : State) : (hostWrite w s).enc = s.enc := rfl
@[simp] theorem hostWrite_dec (w : Word) (s : State) : (hostWrite w s).dec = s.dec := rfl
@[simp] theorem hostWrite_pend (w : Word) (s : State) : (hostWrite w s).pend = s.pend := rfl
@[simp] theorem hostWrite_carry (w : Word) (s : State) : (hostWrite w s).carry = s.carry := rfl
@[simp] theorem hostWrite_result (w : Word) (s : State) : (hostWrite w s).result = s.result := rfl
@[simp] theorem hostWrite_errCode (w : Word) (s : State) : (hostWrite w s).errCode = s.errCode := rfl
@[simp] theorem hostWrite_errSub (w : Word) (s : State) : (hostWrite w s).errSub = s.errSub := rfl
@[simp] theorem hostWrite_errArg (w : Word) (s : State) : (hostWrite w s).errArg = s.errArg := rfl
@[simp] theorem hostWrite_errCmd (w : Word) (s : State) : (hostWrite w s).errCmd = s.errCmd := rfl
@[simp] theorem hostWrite_inCount (w : Word) (s : State) : (hostWrite w s).inCount = s.inCount := rfl
@[simp] theorem hostWrite_outCount (w : Word) (s : State) : (hostWrite w s).outCount = s.outCount := rfl
@[simp] theorem hostWrite_cmdDone (w : Word) (s : State) : (hostWrite w s).cmdDone = s.cmdDone := rfl
@[simp] theorem hostWrite_out (w : Word) (s : State) : (hostWrite w s).out = s.out := rfl
@[simp] theorem hostWrite_cmds (w : Word) (s : State) : (hostWrite w s).cmds = s.cmds ++ [w] := rfl

/-! ### `resetWith` -/

@[simp] theorem resetWith_params (p : Params) : (State.resetWith p).params = p := rfl
@[simp] theorem resetWith_procState (p : Params) : (State.resetWith p).procState = .idle := rfl
@[simp] theorem resetWith_tv (p : Params) : (State.resetWith p).tv = false := rfl
@[simp] theorem resetWith_mode (p : Params) : (State.resetWith p).mode = .enc := rfl
@[simp] theorem resetWith_busy (p : Params) : (State.resetWith p).busy = false := rfl
@[simp] theorem resetWith_alen (p : Params) : (State.resetWith p).alen = 0 := rfl
@[simp] theorem resetWith_alpha (p : Params) : (State.resetWith p).alpha = [] := rfl
@[simp] theorem resetWith_klen (p : Params) : (State.resetWith p).klen = 0 := rfl
@[simp] theorem resetWith_key (p : Params) : (State.resetWith p).key = [] := rfl
@[simp] theorem resetWith_pad (p : Params) : (State.resetWith p).pad = 0x20 := rfl
@[simp] theorem resetWith_k (p : Params) : (State.resetWith p).k = 0 := rfl
@[simp] theorem resetWith_b (p : Params) : (State.resetWith p).b = 0 := rfl
@[simp] theorem resetWith_codec (p : Params) : (State.resetWith p).codec = [] := rfl
@[simp] theorem resetWith_enc (p : Params) : (State.resetWith p).enc = [] := rfl
@[simp] theorem resetWith_dec (p : Params) : (State.resetWith p).dec = [] := rfl
@[simp] theorem resetWith_pend (p : Params) : (State.resetWith p).pend = none := rfl
@[simp] theorem resetWith_carry (p : Params) : (State.resetWith p).carry = [] := rfl
@[simp] theorem resetWith_result (p : Params) : (State.resetWith p).result = 0 := rfl
@[simp] theorem resetWith_errCode (p : Params) : (State.resetWith p).errCode = 0 := rfl
@[simp] theorem resetWith_errSub (p : Params) : (State.resetWith p).errSub = 0 := rfl
@[simp] theorem resetWith_errArg (p : Params) : (State.resetWith p).errArg = 0 := rfl
@[simp] theorem resetWith_errCmd (p : Params) : (State.resetWith p).errCmd = 0 := rfl
@[simp] theorem resetWith_inCount (p : Params) : (State.resetWith p).inCount = 0 := rfl
@[simp] theorem resetWith_outCount (p : Params) : (State.resetWith p).outCount = 0 := rfl
@[simp] theorem resetWith_cmdDone (p : Params) : (State.resetWith p).cmdDone = 0 := rfl
@[simp] theorem resetWith_out (p : Params) : (State.resetWith p).out = [] := rfl
@[simp] theorem resetWith_cmds (p : Params) : (State.resetWith p).cmds = [] := rfl

end Sys2Proof.Machine
end

