-- ==== Sys2Proof/Laws/Ops.lean ====
section
/-! SUPPORT. Laws/Ops.lean: what each shared operation can do, said once: the channels, error entry, the command cycle. -/

namespace Sys2Proof.Machine

/-- Emitting bytes appends their data tokens in order and counts each (R13). -/
theorem emitBytes_eq (vs : List Byte) (s : State) :
    emitBytes vs s =
      { s with out := s.out ++ vs.map dataToken, outCount := s.outCount + BitVec.ofNat 32 vs.length } := by
  induction vs generalizing s with
  | nil => simp [emitBytes]
  | cons v vs ih =>
    have : emitBytes (v :: vs) s = emitBytes vs (emitByte v s) := rfl
    rw [this, ih]
    have hc : BitVec.ofNat 32 (vs.length + 1) = BitVec.ofNat 32 vs.length + 1#32 := by
      rw [BitVec.ofNat_add]
    simp only [emitByte, emit, List.append_assoc, List.map_cons, List.length_cons, hc, List.cons_append,
      List.nil_append, State.mk.injEq, true_and, and_true]
    rw [BitVec.add_assoc, BitVec.add_comm 1]; rfl

/-- Outside STREAM there is no stream to abort. -/
theorem abortOpenStream_of_ne {s : State} (h : s.procState ≠ .stream) : abortOpenStream s = s := by
  simp [abortOpenStream, h]

/-- In STREAM, aborting emits the marker and discards the pending code and the carry (R99, R121). -/
theorem abortOpenStream_of_stream {s : State} (h : s.procState = .stream) :
    abortOpenStream s = { s with out := s.out ++ [abortMarker], pend := none, carry := [] } := by
  simp [abortOpenStream, h, emit]

/-- Error entry writes the error record, STATE and, for an open stream, the marker, PEND and CARRY; nothing else
(R121). -/
theorem errorEntry_eq (e : ErrorReport) (w : Word) (s : State) :
    errorEntry e w s =
      { s with
        out := if s.procState = .stream then s.out ++ [abortMarker] else s.out,
        pend := if s.procState = .stream then none else s.pend,
        carry := if s.procState = .stream then [] else s.carry,
        errCode := e.code.bits, errSub := BitVec.ofNat 8 e.sub, errArg := BitVec.ofNat 16 e.arg, errCmd := w,
        procState := .error } := by
  by_cases h : s.procState = .stream <;> simp [errorEntry, abortOpenStream, h, emit]

/-- How a cycle can end (R104): it counts the word, after the command's effects or after error entry; or it faults. -/
theorem endCycle_next_iff (w : Word) (r : Run) (t : State) :
    endCycle w r = .next t ↔
      (∃ s, r = .done s ∧ t = retire s) ∨ ∃ e s, r = .raised e s ∧ t = retire (errorEntry e w s) := by
  cases r <;> simp [endCycle, eq_comm]

/-- The cycle of a legal command that the state lets run is its own rule (R104, R105). -/
theorem runCommand_of_allowed {i : Instr} {s : State} (body : State → Run) (he : s.procState ≠ .error)
    (ha : allowed i.opcode s.procState s.tv = true) :
    runCommand i body s = endCycle (encode i) (body (beginCycle s)) := by
  simp [runCommand, he, ha]

/-- In ERROR state CLEAR and ERRACK run (R104). -/
theorem runCommand_in_error {i : Instr} {s : State} (body : State → Run) (he : s.procState = .error)
    (hr : runsInError i.opcode = true) :
    runCommand i body s = endCycle (encode i) (body (beginCycle s)) := by
  simp [runCommand, he, hr]

/-- In ERROR state every other command is discarded (R104, R123). -/
theorem runCommand_discarded {i : Instr} {s : State} (body : State → Run) (he : s.procState = .error)
    (hr : runsInError i.opcode = false) : runCommand i body s = .next (retire (beginCycle s)) := by
  simp [runCommand, he, hr, endCycle]

/-- A command that the state does not allow raises BAD_STATE (R104, R111). -/
theorem runCommand_refused {i : Instr} {s : State} (body : State → Run) (he : s.procState ≠ .error)
    (ha : allowed i.opcode s.procState s.tv = false) :
    runCommand i body s =
      .next (retire (errorEntry (badState s.procState s.tv) (encode i) (beginCycle s))) := by
  simp [runCommand, he, ha, endCycle]

/-- Everything a legal command's cycle can do when it answers a next state (R104). -/
theorem runCommand_next {i : Instr} {body : State → Run} {s t : State} (h : runCommand i body s = .next t) :
    (s.procState = .error ∧ runsInError i.opcode = false ∧ t = retire (beginCycle s)) ∨
      (s.procState ≠ .error ∧ allowed i.opcode s.procState s.tv = false ∧
        t = retire (errorEntry (badState s.procState s.tv) (encode i) (beginCycle s))) ∨
      (((s.procState = .error ∧ runsInError i.opcode = true) ∨
          (s.procState ≠ .error ∧ allowed i.opcode s.procState s.tv = true)) ∧
        ((∃ s', body (beginCycle s) = .done s' ∧ t = retire s') ∨
          ∃ e s', body (beginCycle s) = .raised e s' ∧ t = retire (errorEntry e (encode i) s'))) := by
  by_cases he : s.procState = .error
  · cases hr : runsInError i.opcode with
    | false =>
      rw [runCommand_discarded body he hr] at h
      exact .inl ⟨he, rfl, by simpa using h.symm⟩
    | true =>
      rw [runCommand_in_error body he hr, endCycle_next_iff] at h
      exact .inr (.inr ⟨.inl ⟨he, rfl⟩, h⟩)
  · cases ha : allowed i.opcode s.procState s.tv with
    | false =>
      rw [runCommand_refused body he ha] at h
      exact .inr (.inl ⟨he, rfl, by simpa using h.symm⟩)
    | true =>
      rw [runCommand_of_allowed body he ha, endCycle_next_iff] at h
      exact .inr (.inr ⟨.inr ⟨he, rfl⟩, h⟩)

/-- Everything an illegal word's cycle does (R104, R110). -/
theorem runIllegal_eq (w : Word) (e : DecodeError) (s : State) :
    runIllegal w e s =
      .next (retire (if s.procState = .error then beginCycle s
        else errorEntry { code := .illegalCmd, sub := illegalSub e, arg := 0 } w (beginCycle s))) := by
  by_cases h : s.procState = .error <;> simp [runIllegal, h, endCycle]

/-- A command that checks before it writes ends at its last line, or stops with nothing changed (R121). -/
theorem precise_done_iff (s t : State) (r : Except Stop State) : precise s r = .done t ↔ r = .ok t := by
  cases r with
  | ok a => simp [precise]
  | error e => cases e <;> simp [precise, stopAt]

theorem precise_raised_iff (s t : State) (r : Except Stop State) (e : ErrorReport) :
    precise s r = .raised e t ↔ r = .error (.raised e) ∧ s = t := by
  cases r with
  | ok a => simp [precise]
  | error e => cases e <;> simp [precise, stopAt]

/-- What `takeWord` answers: the oldest word, and the state without it. -/
theorem takeWord_some_iff (s t : State) (w : Word) :
    takeWord s = some (w, t) ↔ ∃ ws, s.cmds = w :: ws ∧ t = { s with cmds := ws } := by
  cases h : s.cmds with
  | nil => simp [takeWord, h]
  | cons v ws =>
    simp only [takeWord, h, Option.some.injEq, Prod.mk.injEq, List.cons.injEq]
    constructor
    · rintro ⟨rfl, rfl⟩; exact ⟨ws, ⟨rfl, rfl⟩, rfl⟩
    · rintro ⟨ws', ⟨rfl, rfl⟩, rfl⟩; exact ⟨rfl, rfl⟩

/-- A placed word is the next one taken. -/
@[simp] theorem takeWord_placeWord (w : Word) (s : State) : takeWord (placeWord w s) = some (w, s) := rfl

end Sys2Proof.Machine
end

