-- ==== Sys2Proof/Laws/Builder.lean ====
section
/-! SUPPORT. Laws/Builder.lean: what the table builder's loops leave (40_codec R68, 41_table_builder R80 to R82). -/

namespace Sys2Proof.Machine

section Folds

variable {α β : Type} [DecidableEq α] {u : α} {size : Nat}

/-- A loop of in-range writes keeps the canonical form. -/
theorem foldl_write_wf (idx : β → Nat) (val : β → α) (xs : List β) (m : Memory α)
    (h : Memory.wf u size m = true) (hin : ∀ x ∈ xs, idx x < size) :
    Memory.wf u size (xs.foldl (fun m x => Memory.write u m (idx x) (val x)) m) = true := by
  induction xs generalizing m with
  | nil => exact h
  | cons x xs ih =>
    rw [List.foldl_cons]
    exact ih _ (write_wf h (hin x (by simp)) _) fun y hy => hin y (by simp [hy])

/-- A loop of writes leaves an index it never writes as it was. -/
theorem foldl_write_read_other (idx : β → Nat) (val : β → α) (xs : List β) (m : Memory α)
    (h : Memory.wf u size m = true) (hin : ∀ x ∈ xs, idx x < size) (j : Nat) (hj : ∀ x ∈ xs, idx x ≠ j) :
    Memory.read u (xs.foldl (fun m x => Memory.write u m (idx x) (val x)) m) j = Memory.read u m j := by
  induction xs generalizing m with
  | nil => rfl
  | cons x xs ih =>
    rw [List.foldl_cons, ih _ (write_wf h (hin x (by simp)) _) (fun y hy => hin y (by simp [hy]))
      fun y hy => hj y (by simp [hy])]
    exact read_write_other h (fun hjx => hj x (by simp) hjx.symm) _

/-- A loop of writes that never writes one index twice with different values leaves each value it wrote. -/
theorem foldl_write_read (idx : β → Nat) (val : β → α) (xs : List β) (m : Memory α)
    (h : Memory.wf u size m = true) (hin : ∀ x ∈ xs, idx x < size)
    (hfun : ∀ x ∈ xs, ∀ y ∈ xs, idx x = idx y → val x = val y) (x : β) (hx : x ∈ xs) :
    Memory.read u (xs.foldl (fun m x => Memory.write u m (idx x) (val x)) m) (idx x) = val x := by
  induction xs generalizing m x with
  | nil => simp at hx
  | cons y xs ih =>
    rw [List.foldl_cons]
    have hw := write_wf h (hin y (by simp)) (val y)
    by_cases hmem : ∃ z ∈ xs, idx z = idx x
    · obtain ⟨z, hz, hzx⟩ := hmem
      have := ih (Memory.write u m (idx y) (val y)) hw (fun a ha => hin a (by simp [ha]))
        (fun a ha b hb => hfun a (by simp [ha]) b (by simp [hb])) z hz
      rw [← hzx, this]
      exact hfun z (by simp [hz]) x hx hzx
    · have hxy : x = y := by
        rcases List.mem_cons.1 hx with rfl | hx
        · rfl
        · exact absurd ⟨x, hx, rfl⟩ hmem
      subst hxy
      rw [foldl_write_read_other idx val xs _ hw (fun a ha => hin a (by simp [ha])) (idx x)
        (fun z hz hzx => hmem ⟨z, hz, hzx⟩)]
      exact read_write_same h _ _

/-- Filling every index of a memory with what an unlisted index reads as leaves the blank memory (R68, R80): the loops
of the spec are `Memory.blank`. -/
theorem foldl_write_unlisted (m : Memory α) (h : Memory.wf u size m = true) :
    (List.range size).foldl (fun m i => Memory.write u m i u) m = Memory.blank := by
  have hin : ∀ i ∈ List.range size, id i < size := by simp
  refine memory_ext (u := u) (size := size) (foldl_write_wf id (fun _ => u) _ m h hin) (wf_blank u size) fun i => ?_
  by_cases hi : i < size
  · have := foldl_write_read id (fun _ => u) (List.range size) m h hin (fun _ _ _ _ _ => rfl) i (by simpa using hi)
    simpa using this
  · exact read_of_size_le (foldl_write_wf id (fun _ => u) _ m h hin) (by omega)

end Folds

/-! ## The codec -/

theorem codecBuild_wf (alpha : Memory Byte) (n : Nat) : Memory.wf unknownCode 256 (codecBuild alpha n) = true :=
  foldl_write_wf (fun i => (Memory.read unlistedByte alpha i).toNat)
    (fun i => ({ valid := true, code := i } : CodecEntry)) _ _ (wf_blank _ _)
    fun i _ => (Memory.read unlistedByte alpha i).isLt

/-- With no symbol twice, symbol `i`'s entry is {valid = 1, code = i} (R38, R68). -/
theorem codecBuild_read_symbol (alpha : Memory Byte) (n i : Nat) (hi : i < n)
    (hdup : ∀ a < n, ∀ b < n, Memory.read unlistedByte alpha a = Memory.read unlistedByte alpha b → a = b) :
    Memory.read unknownCode (codecBuild alpha n) (Memory.read unlistedByte alpha i).toNat
      = { valid := true, code := i } :=
  foldl_write_read (fun i => (Memory.read unlistedByte alpha i).toNat)
    (fun i => ({ valid := true, code := i } : CodecEntry)) (List.range n) _ (wf_blank _ _)
    (fun i _ => (Memory.read unlistedByte alpha i).isLt)
    (fun a ha b hb hab => by
      rw [hdup a (List.mem_range.1 ha) b (List.mem_range.1 hb) (BitVec.eq_of_toNat_eq hab)])
    i (List.mem_range.2 hi)

/-- A byte that is no symbol has the unknown code (R38, R65). -/
theorem codecBuild_read_other (alpha : Memory Byte) (n : Nat) (v : Byte)
    (hv : ∀ i < n, Memory.read unlistedByte alpha i ≠ v) :
    Memory.read unknownCode (codecBuild alpha n) v.toNat = unknownCode :=
  foldl_write_read_other (fun i => (Memory.read unlistedByte alpha i).toNat)
    (fun i => ({ valid := true, code := i } : CodecEntry)) (List.range n) _ (wf_blank _ _)
    (fun i _ => (Memory.read unlistedByte alpha i).isLt) v.toNat
    fun i hi h => hv i (List.mem_range.1 hi) (BitVec.eq_of_toNat_eq h)

/-- Every valid entry of a built codec is some symbol's. -/
theorem codecBuild_valid (alpha : Memory Byte) (n : Nat) (v : Byte)
    (hdup : ∀ a < n, ∀ b < n, Memory.read unlistedByte alpha a = Memory.read unlistedByte alpha b → a = b)
    (hv : (Memory.read unknownCode (codecBuild alpha n) v.toNat).valid = true) :
    ∃ i < n, Memory.read unlistedByte alpha i = v ∧
      Memory.read unknownCode (codecBuild alpha n) v.toNat = { valid := true, code := i } := by
  by_cases h : ∃ i < n, Memory.read unlistedByte alpha i = v
  · obtain ⟨i, hi, rfl⟩ := h
    exact ⟨i, hi, rfl, codecBuild_read_symbol alpha n i hi hdup⟩
  · rw [codecBuild_read_other alpha n v (fun i hi hiv => h ⟨i, hi, hiv⟩)] at hv
    simp [unknownCode] at hv

/-! ## ENC -/

theorem mem_bigramPositions (k a b c d : Nat) :
    (a, b, c, d) ∈ bigramPositions k ↔ a < k ∧ b < k ∧ c < k ∧ d < k := by
  simp [bigramPositions]

/-- The ENC index that `populate` writes at a position. -/
def positionIndex (k b : Nat) (q : Nat × Nat × Nat × Nat) : Nat :=
  pack2 b (square0 k q.1 q.2.1) (square0 k q.2.2.1 q.2.2.2)

/-- The entry that `populate` writes at a position. -/
def positionEntry (s : State) (k b : Nat) (q : Nat × Nat × Nat × Nat) : TableEntry :=
  { valid := true, value := pack2 b (square1 s k q.1 q.2.2.2) (square2 s k q.2.2.1 q.2.1) }

theorem populate_eq_foldl (s : State) (k b : Nat) (enc : Memory TableEntry) :
    populate s k b enc =
      (bigramPositions k).foldl
        (fun m q => Memory.write sentinel m (positionIndex k b q) (positionEntry s k b q)) enc := rfl

/-- A position in a k-by-k square is a number below k*k. -/
theorem square0_lt {k y x : Nat} (hy : y < k) (hx : x < k) : square0 k y x < k * k := by
  unfold square0; nlinarith

theorem square0_inj {k y x y' x' : Nat} (hx : x < k) (hx' : x' < k) (h : square0 k y x = square0 k y' x') :
    y = y' ∧ x = x' := by
  have hk : 0 < k := by omega
  unfold square0 at h
  have hdiv := congrArg (· / k) h
  have hmod := congrArg (· % k) h
  simp only [Nat.mul_comm _ k, Nat.mul_add_div hk, Nat.mul_add_mod, Nat.div_eq_of_lt hx, Nat.div_eq_of_lt hx',
    Nat.mod_eq_of_lt hx, Nat.mod_eq_of_lt hx', Nat.add_zero] at hdiv hmod
  exact ⟨hdiv, hmod⟩

theorem positionIndex_lt {k b : Nat} (hb : k * k ≤ 2 ^ b) {q : Nat × Nat × Nat × Nat}
    (hq : q ∈ bigramPositions k) : positionIndex k b q < 2 ^ (2 * b) := by
  obtain ⟨c1y, c1x, c2y, c2x⟩ := q
  rw [mem_bigramPositions] at hq
  exact pack2_lt (lt_of_lt_of_le (square0_lt hq.1 hq.2.1) hb) (lt_of_lt_of_le (square0_lt hq.2.2.1 hq.2.2.2) hb)

/-- Every index is written once (R81). -/
theorem positionIndex_inj {k b : Nat} (hb : k * k ≤ 2 ^ b) {q r : Nat × Nat × Nat × Nat}
    (hq : q ∈ bigramPositions k) (hr : r ∈ bigramPositions k) (h : positionIndex k b q = positionIndex k b r) :
    q = r := by
  obtain ⟨c1y, c1x, c2y, c2x⟩ := q
  obtain ⟨d1y, d1x, d2y, d2x⟩ := r
  rw [mem_bigramPositions] at hq hr
  have hq2 := lt_of_lt_of_le (square0_lt hq.2.2.1 hq.2.2.2) hb
  have hr2 := lt_of_lt_of_le (square0_lt hr.2.2.1 hr.2.2.2) hb
  obtain ⟨h1, h2⟩ := (pack2_inj hq2 hr2).1 h
  obtain ⟨rfl, rfl⟩ := square0_inj hq.2.1 hr.2.1 h1
  obtain ⟨rfl, rfl⟩ := square0_inj hq.2.2.2 hr.2.2.2 h2
  rfl

theorem populate_wf (s : State) {k b size : Nat} (hb : k * k ≤ 2 ^ b) (hsize : 2 ^ (2 * b) ≤ size)
    {enc : Memory TableEntry} (h : Memory.wf sentinel size enc = true) :
    Memory.wf sentinel size (populate s k b enc) = true := by
  rw [populate_eq_foldl]
  exact foldl_write_wf _ _ _ _ h fun q hq => lt_of_lt_of_le (positionIndex_lt hb hq) hsize

/-- ENC at the index of a plaintext bigram, after `populate` (R81). -/
theorem populate_read_position (s : State) {k b size : Nat} (hb : k * k ≤ 2 ^ b) (hsize : 2 ^ (2 * b) ≤ size)
    {enc : Memory TableEntry} (h : Memory.wf sentinel size enc = true) {c1y c1x c2y c2x : Nat} (h1y : c1y < k)
    (h1x : c1x < k) (h2y : c2y < k) (h2x : c2x < k) :
    Memory.read sentinel (populate s k b enc) (pack2 b (square0 k c1y c1x) (square0 k c2y c2x))
      = { valid := true, value := pack2 b (square1 s k c1y c2x) (square2 s k c2y c1x) } := by
  rw [populate_eq_foldl]
  exact foldl_write_read (positionIndex k b) (positionEntry s k b) (bigramPositions k) enc h
    (fun q hq => lt_of_lt_of_le (positionIndex_lt hb hq) hsize)
    (fun q hq r hr hqr => by rw [positionIndex_inj hb hq hr hqr])
    (c1y, c1x, c2y, c2x) ((mem_bigramPositions _ _ _ _ _).2 ⟨h1y, h1x, h2y, h2x⟩)

/-- A code below k*k is the code at its row and column. -/
theorem square0_div_mod {k p : Nat} : square0 k (p / k) (p % k) = p := by
  unfold square0; rw [Nat.mul_comm]; exact Nat.div_add_mod p k

/-- ENC at the index of a plaintext bigram given by its codes (R81, R86). -/
theorem populate_read_codes (s : State) {k b size : Nat} (hb : k * k ≤ 2 ^ b) (hsize : 2 ^ (2 * b) ≤ size)
    {enc : Memory TableEntry} (h : Memory.wf sentinel size enc = true) {p1 p2 : Nat} (h1 : p1 < k * k)
    (h2 : p2 < k * k) :
    Memory.read sentinel (populate s k b enc) (pack2 b p1 p2)
      = { valid := true,
          value := pack2 b (square1 s k (p1 / k) (p2 % k)) (square2 s k (p2 / k) (p1 % k)) } := by
  have hk : 0 < k := by
    rcases Nat.eq_zero_or_pos k with rfl | hk
    · omega
    · exact hk
  have := populate_read_position s hb hsize h (Nat.div_lt_of_lt_mul h1) (Nat.mod_lt p1 hk)
    (Nat.div_lt_of_lt_mul h2) (Nat.mod_lt p2 hk)
  rwa [square0_div_mod, square0_div_mod] at this

/-- `populate` leaves an index as it was unless both its halves are codes below k*k (R41, R81). -/
theorem populate_read_other (s : State) {k b size : Nat} (hb : k * k ≤ 2 ^ b) (hsize : 2 ^ (2 * b) ≤ size)
    {enc : Memory TableEntry} (h : Memory.wf sentinel size enc = true) {v : Nat}
    (hv : ¬((unpack2 b v).1 < k * k ∧ (unpack2 b v).2 < k * k)) :
    Memory.read sentinel (populate s k b enc) v = Memory.read sentinel enc v := by
  rw [populate_eq_foldl]
  refine foldl_write_read_other _ _ _ _ h (fun q hq => lt_of_lt_of_le (positionIndex_lt hb hq) hsize) v
    fun q hq hqv => hv ?_
  obtain ⟨c1y, c1x, c2y, c2x⟩ := q
  rw [mem_bigramPositions] at hq
  have h2 := square0_lt hq.2.2.1 hq.2.2.2
  subst hqv
  simp only [positionIndex, unpack2_pack2 (lt_of_lt_of_le h2 hb)]
  exact ⟨square0_lt hq.1 hq.2.1, h2⟩

/-! ## DEC -/

/-- The inversion that finds no collision (R82): ENC's values at the valid indices are all different and were all free,
DEC maps each value back to its index, and no other entry changed. -/
theorem invertOver_none {enc : Memory TableEntry} {size : Nat} {is : List Nat} {dec dec' : Memory TableEntry}
    (hnd : is.Nodup) (hwf : Memory.wf sentinel size dec = true)
    (hval : ∀ i ∈ is, (Memory.read sentinel enc i).valid = true → (Memory.read sentinel enc i).value < size)
    (h : invertOver enc is dec = (dec', none)) :
    Memory.wf sentinel size dec' = true ∧
      (∀ i ∈ is, (Memory.read sentinel enc i).valid = true →
        (Memory.read sentinel dec (Memory.read sentinel enc i).value).valid = false ∧
          Memory.read sentinel dec' (Memory.read sentinel enc i).value = { valid := true, value := i }) ∧
      (∀ i ∈ is, ∀ j ∈ is, (Memory.read sentinel enc i).valid = true → (Memory.read sentinel enc j).valid = true →
        (Memory.read sentinel enc i).value = (Memory.read sentinel enc j).value → i = j) ∧
      ∀ u, (∀ i ∈ is, (Memory.read sentinel enc i).valid = true → (Memory.read sentinel enc i).value ≠ u) →
        Memory.read sentinel dec' u = Memory.read sentinel dec u := by
  induction is generalizing dec with
  | nil => simp [invertOver] at h; subst h; simp [hwf]
  | cons a is ih =>
    obtain ⟨ha, hnd⟩ := List.nodup_cons.1 hnd
    rw [invertOver] at h
    by_cases hv : (Memory.read sentinel enc a).valid = true
    · simp only [hv, if_true] at h
      by_cases hfree : (Memory.read sentinel dec (Memory.read sentinel enc a).value).valid = true
      · simp [hfree] at h
      · simp only [hfree, Bool.false_eq_true, if_false] at h
        have hwf' := write_wf hwf (hval a (by simp) hv) (v := { valid := true, value := a })
        obtain ⟨hw, hback, hinj, hother⟩ := ih hnd hwf' (fun i hi => hval i (by simp [hi])) h
        have hne : ∀ i ∈ is, (Memory.read sentinel enc i).valid = true →
            (Memory.read sentinel enc i).value ≠ (Memory.read sentinel enc a).value := by
          intro i hi hiv heq
          have := (hback i hi hiv).1
          rw [heq, read_write_same hwf] at this
          simp at this
        refine ⟨hw, ?_, ?_, ?_⟩
        · intro i hi hiv
          rcases List.mem_cons.1 hi with rfl | hi
          · refine ⟨by simpa using hfree, ?_⟩
            rw [hother _ fun j hj hjv => hne j hj hjv, read_write_same hwf]
          · refine ⟨?_, (hback i hi hiv).2⟩
            have := (hback i hi hiv).1
            rwa [read_write_other hwf (hne i hi hiv)] at this
        · intro i hi j hj hiv hjv heq
          rcases List.mem_cons.1 hi with hia | hi'
          · rcases List.mem_cons.1 hj with hja | hj'
            · rw [hia, hja]
            · rw [hia] at heq; exact absurd heq.symm (hne j hj' hjv)
          · rcases List.mem_cons.1 hj with hja | hj'
            · rw [hja] at heq; exact absurd heq (hne i hi' hiv)
            · exact hinj i hi' j hj' hiv hjv heq
        · intro u hu
          rw [hother u fun i hi => hu i (by simp [hi])]
          exact read_write_other hwf (fun h => hu a (by simp) hv h.symm) _
    · simp only [hv, Bool.false_eq_true, if_false] at h
      obtain ⟨hw, hback, hinj, hother⟩ := ih hnd hwf (fun i hi => hval i (by simp [hi])) h
      refine ⟨hw, ?_, ?_, ?_⟩
      · intro i hi hiv
        rcases List.mem_cons.1 hi with rfl | hi
        · exact absurd hiv hv
        · exact hback i hi hiv
      · intro i hi j hj hiv hjv heq
        rcases List.mem_cons.1 hi with rfl | hi
        · exact absurd hiv hv
        · rcases List.mem_cons.1 hj with rfl | hj
          · exact absurd hjv hv
          · exact hinj i hi j hj hiv hjv heq
      · intro u hu
        exact hother u fun i hi => hu i (by simp [hi])

/-- The inversion that finds a collision (R82): the index it answers is valid, and its value was taken already, by DEC
before the inversion or by an earlier valid index. -/
theorem invertOver_some {enc : Memory TableEntry} {size : Nat} {is : List Nat} {dec dec' : Memory TableEntry}
    {a : Nat} (hwf : Memory.wf sentinel size dec = true)
    (hval : ∀ i ∈ is, (Memory.read sentinel enc i).valid = true → (Memory.read sentinel enc i).value < size)
    (h : invertOver enc is dec = (dec', some a)) :
    ∃ before after, is = before ++ a :: after ∧ (Memory.read sentinel enc a).valid = true ∧
      ((Memory.read sentinel dec (Memory.read sentinel enc a).value).valid = true ∨
        ∃ i ∈ before, (Memory.read sentinel enc i).valid = true ∧
          (Memory.read sentinel enc i).value = (Memory.read sentinel enc a).value) := by
  induction is generalizing dec with
  | nil => simp [invertOver] at h
  | cons b is ih =>
    rw [invertOver] at h
    by_cases hv : (Memory.read sentinel enc b).valid = true
    · simp only [hv, if_true] at h
      by_cases hfree : (Memory.read sentinel dec (Memory.read sentinel enc b).value).valid = true
      · simp only [hfree, if_true, Prod.mk.injEq, Option.some.injEq] at h
        obtain ⟨-, rfl⟩ := h
        exact ⟨[], is, rfl, hv, .inl hfree⟩
      · simp only [hfree, Bool.false_eq_true, if_false] at h
        obtain ⟨before, after, rfl, hav, hcase⟩ :=
          ih (write_wf hwf (hval b (by simp) hv) _) (fun i hi => hval i (by simp [hi])) h
        refine ⟨b :: before, after, rfl, hav, ?_⟩
        rcases hcase with hcase | ⟨i, hi, hiv, heq⟩
        · by_cases hab : (Memory.read sentinel enc a).value = (Memory.read sentinel enc b).value
          · exact .inr ⟨b, by simp, hv, hab.symm⟩
          · rw [read_write_other hwf hab] at hcase
            exact .inl hcase
        · exact .inr ⟨i, by simp [hi], hiv, heq⟩
    · simp only [hv, Bool.false_eq_true, if_false] at h
      obtain ⟨before, after, rfl, hav, hcase⟩ := ih hwf (fun i hi => hval i (by simp [hi])) h
      refine ⟨b :: before, after, rfl, hav, ?_⟩
      rcases hcase with hcase | ⟨i, hi, hiv, heq⟩
      · exact .inl hcase
      · exact .inr ⟨i, by simp [hi], hiv, heq⟩

/-- With all values different and DEC free at each, the inversion finds no collision. -/
theorem invertOver_succeeds {enc : Memory TableEntry} {size : Nat} {is : List Nat} {dec : Memory TableEntry}
    (hnd : is.Nodup) (hwf : Memory.wf sentinel size dec = true)
    (hval : ∀ i ∈ is, (Memory.read sentinel enc i).valid = true → (Memory.read sentinel enc i).value < size)
    (hfree : ∀ i ∈ is, (Memory.read sentinel enc i).valid = true →
      (Memory.read sentinel dec (Memory.read sentinel enc i).value).valid = false)
    (hinj : ∀ i ∈ is, ∀ j ∈ is, (Memory.read sentinel enc i).valid = true →
      (Memory.read sentinel enc j).valid = true →
        (Memory.read sentinel enc i).value = (Memory.read sentinel enc j).value → i = j) :
    (invertOver enc is dec).2 = none := by
  rcases hr : invertOver enc is dec with ⟨dec', _ | a⟩
  · rfl
  · obtain ⟨before, after, rfl, hav, hcase⟩ := invertOver_some hwf hval hr
    have hmem : a ∈ before ++ a :: after := by simp
    rcases hcase with hcase | ⟨i, hi, hiv, heq⟩
    · rw [hfree a hmem hav] at hcase; simp at hcase
    · have := hinj i (by simp [hi]) a hmem hiv hav heq
      subst this
      exact absurd hi (List.nodup_middle.1 hnd |> fun h => by
        have := (List.nodup_cons.1 h).1
        simp at this
        exact this.1)

/-! ## The checks and `build` -/

/-- The alphabet checks pass exactly for a square number of representable symbols, no two equal, that ALPHA can hold
(R77). -/
theorem alphaCheck_ok_iff (s : State) :
    alphaCheck s = .ok () ↔
      s.alen ≠ 0 ∧ isqrt s.alen * isqrt s.alen = s.alen ∧ s.alen ≤ nmaxOf s.params ∧
        (∀ i < s.alen, (symbolAt s i).toNat < 0x80) ∧ ∀ i < s.alen, ∀ j < i, symbolAt s j ≠ symbolAt s i := by
  unfold alphaCheck
  by_cases h0 : s.alen = 0
  · simp [h0, raise]
  by_cases h1 : isqrt s.alen * isqrt s.alen = s.alen
  · by_cases h2 : nmaxOf s.params < s.alen
    · simp [h0, h1, h2]
    · have h2' : s.alen ≤ nmaxOf s.params := by omega
      simp only [h0, h1, h2, h2', ne_eq, not_true_eq_false, if_false, not_false_eq_true, true_and]
      cases h3 : (List.range s.alen).find? (fun i => decide (0x80 ≤ (symbolAt s i).toNat)) with
      | some i =>
        have hi := List.find?_some h3
        have hmem := List.mem_of_find?_eq_some h3
        simp only [decide_eq_true_eq] at hi
        simp only [raise, reduceCtorEq, false_iff, not_and, not_forall]
        intro hall
        have := hall i (List.mem_range.1 hmem)
        omega
      | none =>
        rw [List.find?_eq_none] at h3
        have h3' : ∀ i < s.alen, (symbolAt s i).toNat < 0x80 := by
          intro i hi
          have := h3 i (List.mem_range.2 hi)
          simp only [decide_eq_true_eq] at this
          omega
        cases h4 : (List.range s.alen).find? (fun i => duplicateAt s i) with
        | some i =>
          have hi := List.find?_some h4
          have hmem := List.mem_range.1 (List.mem_of_find?_eq_some h4)
          simp only [duplicateAt, List.any_eq_true, List.mem_range, beq_iff_eq] at hi
          obtain ⟨j, hj, heq⟩ := hi
          simp only [raise, reduceCtorEq, false_iff]
          exact fun hall => hall.2 i hmem j hj heq
        | none =>
          rw [List.find?_eq_none] at h4
          simp only [true_iff]
          refine ⟨h3', ?_⟩
          intro i hi j hj heq
          have := h4 i (List.mem_range.2 hi)
          simp only [duplicateAt, List.any_eq_true, List.mem_range, beq_iff_eq, not_exists, not_and] at this
          exact this j hj heq
  · simp [h0, h1, raise]

/-- The pad check passes exactly for an alphabet member (R78). -/
theorem padCheck_ok_iff (s : State) : padCheck s = .ok () ↔ (packByte s.pad s).valid = true := by
  unfold padCheck; split <;> simp_all [raise]

/-- The key checks pass exactly for 2N alphabet members (R79). -/
theorem keyCheck_ok_iff (s : State) :
    keyCheck s = .ok () ↔ s.klen = 2 * s.alen ∧ ∀ i < 2 * s.alen, (packByte (keyAt s i) s).valid = true := by
  unfold keyCheck
  by_cases h : s.klen = 2 * s.alen
  · simp only [h, ne_eq, not_true_eq_false, if_false, true_and]
    cases h3 : (List.range (2 * s.alen)).find? (fun i => !(packByte (keyAt s i) s).valid) with
    | some i =>
      have hi := List.find?_some h3
      have hmem := List.mem_range.1 (List.mem_of_find?_eq_some h3)
      simp only [Bool.not_eq_true'] at hi
      simp only [raise, reduceCtorEq, false_iff, not_forall]
      exact ⟨i, hmem, by simp [hi]⟩
    | none =>
      rw [List.find?_eq_none] at h3
      simp only [true_iff]
      intro i hi
      simpa using h3 i (List.mem_range.2 hi)
  · simp [h, raise]

/-- The state `build` has after `codec_build` (R76). -/
def withCodec (s : State) : State := writeCodec (invalidate s)

/-- The ENC that `build` populates (R76, R81). -/
def builtEnc (s : State) : Memory TableEntry :=
  populate (fillTables (withCodec s)) (isqrt s.alen) (clog2 s.alen) Memory.blank

/-- The steps after the checks succeed exactly when the inversion finds no collision. -/
theorem buildTables_done_iff (s t : State) :
    buildTables (withCodec s) = .done t ↔
      ∃ dec, invert (builtEnc s) (clog2 s.alen) Memory.blank = (dec, none) ∧
        t = { s with
          codec := codecBuild s.alpha s.alen, enc := builtEnc s, dec := dec,
          k := isqrt s.alen, b := clog2 s.alen, tv := true } := by
  have hstep : buildTables (withCodec s) =
      match invert (builtEnc s) (clog2 s.alen) Memory.blank with
      | (dec, some i) => .raised { code := .invalidKey, sub := 4, arg := i }
          { writeEnc (isqrt s.alen) (clog2 s.alen) (fillTables (withCodec s)) with dec := dec }
      | (dec, none) => .done (commit (isqrt s.alen) (clog2 s.alen)
          { writeEnc (isqrt s.alen) (clog2 s.alen) (fillTables (withCodec s)) with dec := dec }) := rfl
  rw [hstep]
  rcases invert (builtEnc s) (clog2 s.alen) Memory.blank with ⟨dec, _ | i⟩
  · simp only [Run.done.injEq, Prod.mk.injEq, and_true]
    constructor
    · rintro rfl; exact ⟨dec, rfl, rfl⟩
    · rintro ⟨_, rfl, rfl⟩; rfl
  · simp

/-- Everything a BUILD that succeeds does (R76, R83): all checks pass, the inversion finds no collision, and CODEC, ENC,
DEC, K, B and TV are written, nothing else. -/
theorem build_done_iff (s t : State) :
    build s = .done t ↔
      alphaCheck (invalidate s) = .ok () ∧ padCheck (withCodec s) = .ok () ∧ keyCheck (withCodec s) = .ok () ∧
        ∃ dec, invert (builtEnc s) (clog2 s.alen) Memory.blank = (dec, none) ∧
          t = { s with
            codec := codecBuild s.alpha s.alen, enc := builtEnc s, dec := dec,
            k := isqrt s.alen, b := clog2 s.alen, tv := true } := by
  have hdone : ∀ (u : State) (stop : Stop), stopAt u stop ≠ .done t := by
    intro u stop; cases stop <;> simp [stopAt]
  rw [← buildTables_done_iff]
  unfold build
  cases ha : alphaCheck (invalidate s) with
  | error stop => simp [hdone, ha]
  | ok _ =>
    simp only [ha, show writeCodec (invalidate s) = withCodec s from rfl, true_and]
    cases hp : padCheck (withCodec s) with
    | error stop => simp [hdone]
    | ok _ =>
      cases hk : keyCheck (withCodec s) with
      | error stop => simp [hdone]
      | ok _ => simp

end Sys2Proof.Machine
end

