-- ==== Sys2Proof/Laws/Decode.lean ====
section
/-! SUPPORT. Laws/Decode.lean: command words and their fields as numbers (30_encoding R56, R57), and what a mask test says
of a word. -/

namespace Sys2Proof

theorem toNat_encodeZ (o : BitVec 4) : (encodeZ o).toNat = o.toNat * 2 ^ 28 := by
  change (o ++ 0#28).toNat = _
  rw [BitVec.toNat_append, Nat.shiftLeft_eq]; simp

theorem toNat_encodeBY (o : BitVec 4) (b : Byte) : (encodeBY o b).toNat = o.toNat * 2 ^ 28 + b.toNat := by
  change (o ++ (0#20 ++ b)).toNat = _
  have hb : b.toNat < 2 ^ 28 := by have := b.isLt; omega
  rw [BitVec.toNat_append, BitVec.toNat_append, Nat.shiftLeft_eq, Nat.mul_comm]
  simp [← Nat.two_pow_add_eq_or_of_lt hb]

theorem toNat_encodeM (o : BitVec 4) (m : BitVec 1) : (encodeM o m).toNat = o.toNat * 2 ^ 28 + m.toNat := by
  change (o ++ (0#27 ++ m)).toNat = _
  have hb : m.toNat < 2 ^ 28 := by have := m.isLt; omega
  rw [BitVec.toNat_append, BitVec.toNat_append, Nat.shiftLeft_eq, Nat.mul_comm]
  simp [← Nat.two_pow_add_eq_or_of_lt hb]

theorem toNat_encodeCC (o : BitVec 4) (p q : Byte) :
    (encodeCC o p q).toNat = o.toNat * 2 ^ 28 + p.toNat * 2 ^ 8 + q.toNat := by
  change (o ++ (0#12 ++ (p ++ q))).toNat = _
  have hp := p.isLt
  have hq : q.toNat < 2 ^ 8 := q.isLt
  have hb : 2 ^ 8 * p.toNat + q.toNat < 2 ^ 28 := by omega
  rw [BitVec.toNat_append, BitVec.toNat_append, BitVec.toNat_append, Nat.shiftLeft_eq, Nat.shiftLeft_eq,
    Nat.shiftLeft_eq, Nat.mul_comm p.toNat, ← Nat.two_pow_add_eq_or_of_lt hq, Nat.mul_comm]
  simp only [BitVec.toNat_ofNat, Nat.zero_mod, Nat.zero_mul, Nat.zero_or]
  rw [← Nat.two_pow_add_eq_or_of_lt hb]
  ring

theorem toNat_opcField (w : Word) : (opcField w).toNat = w.toNat / 2 ^ 28 := by
  have := w.isLt
  simp only [opcField, BitVec.extractLsb'_toNat, Nat.shiftRight_eq_div_pow]
  omega

theorem toNat_lowField (w : Word) : (lowField w).toNat = w.toNat % 2 ^ 8 := by
  simp [lowField, BitVec.extractLsb'_toNat]

theorem toNat_highField (w : Word) : (highField w).toNat = w.toNat / 2 ^ 8 % 2 ^ 8 := by
  simp [highField, BitVec.extractLsb'_toNat, Nat.shiftRight_eq_div_pow]

theorem modeField_eq (w : Word) : modeField w = if w.toNat % 2 = 1 then .dec else .enc := by
  have : (w.extractLsb' 0 1 = 1#1) ↔ w.toNat % 2 = 1 := by
    rw [← BitVec.toNat_inj, BitVec.extractLsb'_toNat]; simp
  simp [modeField, this]

/-- Masking with all but the low `n` bits clears the low `n` bits. -/
theorem toNat_and_high_mask (w mask : Word) (n : Nat) (hn : n ≤ 32) (hmask : mask.toNat = 2 ^ 32 - 2 ^ n) :
    (w &&& mask).toNat = w.toNat / 2 ^ n * 2 ^ n := by
  rw [BitVec.toNat_and, hmask]
  apply Nat.eq_of_testBit_eq
  intro i
  rw [Nat.testBit_and, Nat.testBit_mul_two_pow, Nat.testBit_div_two_pow]
  have hm : (2 ^ 32 - 2 ^ n).testBit i = (decide (n ≤ i) && decide (i < 32)) := by
    have h1 : 2 ^ 32 - 2 ^ n = 2 ^ n * (2 ^ (32 - n) - 1) := by
      rw [Nat.mul_sub, ← Nat.pow_add, Nat.mul_one]; congr 2; omega
    rw [h1, Nat.testBit_two_pow_mul, Nat.testBit_two_pow_sub_one]
    by_cases h : n ≤ i
    · simp only [h, decide_true, Bool.true_and]; congr 1; simp only [eq_iff_iff]; omega
    · simp [h]
  rw [hm]
  by_cases h : n ≤ i
  · by_cases h32 : i < 32
    · simp [h, h32]
    · have : w.toNat.testBit i = false := Nat.testBit_lt_two_pow (lt_of_lt_of_le w.isLt (Nat.pow_le_pow_right (by norm_num) (by omega)))
      simp [h, h32, this]
  · simp [h]

/-- The mask test of a row whose mask leaves `n` operand bits, as a statement about the word's number (R58). -/
theorem mask_test_iff (w mask pattern : Word) (n : Nat) (hn : n ≤ 32) (hmask : mask.toNat = 2 ^ 32 - 2 ^ n)
    (hpattern : pattern.toNat % 2 ^ n = 0) : w &&& mask = pattern ↔ w.toNat / 2 ^ n = pattern.toNat / 2 ^ n := by
  rw [← BitVec.toNat_inj, toNat_and_high_mask w mask n hn hmask]
  have hp := Nat.div_add_mod pattern.toNat (2 ^ n)
  rw [hpattern, Nat.add_zero] at hp
  constructor
  · intro h
    rw [← h, Nat.mul_div_cancel _ (Nat.two_pow_pos n)]
  · intro h
    rw [h, Nat.mul_comm]; exact hp

end Sys2Proof
end

