-- ==== Sys2Proof/Laws/Engine.lean ====
section
/-! SUPPORT. Laws/Engine.lean: what the lookup, the code checks, `resolve` and the rules of DATA and END can do, said
once. -/

namespace Sys2Proof.Machine

/-- A code operand passes exactly when it is below N (R57). -/
theorem checkCode_ok_iff (sub c : Nat) (s : State) : checkCode sub c s = .ok () ↔ c < s.alen := by
  unfold checkCode; split <;> simp [raise] <;> omega

/-- A code operand of N or more raises BAD_CODE (R115). -/
theorem checkCode_of_le {sub c : Nat} {s : State} (h : s.alen ≤ c) : checkCode sub c s = raise .badCode sub c := by
  simp [checkCode, h]

/-- `unpack` answers the symbol of every code that ALPHA can hold (R66). -/
theorem unpackCode_ok_iff (c : Nat) (s : State) (v : Byte) :
    unpackCode c s = .ok v ↔ c < nmaxOf s.params ∧ Memory.read unlistedByte s.alpha c = v :=
  memRead_ok_iff _ _ _ _ _

/-- `lookup` answers the unpacked value of a valid entry (R88). -/
theorem lookup_ok_iff (m : Mode) (c1 c2 : Nat) (s : State) (o : Nat × Nat) :
    lookup m c1 c2 s = .ok o ↔
      pack2 s.b c1 c2 < tdepthOf s.params ∧
        (Memory.read sentinel (tableOf m s) (pack2 s.b c1 c2)).valid = true ∧
          o = unpack2 s.b (Memory.read sentinel (tableOf m s) (pack2 s.b c1 c2)).value := by
  unfold lookup memRead
  by_cases h : pack2 s.b c1 c2 < tdepthOf s.params
  · by_cases hv : (Memory.read sentinel (tableOf m s) (pack2 s.b c1 c2)).valid = true
    · simp [h, hv, bind, Except.bind, eq_comm]
    · simp [h, hv, bind, Except.bind, raise]
  · simp [h, bind, Except.bind]

/-- Everything a bigram query that answers does: both codes are below N, and RESULT holds the lookup's answer (R90,
R91). -/
theorem bigramQuery_ok_iff (m : Mode) (c1 c2 : Nat) (s t : State) :
    bigramQuery m c1 c2 s = .ok t ↔
      c1 < s.alen ∧ c2 < s.alen ∧
        ∃ o, lookup m c1 c2 s = .ok o ∧ t = { s with result := resultWord (codeByte o.1) (codeByte o.2) } := by
  unfold bigramQuery
  by_cases h1 : c1 < s.alen
  · by_cases h2 : c2 < s.alen
    · rw [(checkCode_ok_iff 1 c1 s).2 h1, (checkCode_ok_iff 2 c2 s).2 h2]
      cases hl : lookup m c1 c2 s with
      | error e => simp [bind, Except.bind]
      | ok o => simp [bind, Except.bind, h1, h2, eq_comm]
    · rw [(checkCode_ok_iff 1 c1 s).2 h1, checkCode_of_le (Nat.le_of_not_lt h2)]
      simp [bind, Except.bind, raise, h2]
  · rw [checkCode_of_le (Nat.le_of_not_lt h1)]
    simp [bind, Except.bind, raise, h1]

/-- What the emissions of a resolution leave (R92): the tokens in order, each counted, and PEND and CARRY emptied. -/
theorem emitBigram_eq (x1 x2 : Byte) (s : State) :
    emitBigram x1 x2 s =
      { s with
        out := s.out ++ (dataToken x1 :: (s.carry.map dataToken ++ [dataToken x2])),
        outCount := s.outCount + BitVec.ofNat 32 (s.carry.length + 2),
        pend := none, carry := [] } := by
  have hcount : ∀ (c : BitVec 32) (n : Nat),
      c + 1 + BitVec.ofNat 32 n + 1 = c + BitVec.ofNat 32 (n + 2) := by
    intro c n
    rw [BitVec.ofNat_add, BitVec.add_assoc c 1, BitVec.add_comm 1, ← BitVec.add_assoc, BitVec.add_assoc,
      BitVec.add_assoc]
    rfl
  simp [emitBigram, emitBytes_eq, emitByte, emit, ← hcount]

/-- Everything a resolution that answers does (R92). -/
theorem resolve_ok_iff (c1 c2 : Nat) (s t : State) :
    resolve c1 c2 s = .ok t ↔
      ∃ o x1 x2, lookup s.mode c1 c2 s = .ok o ∧ unpackCode o.1 s = .ok x1 ∧ unpackCode o.2 s = .ok x2 ∧
        t = emitBigram x1 x2 s := by
  unfold resolve
  cases hl : lookup s.mode c1 c2 s with
  | error e => simp [bind, Except.bind]
  | ok o =>
    cases h1 : unpackCode o.1 s with
    | error e => simp [bind, Except.bind, h1]
    | ok x1 =>
      cases h2 : unpackCode o.2 s with
      | error e => simp [bind, Except.bind, h1, h2]
      | ok x2 => simp [bind, Except.bind, h1, h2, eq_comm]

/-- Everything DATA's rule can do when it answers: R94's four cases, and IN_COUNT raised by one. -/
theorem dataByte_ok_iff (v : Byte) (s t : State) :
    dataByte v s = .ok t ↔
      ∃ u, t = { u with inCount := u.inCount + 1 } ∧
        (((packByte v s).valid = true ∧ s.pend = none ∧ u = { s with pend := some (packByte v s).code }) ∨
          ((packByte v s).valid = true ∧ ∃ c1, s.pend = some c1 ∧ resolve c1 (packByte v s).code s = .ok u) ∨
          ((packByte v s).valid = false ∧ s.pend = none ∧ u = emitByte v s) ∨
          ((packByte v s).valid = false ∧ s.pend ≠ none ∧ s.carry.length ≠ s.params.carryDepth ∧
            u = { s with carry := s.carry ++ [v] })) := by
  unfold dataByte
  cases hv : (packByte v s).valid with
  | true =>
    cases hp : s.pend with
    | none => simp [alphabetByte, hp, bind, Except.bind, eq_comm]
    | some c1 =>
      cases hr : resolve c1 (packByte v s).code s with
      | error e => simp [alphabetByte, hp, hr, bind, Except.bind]
      | ok u => simp [alphabetByte, hp, hr, bind, Except.bind, eq_comm]
  | false =>
    cases hp : s.pend with
    | none => simp [excludedByte, hp, bind, Except.bind, eq_comm]
    | some c1 =>
      by_cases hl : s.carry.length = s.params.carryDepth
      · simp [excludedByte, hp, hl, bind, Except.bind, raise]
      · simp [excludedByte, hp, hl, bind, Except.bind, eq_comm]

/-- Everything END's rule can do when it answers (R98): a pending code is resolved with PAD's, then EOS and IDLE. -/
theorem endOfStream_ok_iff (s t : State) :
    endOfStream s = .ok t ↔
      ∃ u, t = { emit eosMarker u with procState := .idle } ∧
        ((∃ c1, s.pend = some c1 ∧ resolve c1 (packByte s.pad s).code s = .ok u) ∨
          (s.pend = none ∧ s.carry = [] ∧ u = s)) := by
  unfold endOfStream padPending
  cases hp : s.pend with
  | none =>
    cases hc : s.carry with
    | nil => simp [bind, Except.bind, eq_comm]
    | cons x xs => simp [bind, Except.bind, raise]
  | some c1 =>
    cases hr : resolve c1 (packByte s.pad s).code s with
    | error e => simp [hr, bind, Except.bind]
    | ok u => simp [hr, bind, Except.bind, eq_comm]

end Sys2Proof.Machine
end

