-- ==== Sys2Proof/Laws/PerInstr.lean ====
section
/-! SUPPORT. Laws/PerInstr.lean: per-command facts about the encoding: each command's word matches its own row of the
opcode map (30_encoding R58). -/

namespace Sys2Proof.Laws

/-- The word of a command carries its row's OPC and passes its row's mask test (R58). -/
def EncodesItsRow.Statement (i : Instr) : Prop :=
  opcodeOf (opcField (encode i)) = some i.opcode ∧
    encode i &&& (opcodeRow i.opcode).mask = (opcodeRow i.opcode).pattern

theorem EncodesItsRow.nop : EncodesItsRow.Statement .nop := ⟨by decide, by decide⟩

theorem EncodesItsRow.clear : EncodesItsRow.Statement .clear := ⟨by decide, by decide⟩

theorem EncodesItsRow.build : EncodesItsRow.Statement .build := ⟨by decide, by decide⟩

theorem EncodesItsRow.endStream : EncodesItsRow.Statement .endStream := ⟨by decide, by decide⟩

theorem EncodesItsRow.abort : EncodesItsRow.Statement .abort := ⟨by decide, by decide⟩

theorem EncodesItsRow.errack : EncodesItsRow.Statement .errack := ⟨by decide, by decide⟩

/-- The OPC of a word with `o` in its top four bits and less than `2 ^ 28` below them. -/
theorem opcField_of_toNat {w : Word} {o : BitVec 4} {x : Nat} (h : w.toNat = o.toNat * 2 ^ 28 + x)
    (hx : x < 2 ^ 28) : opcField w = o := by
  rw [← BitVec.toNat_inj, toNat_opcField]; omega

/-- A BY or C word matches its row. -/
theorem encodeBY_row (o : BitVec 4) (b : Byte) (mask pattern : Word) (hmask : mask = 0xFFFFFF00)
    (hpattern : pattern.toNat = o.toNat * 2 ^ 28) :
    opcField (encodeBY o b) = o ∧ encodeBY o b &&& mask = pattern := by
  have hb := b.isLt
  refine ⟨opcField_of_toNat (toNat_encodeBY o b) (by omega), ?_⟩
  rw [mask_test_iff _ _ _ 8 (by norm_num) (by subst hmask; rfl) (by omega), toNat_encodeBY]
  omega

/-- A CC word matches its row. -/
theorem encodeCC_row (o : BitVec 4) (p q : Byte) (mask pattern : Word) (hmask : mask = 0xFFFF0000)
    (hpattern : pattern.toNat = o.toNat * 2 ^ 28) :
    opcField (encodeCC o p q) = o ∧ encodeCC o p q &&& mask = pattern := by
  have hp := p.isLt
  have hq := q.isLt
  refine ⟨opcField_of_toNat ((toNat_encodeCC o p q).trans (Nat.add_assoc _ _ _)) (by omega), ?_⟩
  rw [mask_test_iff _ _ _ 16 (by norm_num) (by subst hmask; rfl) (by omega), toNat_encodeCC]
  omega

theorem EncodesItsRow.apush (b : Byte) : EncodesItsRow.Statement (.apush b) := by
  obtain ⟨h1, h2⟩ := encodeBY_row 2#4 b _ _ rfl (by rfl : (opcodeRow .apush).pattern.toNat = _)
  exact ⟨by rw [show encode (.apush b) = encodeBY 2#4 b from rfl, h1]; rfl, h2⟩

theorem EncodesItsRow.kpush (b : Byte) : EncodesItsRow.Statement (.kpush b) := by
  obtain ⟨h1, h2⟩ := encodeBY_row 3#4 b _ _ rfl (by rfl : (opcodeRow .kpush).pattern.toNat = _)
  exact ⟨by rw [show encode (.kpush b) = encodeBY 3#4 b from rfl, h1]; rfl, h2⟩

theorem EncodesItsRow.setpad (b : Byte) : EncodesItsRow.Statement (.setpad b) := by
  obtain ⟨h1, h2⟩ := encodeBY_row 4#4 b _ _ rfl (by rfl : (opcodeRow .setpad).pattern.toNat = _)
  exact ⟨by rw [show encode (.setpad b) = encodeBY 4#4 b from rfl, h1]; rfl, h2⟩

theorem EncodesItsRow.start (m : Mode) : EncodesItsRow.Statement (.start m) := by cases m <;> exact ⟨by decide, by decide⟩

theorem EncodesItsRow.data (b : Byte) : EncodesItsRow.Statement (.data b) := by
  obtain ⟨h1, h2⟩ := encodeBY_row 7#4 b _ _ rfl (by rfl : (opcodeRow .data).pattern.toNat = _)
  exact ⟨by rw [show encode (.data b) = encodeBY 7#4 b from rfl, h1]; rfl, h2⟩

theorem EncodesItsRow.encb (c1 c2 : Nat) : EncodesItsRow.Statement (.encb c1 c2) := by
  obtain ⟨h1, h2⟩ := encodeCC_row 10#4 (BitVec.ofNat 8 c1) (BitVec.ofNat 8 c2) _ _ rfl
    (by rfl : (opcodeRow .encb).pattern.toNat = _)
  exact ⟨by rw [show encode (.encb c1 c2) = encodeCC 10#4 _ _ from rfl, h1]; rfl, h2⟩

theorem EncodesItsRow.decb (c1 c2 : Nat) : EncodesItsRow.Statement (.decb c1 c2) := by
  obtain ⟨h1, h2⟩ := encodeCC_row 11#4 (BitVec.ofNat 8 c1) (BitVec.ofNat 8 c2) _ _ rfl
    (by rfl : (opcodeRow .decb).pattern.toNat = _)
  exact ⟨by rw [show encode (.decb c1 c2) = encodeCC 11#4 _ _ from rfl, h1]; rfl, h2⟩

theorem EncodesItsRow.pack (b : Byte) : EncodesItsRow.Statement (.pack b) := by
  obtain ⟨h1, h2⟩ := encodeBY_row 12#4 b _ _ rfl (by rfl : (opcodeRow .pack).pattern.toNat = _)
  exact ⟨by rw [show encode (.pack b) = encodeBY 12#4 b from rfl, h1]; rfl, h2⟩

theorem EncodesItsRow.unpack (c : Nat) : EncodesItsRow.Statement (.unpack c) := by
  obtain ⟨h1, h2⟩ := encodeBY_row 13#4 (BitVec.ofNat 8 c) _ _ rfl (by rfl : (opcodeRow .unpack).pattern.toNat = _)
  exact ⟨by rw [show encode (.unpack c) = encodeBY 13#4 _ from rfl, h1]; rfl, h2⟩

end Sys2Proof.Laws
end

