-- ==== Sys2Proof/Tests/Slice0.lean ====
section
/-! SUPPORT. Tests/Slice0.lean: the model's own tests. Expected values come from the spec: words from the bit layout of
30_encoding R56 and R58, results from the vectors of 95_test_vectors (named C1, B2, E1, … as there). The theorems
`witness_…` show, for each statement with hypotheses, concrete states and operands that meet them. -/

namespace Sys2Proof.Tests

open Sys2Proof.Machine

set_option Elab.async false

/-! ## Fixtures -/

/-- A memory that holds the given bytes from index 0. -/
def byteMem (bs : List Byte) : Memory Byte := (List.range bs.length).zip bs

/-- A fresh block into which an alphabet, a key and a pad have been pushed. -/
def loaded (p : Params) (alphabet key : List Byte) (pad : Byte) : State :=
  { State.resetWith p with
    alen := alphabet.length, alpha := byteMem alphabet, klen := key.length, key := byteMem key, pad := pad }

/-- The state an outcome holds; the reset state where it holds none. -/
def after (o : Host.Outcome State Fault Refusal) : State :=
  match o with
  | .next s => s
  | .fault _ => State.reset
  | .refused _ => State.reset

/-- An outcome is a next state. -/
def isNext (o : Host.Outcome State Fault Refusal) : Bool :=
  match o with
  | .next _ => true
  | .fault _ => false
  | .refused _ => false

theorem next_of_isNext {o : Host.Outcome State Fault Refusal} (h : isNext o = true) : o = .next (after o) := by
  cases o <;> first | rfl | cases h

/-- "ABCD". -/
def abcdAlphabet : List Byte := [0x41, 0x42, 0x43, 0x44]

/-- "BADC" + "CDAB". -/
def abcdKey : List Byte := [0x42, 0x41, 0x44, 0x43, 0x43, 0x44, 0x41, 0x42]

/-- F-ABCD before its BUILD. -/
def abcdLoaded : State := loaded Params.default abcdAlphabet abcdKey 0x44

/-- F-ABCD. -/
def abcd : State := after (exec .build abcdLoaded)

/-- F-ABCD in a block with KMAX = 2 and CARRY_DEPTH = 1, where ALPHA and KEY are full. -/
def smallLoaded : State := loaded { kmax := 2, carryDepth := 1 } abcdAlphabet abcdKey 0x44

/-- `smallLoaded` after BUILD. -/
def small : State := after (exec .build smallLoaded)

/-- F-K1, "Z", in a block with KMAX = 1. -/
def oneLoaded : State := loaded { kmax := 1, carryDepth := 1 } [0x5A] [0x5A, 0x5A] 0x5A

/-- A state after commands, run one after the other. -/
def afterAll (is : List Instr) (s : State) : State := after (execAll is s)

/-- F-ABCD in an open stream. -/
def streaming : State := afterAll [.start .enc] abcd

/-- F-ABCD in an open stream, with 'B' (code 1) pending and one carried byte: CARRY is full. -/
def carrying : State := afterAll [.start .enc, .data 0x42, .data 0x2D] small

/-- A state in ERROR. -/
def failed : State := afterAll [.endStream] State.reset

/-- The words of the command channel after a host's writes. -/
def withWords (ws : List Word) (s : State) : State := { s with cmds := ws }

/-! ## WellFormed: each check refuses an ill-formed term (R57) -/

theorem test_wellFormed_encb_c1 : ¬WellFormed (.encb 256 0) ∧ WellFormed (.encb 255 0) := by decide
theorem test_wellFormed_encb_c2 : ¬WellFormed (.encb 0 256) ∧ WellFormed (.encb 0 255) := by decide
theorem test_wellFormed_decb_c1 : ¬WellFormed (.decb 256 0) ∧ WellFormed (.decb 255 0) := by decide
theorem test_wellFormed_decb_c2 : ¬WellFormed (.decb 0 256) ∧ WellFormed (.decb 0 255) := by decide
theorem test_wellFormed_unpack : ¬WellFormed (.unpack 256) ∧ WellFormed (.unpack 255) := by decide

/-! ## Decoding: words written out from R56 and R58, OPC, reserved bits and fields -/

theorem test_decode_nop : decode 0b0000_0000000000000000000000000000 = .ok .nop := by decide
theorem test_decode_clear : decode 0b0001_0000000000000000000000000000 = .ok .clear := by decide
theorem test_decode_apush : decode 0b0010_00000000000000000000_10000001 = .ok (.apush 0x81) := by decide
theorem test_decode_kpush : decode 0b0011_00000000000000000000_01000010 = .ok (.kpush 0x42) := by decide
theorem test_decode_setpad : decode 0b0100_00000000000000000000_01000100 = .ok (.setpad 0x44) := by decide
theorem test_decode_build : decode 0b0101_0000000000000000000000000000 = .ok .build := by decide
theorem test_decode_start_enc : decode 0b0110_000000000000000000000000000_0 = .ok (.start .enc) := by decide
theorem test_decode_start_dec : decode 0b0110_000000000000000000000000000_1 = .ok (.start .dec) := by decide
theorem test_decode_data : decode 0b0111_00000000000000000000_11111110 = .ok (.data 0xFE) := by decide
theorem test_decode_end : decode 0b1000_0000000000000000000000000000 = .ok .endStream := by decide
theorem test_decode_abort : decode 0b1001_0000000000000000000000000000 = .ok .abort := by decide
theorem test_decode_encb : decode 0b1010_000000000000_00000111_10000000 = .ok (.encb 7 128) := by decide
theorem test_decode_decb : decode 0b1011_000000000000_10000000_00000111 = .ok (.decb 128 7) := by decide
theorem test_decode_pack : decode 0b1100_00000000000000000000_01100001 = .ok (.pack 0x61) := by decide
theorem test_decode_unpack : decode 0b1101_00000000000000000000_00000011 = .ok (.unpack 3) := by decide
theorem test_decode_errack : decode 0b1110_0000000000000000000000000000 = .ok .errack := by decide

theorem test_decode_reserved_opcode : decode 0xF0000000 = .error .reservedOpcode := by decide

/-- One reserved bit set next to each field (R60). -/
theorem test_decode_reserved_bits :
    [0x00000001, 0x18000000, 0x20000100, 0x30000100, 0x40000100, 0x50000001, 0x60000002, 0x70000100, 0x80000001,
        0x90000001, 0xA0010000, 0xB0010000, 0xC0000100, 0xD0000100, 0xE0000001].map decode =
      List.replicate 15 (.error .reservedBits) := by decide

theorem test_encode_words :
    encode (.encb 7 8) = 0xA0000708 ∧ encode (.start .dec) = 0x60000001 ∧ encode (.unpack 3) = 0xD0000003 ∧
      encode .errack = 0xE0000000 := by decide

theorem test_decodeTableWord :
    decodeTableWord 32 0x60000001 = some (.start .dec) ∧ decodeTableWord 32 0xF0000000 = none := by decide

theorem test_withFetchWord_is_fetched :
    (after (step (State.reset.withFetchWord 32 0x20000041))).alen = 1 := by decide

/-- The assembler (R63, R64): an operand out of range is refused, a pseudo-instruction is expanded. -/
theorem test_assemble :
    assembleLine ['E', 'N', 'C', 'B', ' ', '2', '5', '6', ',', '0'] = none ∧
      assembleLine ['E', 'N', 'C', 'B', ' ', '2', '5', '5', ',', '0'] = some [.encb 255 0] ∧
        assembleLine ['T', 'E', 'X', 'T', ' ', '"', 'A', '-', '"'] = some [.data 0x41, .data 0x2D] := by decide +kernel

/-! ## Memory -/

theorem test_memory_write_read :
    Memory.read unlistedByte (Memory.write unlistedByte [(3, 0x41)] 1 0x42) 1 = 0x42 ∧
      Memory.write unlistedByte [(3, 0x41)] 3 0x00 = [] ∧
        Memory.wf unlistedByte 4 (Memory.write unlistedByte [(3, 0x41)] 1 0x42) = true := by decide

/-! ## One step of each command -/

/-- CMD_DONE is the only trace of a NOP (R106). -/
theorem test_nop : (after (exec .nop abcd)).cmdDone = abcd.cmdDone + 1 := by decide +kernel

/-- CLEAR of an open stream: CONFIG as after reset, and the ABORT marker (R107). -/
theorem test_clear :
    readRegister (after (exec .clear carrying)) 0x05 = 0x00200000 ∧
      (after (exec .clear carrying)).out = [0x101] := by decide +kernel

/-- C10: APUSH invalidates the tables and raises ALEN. -/
theorem test_apush : readRegister (after (exec (.apush 0x45) abcd)) 0x05 = 0x00440805 := by decide +kernel

/-- As C8: ALPHA is full. -/
theorem test_apush_full :
    readRegister (after (exec (.apush 0x42) oneLoaded)) 0x03 = 0x00010503 := by decide

/-- KPUSH writes at KLEN (R75). -/
theorem test_kpush :
    keyAt (after (exec (.kpush 0x45) abcd)) 8 = 0x45 ∧
      readRegister (after (exec (.kpush 0x45) abcd)) 0x05 = 0x00440904 := by decide +kernel

/-- B12: KEY is full. -/
theorem test_kpush_full :
    readRegister (after (exec (.kpush 0x41) oneLoaded)) 0x03 = 0x00020104 := by decide

/-- C9. -/
theorem test_setpad :
    readRegister (after (exec (.setpad 0x41) abcd)) 0x05 = 0x00410804 ∧
      readRegister (after (exec (.setpad 0x41) abcd)) 0x02 = 0 := by decide +kernel

/-- B1, and two entries of the table of 95_test_vectors 2.1. -/
theorem test_build :
    readRegister abcd 0x05 = 0x22440804 ∧ readRegister abcd 0x02 = 0x00000004 ∧
      Memory.read sentinel abcd.enc 8 = { valid := true, value := 0xE } ∧
        Memory.read sentinel abcd.dec 8 = { valid := true, value := 0xB } := by decide +kernel

/-- B2: KeyB holds 'A' twice. -/
theorem test_build_not_bijective :
    readRegister (after (exec .build (loaded Params.default abcdAlphabet
      [0x42, 0x41, 0x44, 0x43, 0x43, 0x44, 0x41, 0x41] 0x41))) 0x03 = 0x00060404 := by decide +kernel

/-- START opens a stream: STATUS is STREAM, TV and MODE (R93). -/
theorem test_start : readRegister (after (exec (.start .dec) abcd)) 0x02 = 0x00000015 := by decide +kernel

/-- 95_test_vectors 2.1: "AB" encrypts to "AC"; 2.3: an excluded byte keeps its place. -/
theorem test_data :
    (after (exec (.data 0x42) (afterAll [.data 0x41] streaming))).out = [0x41, 0x43] ∧
      (after (exec (.data 0x2D) streaming)).out = [0x2D] := by decide +kernel

/-- The carry of one byte is full: CARRY_OVERFLOW with ARG = CARRY_DEPTH (R97). -/
theorem test_data_overflow : readRegister (after (exec (.data 0x2D) carrying)) 0x03 = 0x00010007 := by decide +kernel

/-- 95_test_vectors 2.3: "A" is padded with 'D', and AD encrypts to AA. -/
theorem test_end : (after (exec .endStream (afterAll [.data 0x41] streaming))).out = [0x41, 0x41, 0x100] := by
  decide +kernel

/-- ABORT drops what is pending and keeps the tables (R99). -/
theorem test_abort :
    (after (exec .abort carrying)).out = [0x101] ∧ readRegister (after (exec .abort carrying)) 0x02 = 0x00000004 := by
  decide +kernel

/-- 95_test_vectors 2.1: ENCB 0, 1. -/
theorem test_encb : (after (exec (.encb 0 1) abcd)).result = 0x00010002 := by decide +kernel

/-- The table of 95_test_vectors 2.1: DEC[0xB] = 0xD, CD to DB. -/
theorem test_decb : (after (exec (.decb 2 3) abcd)).result = 0x00010301 := by decide +kernel

/-- C1 and C3. -/
theorem test_pack :
    (after (exec (.pack 0x43) abcd)).result = 0x00010002 ∧ (after (exec (.pack 0x61) abcd)).result = 0 := by
  decide +kernel

/-- C5. -/
theorem test_unpack : (after (exec (.unpack 3) abcd)).result = 0x00010044 := by decide +kernel

/-- C6. -/
theorem test_unpack_bad_code :
    readRegister (after (exec (.unpack 4) abcd)) 0x03 = 0x00040106 ∧
      readRegister (after (exec (.unpack 4) abcd)) 0x04 = 0xD0000004 ∧
        readRegister (after (exec (.unpack 4) abcd)) 0x02 = 0x00000006 := by decide +kernel

/-- ERRACK clears ERROR and STATUS (R108). -/
theorem test_errack :
    readRegister failed 0x02 = 0x00000002 ∧ readRegister (after (exec .errack failed)) 0x02 = 0 ∧
      readRegister (after (exec .errack failed)) 0x03 = 0 := by decide

/-! ## Witnesses: every statement's hypotheses can be met, each clause at a boundary of its range -/

theorem witness_DecodeUndoesEncode : WellFormed (.encb 255 255) ∧ WellFormed (.decb 0 0) ∧ WellFormed .nop := by decide

theorem witness_EncodeUndoesDecode :
    decode 0xA000FFFF = .ok (.encb 255 255) ∧ WellFormed (.encb 255 255) ∧ encode (.encb 255 255) = 0xA000FFFF := by decide

theorem witness_OperandsAreTheWordsFields :
    decode 0x200000FF = .ok (.apush 0xFF) ∧ decode 0xD00000FF = .ok (.unpack 255) := by decide

theorem witness_AssemblerNeverProducesIllegalWord :
    assembleWords [['U', 'N', 'P', 'A', 'C', 'K', ' ', '2', '5', '5'], ['E', 'N', 'D']] =
      some [0xD00000FF, 0x80000000] := by decide +kernel

/-- A line of a form at the largest codes, whose tokens are a mnemonic and its operands. -/
theorem witness_assembler_form :
    asmTokens 14 ['E', 'N', 'C', 'B', ' ', '2', '5', '5', ',', '2', '5', '5'] =
        some [.name ['E', 'N', 'C', 'B'], .number 255, .comma, .number 255] ∧
      asmOperands [.number 255, .comma, .number 255] = some [.number 255, .number 255] ∧
        AsmForm ['E', 'N', 'C', 'B'] [.number 255, .number 255] [.encb 255 255] :=
  ⟨by decide +kernel, by decide +kernel, .encb (by decide) (by decide)⟩

/-- `NOPE` is no mnemonic, `DATA 256` fits no byte field, and `START 2` names no mode. -/
theorem witness_assembler_refusals :
    (asmTokens 5 ['N', 'O', 'P', 'E'] = some [.name ['N', 'O', 'P', 'E']] ∧ asmOperands [] = some [] ∧
        ['N', 'O', 'P', 'E'] ∉ listedMnemonics) ∧
      (asmTokens 9 ['D', 'A', 'T', 'A', ' ', '2', '5', '6'] = some [.name ['D', 'A', 'T', 'A'], .number 256] ∧
        asmOperands [.number 256] = some [.number 256]) ∧
      (asmTokens 8 ['S', 'T', 'A', 'R', 'T', ' ', '2'] = some [.name ['S', 'T', 'A', 'R', 'T'], .number 2] ∧
        asmOperands [.number 2] = some [.number 2] ∧ AsmToken.number 2 ≠ .name ['E', 'N', 'C'] ∧
          AsmToken.number 2 ≠ .name ['D', 'E', 'C']) := by decide +kernel

theorem witness_StepRunsTheDecodedCommand :
    (withWords [0xE0000000, 0xF0000000] State.reset).cmds = [0xE0000000, 0xF0000000] ∧
      decode 0xE0000000 = .ok .errack := by decide

theorem witness_IdleBlockHoldsItsState : State.reset.cmds = [] := by decide

theorem witness_EveryWordIsCountedOnce :
    (withWords [0x00000000] State.reset).cmds = [0x00000000] ∧
      step (withWords [0x00000000] State.reset) = .next (after (step (withWords [0x00000000] State.reset))) := by
  refine ⟨by decide, next_of_isNext (by decide)⟩

theorem witness_CmdDoneCountsConsumedWords :
    2 ≤ (withWords [0x00000000, 0xF0000000] State.reset).cmds.length ∧
      core.run 2 (withWords [0x00000000, 0xF0000000] State.reset) =
        .next (after (core.run 2 (withWords [0x00000000, 0xF0000000] State.reset))) := by
  exact ⟨by decide, next_of_isNext (by decide)⟩

/-- A word written before a hardware reset is neither counted nor run after it (R49). -/
theorem witness_words_written_since_reset :
    isNext (eventAll [.write 0x20000041, .reset, .write 0x00000000, .command] (hardwareReset State.reset)) = true ∧
      writtenSinceReset [.write 0x20000041, .reset, .write 0x00000000, .command] 0 = 1 ∧
        (after (eventAll [.write 0x20000041, .reset, .write 0x00000000, .command] (hardwareReset State.reset))).cmdDone = 1 ∧
          (after (eventAll [.write 0x20000041, .reset, .write 0x00000000, .command]
            (hardwareReset State.reset))).alen = 0 := by decide

theorem witness_WordsRunInTheOrderWritten :
    State.reset.cmds = [] ∧ (withWords [0x20000041] State.reset).cmds ≠ [] ∧
      isNext (step (withWords [0x20000041] State.reset)) = true := by decide

theorem witness_IllegalWordRaisesIllegalCmd :
    (State.reset.procState ≠ .error ∧ (0xFFFFFFFF#32).extractLsb' 28 4 = 0xF#4) ∧
      streaming.procState ≠ .error ∧ (0xE0000001#32).extractLsb' 28 4 ≠ 0xF#4 ∧ ∀ i, decode 0xE0000001 ≠ .ok i := by
  refine ⟨by decide, by decide +kernel, by decide, fun i h => ?_⟩
  rw [show decode 0xE0000001 = .error .reservedBits by decide] at h
  cases h

theorem witness_ErrorStateDiscardsWords :
    failed.procState = .error ∧ decode 0x00000000 ≠ .ok .clear ∧ decode 0x00000000 ≠ .ok .errack ∧
      decode 0xF0000000 ≠ .ok .clear ∧ decode 0xF0000000 ≠ .ok .errack := by decide

theorem witness_BadStateExactlyInItsCells :
    (State.reset.procState = .idle ∧ State.reset.tv = false) ∧ (abcd.procState = .idle ∧ abcd.tv = true) ∧
      (streaming.procState = .stream ∧ streaming.tv = true) ∧
        isNext (exec .endStream State.reset) = true ∧ State.reset.errCode ≠ 2 ∧
          (after (exec .endStream State.reset)).errCode = 2 := by decide +kernel

theorem witness_ErrorsArePrecise :
    (isNext (exec (.unpack 4) streaming) = true ∧ (after (exec (.unpack 4) streaming)).procState = .error) ∧
      (State.reset.procState = .idle ∧ isNext (exec .build State.reset) = true ∧
        (after (exec .build State.reset)).procState = .error) ∧
        (isNext (exec .build streaming) = true ∧ (after (exec .build streaming)).procState = .error) := by
  decide +kernel

theorem witness_ApushAppendsSymbol :
    (Memory.wf unlistedByte (nmaxOf oneLoaded.params) oneLoaded.alpha = true ∧ oneLoaded.procState = .idle ∧
        oneLoaded.alen = nmaxOf oneLoaded.params) ∧
      (Memory.wf unlistedByte (nmaxOf State.reset.params) State.reset.alpha = true ∧ State.reset.procState = .idle ∧
        State.reset.alen < nmaxOf State.reset.params) ∧
      (Memory.wf unlistedByte (nmaxOf streaming.params) streaming.alpha = true ∧ streaming.procState = .stream ∧
        streaming.tv = true) := by decide +kernel

theorem witness_KpushAppendsSymbol :
    (Memory.wf unlistedByte (2 * nmaxOf oneLoaded.params) oneLoaded.key = true ∧ oneLoaded.procState = .idle ∧
        oneLoaded.klen = 2 * nmaxOf oneLoaded.params) ∧
      (Memory.wf unlistedByte (2 * nmaxOf State.reset.params) State.reset.key = true ∧ State.reset.procState = .idle ∧
        State.reset.klen < 2 * nmaxOf State.reset.params) ∧
      (Memory.wf unlistedByte (2 * nmaxOf streaming.params) streaming.key = true ∧ streaming.procState = .stream ∧
        streaming.tv = true) := by decide +kernel

theorem witness_SetpadWritesPad_StartOpensAStream :
    (State.reset.procState = .idle ∧ State.reset.tv = false) ∧ (abcd.procState = .idle ∧ abcd.tv = true) ∧
      (streaming.procState = .stream ∧ streaming.tv = true) := by decide +kernel

theorem witness_BuildOfLegalConfigurationSucceeds :
    (oneLoaded.procState = .idle ∧ LegalAlphabet oneLoaded 1 ∧ PadInAlphabet oneLoaded ∧ KeyFromAlphabet oneLoaded ∧
        HalvesPermutations oneLoaded) ∧
      (smallLoaded.procState = .idle ∧ LegalAlphabet smallLoaded 2 ∧ PadInAlphabet smallLoaded ∧
        KeyFromAlphabet smallLoaded ∧ HalvesPermutations smallLoaded) :=
  ⟨by decide +kernel, by decide +kernel⟩

/-- Subcode 1, subcode 2 (two symbols), subcode 3 at the first and at the last index, subcode 4 at the lowest index a
duplicate can have and at the last. -/
theorem witness_BuildChecksTheAlphabet :
    State.reset.alen = 0 ∧
      (∃ s : State, s.procState = .idle ∧ s.alen ≠ 0 ∧ ∀ k, k * k ≠ s.alen) ∧
      (∃ s : State, s.procState = .idle ∧ s.alen = 1 * 1 ∧ s.alen ≤ nmaxOf s.params ∧ 0x80 ≤ (symbolAt s 0).toNat) ∧
      (∃ s : State, s.procState = .idle ∧ s.alen = 2 * 2 ∧ s.alen ≤ nmaxOf s.params ∧ 0x80 ≤ (symbolAt s 3).toNat ∧
        ∀ j < 3, (symbolAt s j).toNat < 0x80) ∧
      (∃ s : State, s.procState = .idle ∧ s.alen = 2 * 2 ∧ s.alen ≤ nmaxOf s.params ∧
        (∀ j < s.alen, (symbolAt s j).toNat < 0x80) ∧ (∃ j < 1, symbolAt s j = symbolAt s 1) ∧
          ∀ a < 1, ∀ j < a, symbolAt s j ≠ symbolAt s a) ∧
      (∃ s : State, s.procState = .idle ∧ s.alen = 2 * 2 ∧ s.alen ≤ nmaxOf s.params ∧
        (∀ j < s.alen, (symbolAt s j).toNat < 0x80) ∧ (∃ j < 3, symbolAt s j = symbolAt s 3) ∧
          ∀ a < 3, ∀ j < a, symbolAt s j ≠ symbolAt s a) := by
  refine ⟨by decide, ⟨loaded Params.default [0x41, 0x42] [] 0x41, by decide, by decide, ?_⟩,
    ⟨loaded Params.default [0x80] [] 0x41, by decide⟩,
    ⟨loaded Params.default [0x41, 0x42, 0x43, 0xFF] [] 0x41, by decide⟩,
    ⟨loaded Params.default [0x41, 0x41, 0x42, 0x43] [] 0x41, by decide⟩,
    ⟨loaded Params.default [0x41, 0x42, 0x43, 0x41] [] 0x41, by decide⟩⟩
  intro k h
  have hk : k * k = 2 := h
  rcases Nat.lt_or_ge k 2 with h2 | h2
  · interval_cases k <;> omega
  · nlinarith

/-- The pad check, the key length check, and the first and the last index of the key symbol check. -/
theorem witness_BuildChecksPadAndKey :
    (∃ s : State, s.procState = .idle ∧ LegalAlphabet s 2 ∧ ¬PadInAlphabet s) ∧
      (∃ s : State, s.procState = .idle ∧ LegalAlphabet s 2 ∧ PadInAlphabet s ∧ s.klen ≠ 2 * s.alen) ∧
      (∃ s : State, s.procState = .idle ∧ LegalAlphabet s 2 ∧ PadInAlphabet s ∧ s.klen = 2 * s.alen ∧
        ∀ j < s.alen, symbolAt s j ≠ keyAt s 0) ∧
      (∃ s : State, s.procState = .idle ∧ LegalAlphabet s 2 ∧ PadInAlphabet s ∧ s.klen = 2 * s.alen ∧
        (∀ j < s.alen, symbolAt s j ≠ keyAt s 7) ∧ ∀ a < 7, ∃ j < s.alen, symbolAt s j = keyAt s a) := by
  refine ⟨⟨loaded Params.default abcdAlphabet abcdKey 0x20, by decide +kernel⟩,
    ⟨loaded Params.default abcdAlphabet [0x42] 0x41, by decide +kernel⟩,
    ⟨loaded Params.default abcdAlphabet [0x78, 0x41, 0x44, 0x43, 0x43, 0x44, 0x41, 0x42] 0x41, by decide +kernel⟩,
    ⟨loaded Params.default abcdAlphabet [0x42, 0x41, 0x44, 0x43, 0x43, 0x44, 0x41, 0x78] 0x41, by decide +kernel⟩⟩

/-- A symbol twice in KeyA, and a symbol twice in KeyB. -/
theorem witness_BuildRefusesNonPermutationKey :
    (∃ s : State, s.procState = .idle ∧ LegalAlphabet s 2 ∧ PadInAlphabet s ∧ KeyFromAlphabet s ∧
        ¬HalvesPermutations s ∧ keyAt s 0 = keyAt s 1) ∧
      (∃ s : State, s.procState = .idle ∧ LegalAlphabet s 2 ∧ PadInAlphabet s ∧ KeyFromAlphabet s ∧
        ¬HalvesPermutations s ∧ keyAt s 6 = keyAt s 7) := by
  refine ⟨⟨loaded Params.default abcdAlphabet [0x42, 0x42, 0x44, 0x43, 0x43, 0x44, 0x41, 0x42] 0x41, by decide +kernel⟩,
    ⟨loaded Params.default abcdAlphabet [0x42, 0x41, 0x44, 0x43, 0x43, 0x44, 0x41, 0x41] 0x41, by decide +kernel⟩⟩

/-- For the statements about built tables and about all states that keep the invariants. -/
theorem witness_Inv : Inv State.reset ∧ Inv abcd ∧ Inv small ∧ abcd.tv = true ∧ small.tv = true :=
  ⟨by decide, by decide +kernel, by decide +kernel, by decide +kernel, by decide +kernel⟩

theorem witness_Inv_streams :
    Inv streaming ∧ streaming.procState = .stream ∧ Inv carrying ∧ carrying.procState = .stream :=
  ⟨by decide +kernel, by decide +kernel, by decide +kernel, by decide +kernel⟩

theorem witness_TablesAreInverseBijections : validIndex abcd 0 ∧ validIndex abcd 15 ∧ ¬validIndex abcd 16 := by
  unfold validIndex; decide +kernel

theorem witness_PackQueriesTheCodec :
    (abcd.procState ≠ .error ∧ abcd.tv = true ∧ symbolAt abcd 3 = 0x44 ∧ 3 < abcd.alen) ∧
      (∀ i < abcd.alen, symbolAt abcd i ≠ 0x61) ∧ (State.reset.procState = .idle ∧ State.reset.tv = false) := by
  decide +kernel

/-- UNPACK, ENCB and DECB, in IDLE and in STREAM: the largest code in range and the smallest out of range. -/
theorem witness_code_operands :
    (abcd.procState ≠ .error ∧ abcd.tv = true ∧ 3 < abcd.alen ∧ abcd.alen ≤ 4 ∧ abcd.alen ≤ nmaxOf abcd.params) ∧
      (streaming.procState ≠ .error ∧ streaming.tv = true ∧ 3 < streaming.alen ∧ streaming.alen ≤ 4) := by
  decide +kernel

/-- DATA of an alphabet byte with nothing pending and with a code pending, of an excluded byte with nothing pending, with
room in CARRY, and with CARRY full. -/
theorem witness_data :
    (3 < streaming.alen ∧ streaming.pend = none ∧ ∀ i < streaming.alen, symbolAt streaming i ≠ 0x2D) ∧
      (0 < carrying.alen ∧ carrying.pend = some 1 ∧ (∀ i < carrying.alen, symbolAt carrying i ≠ 0xFF) ∧
        carrying.carry.length = carrying.params.carryDepth) ∧
      (Inv (afterAll [.data 0x44] streaming) ∧ (afterAll [.data 0x44] streaming).procState = .stream ∧
        (∀ i < (afterAll [.data 0x44] streaming).alen, symbolAt (afterAll [.data 0x44] streaming) i ≠ 0x2D) ∧
        (afterAll [.data 0x44] streaming).pend = some 3 ∧
          (afterAll [.data 0x44] streaming).carry.length ≠ (afterAll [.data 0x44] streaming).params.carryDepth) :=
  ⟨by decide +kernel, by decide +kernel, by decide +kernel, by decide +kernel⟩

theorem witness_EndPadsAndClosesTheStream :
    (streaming.procState = .stream ∧ streaming.pend = none) ∧
      (carrying.procState = .stream ∧ carrying.pend = some 1) ∧
      (State.reset.procState = .idle ∧ State.reset.tv = false) ∧ (abcd.procState = .idle ∧ abcd.tv = true) := by
  decide +kernel

/-- For the three statements about whole streams: an empty stream, and a pair that just fits a carry of one byte. -/
theorem witness_whole_streams :
    (Inv small ∧ small.procState = .idle ∧ small.tv = true) ∧ CarryFits small [] ∧
      CarryFits small [0x2D, 0x41, 0x2D, 0x42, 0x43] ∧ ¬CarryFits small [0x41, 0x2D, 0x2D, 0x42] ∧
        isNext (execAll (streamCommands .dec [0x2D, 0x41, 0x2D, 0x42, 0x43]) small) = true :=
  ⟨⟨by decide +kernel, by decide +kernel⟩, by decide +kernel, by decide +kernel, by decide +kernel, by decide +kernel⟩

/-- For the statements over all commands: commands that do change what each clause speaks of. -/
theorem witness_MemoriesWrittenOnlyByTheirCommands :
    isNext (exec (.apush 0x41) State.reset) = true ∧ (after (exec (.apush 0x41) State.reset)).alpha ≠ State.reset.alpha ∧
      (after (exec (.kpush 0x41) State.reset)).key ≠ State.reset.key ∧ isNext (exec .build abcdLoaded) = true ∧
        abcd.codec ≠ abcdLoaded.codec ∧ abcd.enc ≠ abcdLoaded.enc ∧ abcd.dec ≠ abcdLoaded.dec ∧
          (after (exec (.apush 0x41) State.reset)).alen ≠ State.reset.alen ∧
            (after (exec (.kpush 0x41) State.reset)).klen ≠ State.reset.klen ∧
              (after (exec (.setpad 0x41) State.reset)).pad ≠ State.reset.pad := by decide +kernel

theorem witness_ResultWrittenOnlyByQueries :
    isNext (exec (.pack 0x41) abcd) = true ∧ (after (exec (.pack 0x41) abcd)).result ≠ abcd.result := by decide +kernel

theorem witness_ModeWrittenOnlyByStartAndClear :
    isNext (exec (.start .dec) abcd) = true ∧ (after (exec (.start .dec) abcd)).mode ≠ abcd.mode := by decide +kernel

theorem witness_TablesValidChangesOnlyWith :
    (abcdLoaded.tv = false ∧ isNext (exec .build abcdLoaded) = true ∧ abcd.tv = true ∧ abcd.k ≠ abcdLoaded.k) ∧
      (isNext (exec (.setpad 0x41) abcd) = true ∧ (after (exec (.setpad 0x41) abcd)).tv = false) := by decide +kernel

/-- START, and a DATA that emits the pair, the carry between. -/
theorem witness_StreamCountsCountBytes :
    (isNext (exec (.start .enc) abcd) = true ∧ abcd.procState = .idle ∧
        (after (exec (.start .enc) abcd)).procState = .stream ∧ (after (exec (.start .enc) abcd)).out = abcd.out ++ []) ∧
      (isNext (exec (.data 0x41) carrying) = true ∧ (after (exec (.data 0x41) carrying)).procState = .stream ∧
        (after (exec (.data 0x41) carrying)).out = carrying.out ++ [0x42, 0x2D, 0x44]) := by decide +kernel

theorem witness_StreamEndsWithExactlyOneMarker :
    isNext (exec .endStream streaming) = true ∧ (after (exec .endStream streaming)).procState = .idle ∧
      isNext (exec .abort streaming) = true ∧ (after (exec .abort streaming)).procState ≠ .stream := by decide +kernel

theorem witness_UnlistedRegistersReadZero : 0x0C ≤ (0x0C#8).toNat ∧ 0x0C ≤ (0xFF#8).toNat := by decide

theorem witness_ReadDuringCommandIsTheOldState : State.reset.busy = false ∧ abcd.busy = false := by decide +kernel

theorem witness_TakingATokenCommutesWithAStep :
    hostTake (withWords [0x00000000] { State.reset with out := [0x41, 0x101] }) =
        some (0x41, withWords [0x00000000] { State.reset with out := [0x101] }) ∧
      isNext (step (withWords [0x00000000] { State.reset with out := [0x41, 0x101] })) = true := by decide

theorem witness_InvariantsHoldAtReset :
    ({ kmax := 1, carryDepth := 1 } : Params).Legal ∧ ({ kmax := 11, carryDepth := 65535 } : Params).Legal := by decide

/-- Two states that differ in an ALPHA entry at ALEN, and agree in what can be observed. -/
theorem witness_UnspecifiedMemoryIsUnobservable :
    Inv State.reset ∧ Inv { State.reset with alpha := [(0, 0x41)] } ∧
      State.reset ≠ { State.reset with alpha := [(0, 0x41)] } ∧
        observablePart State.reset = observablePart { State.reset with alpha := [(0, 0x41)] } :=
  ⟨by decide, by decide, by decide, by decide⟩

end Sys2Proof.Tests
end

section
/-! Proofs: what a configuration that passes BUILD's checks makes of the codec and the tables (40_codec R68,
41_table_builder R81 to R84), and what the engine then answers (42_bigram_engine R88). -/

namespace Sys2Proof.Machine

/-- The inversion writes inside DEC only, whether or not it finds a collision (R82). -/
theorem invertOver_wf {enc : Memory TableEntry} {size : Nat} (is : List Nat) {dec : Memory TableEntry}
    (hwf : Memory.wf sentinel size dec = true)
    (hval : ∀ i ∈ is, (Memory.read sentinel enc i).valid = true → (Memory.read sentinel enc i).value < size) :
    Memory.wf sentinel size (invertOver enc is dec).1 = true := by
  induction is generalizing dec with
  | nil => exact hwf
  | cons i is ih =>
    have hrest := fun j hj => hval j (List.mem_cons_of_mem i hj)
    rw [invertOver]
    split
    · rename_i hv
      split
      · exact hwf
      · exact ih (write_wf hwf (hval i List.mem_cons_self hv) _) hrest
    · exact ih hwf hrest

/-- The configuration passes all checks of BUILD (R77 to R79). -/
structure ChecksPass (s : State) : Prop where
  alpha : alphaCheck (invalidate s) = .ok ()
  pad : padCheck (withCodec s) = .ok ()
  key : keyCheck (withCodec s) = .ok ()

/-- The codes that `populate` pairs with the plaintext codes `p1` and `p2` (R81). -/
def builtPair (s : State) (p1 p2 : Nat) : Nat × Nat :=
  (square1 (withCodec s) (isqrt s.alen) (p1 / isqrt s.alen) (p2 % isqrt s.alen),
    square2 (withCodec s) (isqrt s.alen) (p2 / isqrt s.alen) (p1 % isqrt s.alen))

namespace ChecksPass

variable {s : State}

theorem alen_pos (h : ChecksPass s) : 0 < s.alen := Nat.pos_of_ne_zero ((alphaCheck_ok_iff _).1 h.alpha).1

/-- N is a square (R77). -/
theorem side_mul_side (h : ChecksPass s) : isqrt s.alen * isqrt s.alen = s.alen :=
  ((alphaCheck_ok_iff _).1 h.alpha).2.1

theorem side_pos (h : ChecksPass s) : 0 < isqrt s.alen :=
  Nat.pos_of_mul_pos_left (h.side_mul_side ▸ h.alen_pos)

theorem alen_le (h : ChecksPass s) : s.alen ≤ nmaxOf s.params := by
  obtain ⟨-, -, hle, -⟩ := (alphaCheck_ok_iff _).1 h.alpha
  exact hle

/-- No symbol occurs twice (R77). -/
theorem symbolAt_inj (h : ChecksPass s) :
    ∀ i < s.alen, ∀ j < s.alen, symbolAt s i = symbolAt s j → i = j := by
  obtain ⟨-, -, -, -, hdup⟩ := (alphaCheck_ok_iff _).1 h.alpha
  intro i hi j hj heq
  rcases Nat.lt_trichotomy i j with hij | hij | hij
  · exact absurd heq (hdup j hj i hij)
  · exact hij
  · exact absurd heq.symm (hdup i hi j hij)

/-- The code of an alphabet byte is below N (R38, R65). -/
theorem code_lt (h : ChecksPass s) {v : Byte} (hv : (packByte v (withCodec s)).valid = true) :
    (packByte v (withCodec s)).code < s.alen := by
  obtain ⟨i, hi, -, hread⟩ := codecBuild_valid s.alpha s.alen v h.symbolAt_inj hv
  have hpack : packByte v (withCodec s) = { valid := true, code := i } := hread
  rw [hpack]
  exact hi

/-- The key has 2N symbols (R79). -/
theorem klen_eq (h : ChecksPass s) : s.klen = 2 * s.alen := ((keyCheck_ok_iff _).1 h.key).1

/-- Every key symbol has a code below N (R79). -/
theorem keyAt_code_lt (h : ChecksPass s) {i : Nat} (hi : i < 2 * s.alen) :
    (packByte (keyAt s i) (withCodec s)).code < s.alen :=
  h.code_lt (((keyCheck_ok_iff _).1 h.key).2 i hi)

/-- N symbols are at most as many as the packed-code width can number. -/
theorem side_mul_side_le (h : ChecksPass s) : isqrt s.alen * isqrt s.alen ≤ 2 ^ clog2 s.alen :=
  h.side_mul_side.symm ▸ le_two_pow_clog2 s.alen

/-- A code below N fits the packed-code width. -/
theorem lt_two_pow_of_lt_alen {c : Nat} (hc : c < s.alen) : c < 2 ^ clog2 s.alen :=
  lt_of_lt_of_le hc (le_two_pow_clog2 s.alen)

/-- Both squares hold codes below N (R39). -/
theorem builtPair_lt (h : ChecksPass s) {p1 p2 : Nat} (h1 : p1 < s.alen) (h2 : p2 < s.alen) :
    (builtPair s p1 p2).1 < s.alen ∧ (builtPair s p1 p2).2 < s.alen := by
  have hsq := h.side_mul_side
  have cell_lt : ∀ {p q : Nat}, p < s.alen → p / isqrt s.alen * isqrt s.alen + q % isqrt s.alen < s.alen := by
    intro p q hp
    have hrow : p / isqrt s.alen < isqrt s.alen := Nat.div_lt_of_lt_mul (hsq.symm ▸ hp)
    have := square0_lt hrow (Nat.mod_lt q h.side_pos)
    rwa [hsq] at this
  have hA := cell_lt (q := p2) h1
  have hB := cell_lt (q := p1) h2
  exact ⟨h.keyAt_code_lt (by omega), h.keyAt_code_lt (by simp only [withCodec, writeCodec, invalidate]; omega)⟩

/-- ENC's index space lies within the tables (R41). -/
theorem index_space_le (h : ChecksPass s) : 2 ^ (2 * clog2 s.alen) ≤ tdepthOf s.params :=
  index_space_le_tdepth h.alen_le

theorem builtEnc_wf (h : ChecksPass s) : Memory.wf sentinel (tdepthOf s.params) (builtEnc s) = true :=
  populate_wf _ h.side_mul_side_le h.index_space_le (wf_blank _ _)

/-- The built ENC maps a plaintext bigram to its pair (R81, R84). -/
theorem builtEnc_read (h : ChecksPass s) {p1 p2 : Nat} (h1 : p1 < s.alen) (h2 : p2 < s.alen) :
    Memory.read sentinel (builtEnc s) (pack2 (clog2 s.alen) p1 p2) =
      { valid := true, value := pack2 (clog2 s.alen) (builtPair s p1 p2).1 (builtPair s p1 p2).2 } := by
  have hsq := h.side_mul_side
  exact populate_read_codes _ h.side_mul_side_le h.index_space_le (wf_blank _ _) (hsq.symm ▸ h1) (hsq.symm ▸ h2)

/-- The built ENC is valid at the indices of plaintext bigrams only (R41, R84). -/
theorem builtEnc_valid (h : ChecksPass s) {v : Nat} (hv : (Memory.read sentinel (builtEnc s) v).valid = true) :
    ∃ p1 p2, p1 < s.alen ∧ p2 < s.alen ∧ v = pack2 (clog2 s.alen) p1 p2 := by
  refine ⟨(unpack2 (clog2 s.alen) v).1, (unpack2 (clog2 s.alen) v).2, ?_⟩
  by_cases hin : (unpack2 (clog2 s.alen) v).1 < s.alen ∧ (unpack2 (clog2 s.alen) v).2 < s.alen
  · exact ⟨hin.1, hin.2, (pack2_unpack2 _ _).symm⟩
  · have hread : Memory.read sentinel (builtEnc s) v = sentinel :=
      populate_read_other _ h.side_mul_side_le h.index_space_le (wf_blank _ _) (h.side_mul_side.symm ▸ hin)
    rw [hread] at hv
    exact absurd hv (by decide)

/-- The values of the built ENC are indices of DEC (R41). -/
theorem builtEnc_value_lt (h : ChecksPass s) {v : Nat} (hv : (Memory.read sentinel (builtEnc s) v).valid = true) :
    (Memory.read sentinel (builtEnc s) v).value < tdepthOf s.params := by
  obtain ⟨p1, p2, h1, h2, rfl⟩ := h.builtEnc_valid hv
  obtain ⟨ho1, ho2⟩ := h.builtPair_lt h1 h2
  rw [h.builtEnc_read h1 h2]
  exact lt_of_lt_of_le (pack2_lt (lt_two_pow_of_lt_alen ho1) (lt_two_pow_of_lt_alen ho2)) h.index_space_le

theorem invert_wf (h : ChecksPass s) :
    Memory.wf sentinel (tdepthOf s.params) (invert (builtEnc s) (clog2 s.alen) Memory.blank).1 = true :=
  invertOver_wf _ (wf_blank _ _) fun _ _ => h.builtEnc_value_lt

/-- The index of a plaintext bigram is one that the inversion visits (R82). -/
theorem pack2_mem_range {p1 p2 : Nat} (h1 : p1 < s.alen) (h2 : p2 < s.alen) :
    pack2 (clog2 s.alen) p1 p2 ∈ List.range (2 ^ (2 * clog2 s.alen)) :=
  List.mem_range.2 (pack2_lt (lt_two_pow_of_lt_alen h1) (lt_two_pow_of_lt_alen h2))

section Inverted

variable {dec : Memory TableEntry}

/-- With no collision, DEC maps each pair back to its plaintext bigram (R82). -/
theorem dec_read_builtPair (h : ChecksPass s)
    (hdec : invert (builtEnc s) (clog2 s.alen) Memory.blank = (dec, none)) {p1 p2 : Nat} (h1 : p1 < s.alen)
    (h2 : p2 < s.alen) :
    Memory.read sentinel dec (pack2 (clog2 s.alen) (builtPair s p1 p2).1 (builtPair s p1 p2).2) =
      { valid := true, value := pack2 (clog2 s.alen) p1 p2 } := by
  obtain ⟨-, hback, -, -⟩ := invertOver_none (size := tdepthOf s.params) List.nodup_range (wf_blank _ _)
    (fun _ _ => h.builtEnc_value_lt) hdec
  have hread := h.builtEnc_read h1 h2
  simpa [hread] using (hback _ (pack2_mem_range h1 h2) (by rw [hread])).2

/-- With no collision, different plaintext bigrams have different pairs (R82, R85). -/
theorem builtPair_inj (h : ChecksPass s)
    (hdec : invert (builtEnc s) (clog2 s.alen) Memory.blank = (dec, none)) {p1 p2 q1 q2 : Nat} (hp1 : p1 < s.alen)
    (hp2 : p2 < s.alen) (hq1 : q1 < s.alen) (hq2 : q2 < s.alen) (heq : builtPair s p1 p2 = builtPair s q1 q2) :
    p1 = q1 ∧ p2 = q2 := by
  have hp := h.dec_read_builtPair hdec hp1 hp2
  rw [heq, h.dec_read_builtPair hdec hq1 hq2] at hp
  injection hp with _ hvalue
  exact (pack2_inj (lt_two_pow_of_lt_alen hp2) (lt_two_pow_of_lt_alen hq2)).1 hvalue.symm

/-- `builtPair` as a map of the finitely many bigrams to themselves. -/
def finPair (h : ChecksPass s) (p : Fin s.alen × Fin s.alen) : Fin s.alen × Fin s.alen :=
  (⟨(builtPair s p.1 p.2).1, (h.builtPair_lt p.1.isLt p.2.isLt).1⟩,
    ⟨(builtPair s p.1 p.2).2, (h.builtPair_lt p.1.isLt p.2.isLt).2⟩)

theorem finPair_eq_iff (h : ChecksPass s) (p q : Fin s.alen × Fin s.alen) :
    h.finPair p = q ↔ builtPair s p.1 p.2 = (q.1.val, q.2.val) := by
  simp [finPair, Prod.ext_iff, Fin.ext_iff]

/-- With no collision, every bigram of codes is some plaintext bigram's pair: an injective map of the finitely many
bigrams to themselves reaches all of them (R85). -/
theorem builtPair_surj (h : ChecksPass s)
    (hdec : invert (builtEnc s) (clog2 s.alen) Memory.blank = (dec, none)) {c1 c2 : Nat} (hc1 : c1 < s.alen)
    (hc2 : c2 < s.alen) : ∃ p1 p2, p1 < s.alen ∧ p2 < s.alen ∧ builtPair s p1 p2 = (c1, c2) := by
  have hinj : Function.Injective h.finPair := by
    intro p q heq
    have hpair : builtPair s p.1 p.2 = builtPair s q.1 q.2 := (h.finPair_eq_iff p _).1 heq
    obtain ⟨h1, h2⟩ := h.builtPair_inj hdec p.1.isLt p.2.isLt q.1.isLt q.2.isLt hpair
    exact Prod.ext (Fin.ext h1) (Fin.ext h2)
  obtain ⟨p, hp⟩ := Finite.injective_iff_surjective.1 hinj (⟨c1, hc1⟩, ⟨c2, hc2⟩)
  exact ⟨p.1, p.2, p.1.isLt, p.2.isLt, (h.finPair_eq_iff p _).1 hp⟩

end Inverted

end ChecksPass

/-- What it says that `build` would succeed and change nothing: the checks pass, and CODEC, ENC, DEC, K, B and TV hold
what it writes (R18 item 5, R76). -/
theorem build_eq_done_self_iff (s : State) :
    build s = .done s ↔
      ChecksPass s ∧ s.codec = codecBuild s.alpha s.alen ∧ s.enc = builtEnc s ∧
        invert (builtEnc s) (clog2 s.alen) Memory.blank = (s.dec, none) ∧ s.k = isqrt s.alen ∧ s.b = clog2 s.alen ∧
          s.tv = true := by
  rw [build_done_iff]
  constructor
  · rintro ⟨ha, hp, hk, dec, hdec, heq⟩
    have hd : s.dec = dec := congrArg State.dec heq
    exact ⟨⟨ha, hp, hk⟩, congrArg State.codec heq, congrArg State.enc heq, hd ▸ hdec, congrArg State.k heq,
      congrArg State.b heq, congrArg State.tv heq⟩
  · rintro ⟨⟨ha, hp, hk⟩, hcodec, henc, hdec, hside, hwidth, htv⟩
    refine ⟨ha, hp, hk, s.dec, hdec, ?_⟩
    rw [← hcodec, ← henc, ← hside, ← hwidth, ← htv]

/-- What a successful BUILD leaves is built: running it again changes nothing. -/
theorem build_idempotent {s t : State} (h : build s = .done t) : build t = .done t := by
  obtain ⟨ha, hp, hk, dec, hdec, rfl⟩ := (build_done_iff s t).1 h
  exact (build_eq_done_self_iff _).2 ⟨⟨ha, hp, hk⟩, rfl, rfl, hdec, rfl, rfl, rfl⟩

section Built

variable {s : State}

theorem tv_of_built (h : build s = .done s) : s.tv = true := by
  obtain ⟨-, -, -, -, -, -, htv⟩ := (build_eq_done_self_iff s).1 h
  exact htv

/-- With tables, PAD is an alphabet member (R78). -/
theorem pad_valid_of_built (h : build s = .done s) : (packByte s.pad s).valid = true := by
  obtain ⟨hchecks, hcodec, -⟩ := (build_eq_done_self_iff s).1 h
  rw [packByte, hcodec]
  exact (padCheck_ok_iff _).1 hchecks.pad

/-- With tables, the code of an alphabet byte is below N. -/
theorem packByte_code_lt_of_built (h : build s = .done s) {v : Byte} (hv : (packByte v s).valid = true) :
    (packByte v s).code < s.alen := by
  obtain ⟨hchecks, hcodec, -⟩ := (build_eq_done_self_iff s).1 h
  have hpack : packByte v s = packByte v (withCodec s) := by rw [packByte, hcodec]; rfl
  rw [hpack] at hv ⊢
  exact hchecks.code_lt hv

/-- A valid table entry at a bigram's index is what `lookup` answers. -/
theorem lookup_of_entry (h : build s = .done s) {m : Mode} {c1 c2 o1 o2 : Nat} (h1 : c1 < s.alen) (h2 : c2 < s.alen)
    (ho2 : o2 < s.alen)
    (hentry : Memory.read sentinel (tableOf m s) (pack2 (clog2 s.alen) c1 c2) =
      { valid := true, value := pack2 (clog2 s.alen) o1 o2 }) : lookup m c1 c2 s = .ok (o1, o2) := by
  obtain ⟨hchecks, -, -, -, -, hwidth, -⟩ := (build_eq_done_self_iff s).1 h
  rw [lookup_ok_iff, hwidth, hentry, unpack2_pack2 (ChecksPass.lt_two_pow_of_lt_alen ho2)]
  exact ⟨lt_of_lt_of_le (List.mem_range.1 (ChecksPass.pack2_mem_range h1 h2)) hchecks.index_space_le, rfl, rfl⟩

/-- Encryption answers the pair of a bigram (R86, R88). -/
theorem lookup_enc_of_built (h : build s = .done s) {c1 c2 : Nat} (h1 : c1 < s.alen) (h2 : c2 < s.alen) :
    lookup .enc c1 c2 s = .ok (builtPair s c1 c2) := by
  obtain ⟨hchecks, -, henc, -⟩ := (build_eq_done_self_iff s).1 h
  refine lookup_of_entry h h1 h2 (hchecks.builtPair_lt h1 h2).2 ?_
  rw [tableOf, henc]
  exact hchecks.builtEnc_read h1 h2

/-- Decryption answers the bigram whose pair it is given (R86, R88). -/
theorem lookup_dec_of_built (h : build s = .done s) {p1 p2 : Nat} (h1 : p1 < s.alen) (h2 : p2 < s.alen) :
    lookup .dec (builtPair s p1 p2).1 (builtPair s p1 p2).2 s = .ok (p1, p2) := by
  obtain ⟨hchecks, -, -, hdec, -⟩ := (build_eq_done_self_iff s).1 h
  obtain ⟨ho1, ho2⟩ := hchecks.builtPair_lt h1 h2
  exact lookup_of_entry h ho1 ho2 h2 (hchecks.dec_read_builtPair hdec h1 h2)

/-- With tables, the engine answers two codes for any two codes, in either direction (R67, R88): no index out of
range, no INTERNAL. -/
theorem lookup_of_built (h : build s = .done s) (m : Mode) {c1 c2 : Nat} (h1 : c1 < s.alen) (h2 : c2 < s.alen) :
    ∃ o1 o2, lookup m c1 c2 s = .ok (o1, o2) ∧ o1 < s.alen ∧ o2 < s.alen := by
  obtain ⟨hchecks, -, -, hdec, -⟩ := (build_eq_done_self_iff s).1 h
  cases m with
  | enc =>
    obtain ⟨ho1, ho2⟩ := hchecks.builtPair_lt h1 h2
    exact ⟨_, _, lookup_enc_of_built h h1 h2, ho1, ho2⟩
  | dec =>
    obtain ⟨p1, p2, hp1, hp2, hpair⟩ := hchecks.builtPair_surj hdec h1 h2
    have hlookup := lookup_dec_of_built h hp1 hp2
    rw [hpair] at hlookup
    exact ⟨p1, p2, hlookup, hp1, hp2⟩

end Built

end Sys2Proof.Machine
end

section
/-! Proofs: the invariants of 10_state R18 in the parts that one command changes at a time, and what each shared
operation does to them. -/

namespace Sys2Proof.Machine

/-! ### The invariants by parts -/

/-- `s` with the configuration and the tables of `c`. -/
def withConfig (s c : State) : State :=
  { s with
    tv := c.tv, alen := c.alen, alpha := c.alpha, klen := c.klen, key := c.key, pad := c.pad, k := c.k, b := c.b,
    codec := c.codec, enc := c.enc, dec := c.dec }

/-- The configuration and the tables, with everything else at its reset value. -/
def configPart (s : State) : State := withConfig (State.resetWith s.params) s

/-- What holds of the configuration whether or not there are tables (R18 item 7, R37). -/
structure StorageInv (s : State) : Prop where
  legal : s.params.Legal
  alen_le : s.alen ≤ nmaxOf s.params
  klen_le : s.klen ≤ 2 * nmaxOf s.params
  memories : MemoriesCanonical s

/-- The invariants of the configuration and the tables (R18 items 5 to 7). -/
structure ConfigInv (s : State) : Prop extends StorageInv s where
  built : s.tv = true → build s = .done s
  noSizes : NoTablesNoSizes s

/-- The invariants of the stream (R18 items 1 to 3, 7 and 8). -/
structure StreamInv (s : State) : Prop where
  tables : StreamHasTables s
  pending : CarryNeedsPending s
  only : PendingOnlyInStream s
  carry_le : s.carry.length ≤ s.params.carryDepth
  code_lt : PendingInRange s

/-- The invariants of the error record (R18 item 4, R27, R28). -/
structure ErrorInv (s : State) : Prop where
  iff : ErrorIffErrorState s
  possible : ErrorRecordPossible s

/-- The invariants that hold within a command cycle too: all of R18, and nothing of BUSY. -/
structure CycleInv (s : State) : Prop where
  config : ConfigInv s
  stream : StreamInv s
  errors : ErrorInv s
  out : OutTokensLegal s

/-- What else R18 item 5 says follows from a BUILD that would succeed and change nothing. -/
theorem tablesMatchConfiguration_iff (s : State) :
    TablesMatchConfiguration s ↔ (s.tv = true → build s = .done s) := by
  refine ⟨fun h htv => ?_, fun h htv => ?_⟩
  · obtain ⟨-, -, -, -, -, hbuilt⟩ := h htv
    exact hbuilt
  · obtain ⟨hchecks, -, -, -, hside, hwidth, -⟩ := (build_eq_done_self_iff s).1 (h htv)
    exact ⟨hchecks.alen_pos, hside ▸ hchecks.side_mul_side.symm, hwidth, hchecks.klen_eq, pad_valid_of_built (h htv),
      h htv⟩

/-- Between two commands the invariants are those of a cycle, and BUSY is 0 (R18, R20). -/
theorem inv_iff (s : State) : Inv s ↔ s.busy = false ∧ CycleInv s := by
  constructor
  · rintro ⟨hlegal, hbusy, htables, hpending, honly, herr, hmatch, hsizes, ⟨hal, hkl, hcarry⟩, hcode, hmem, hrec, hout⟩
    exact ⟨hbusy, ⟨⟨hlegal, hal, hkl, hmem⟩, (tablesMatchConfiguration_iff s).1 hmatch, hsizes⟩,
      ⟨htables, hpending, honly, hcarry, hcode⟩, ⟨herr, hrec⟩, hout⟩
  · rintro ⟨hbusy, ⟨⟨hlegal, hal, hkl, hmem⟩, hbuilt, hsizes⟩, ⟨htables, hpending, honly, hcarry, hcode⟩, ⟨herr, hrec⟩,
      hout⟩
    exact ⟨hlegal, hbusy, htables, hpending, honly, herr, (tablesMatchConfiguration_iff s).2 hbuilt, hsizes,
      ⟨hal, hkl, hcarry⟩, hcode, hmem, hrec, hout⟩

theorem cycleInv_of_inv {s : State} (h : Inv s) : CycleInv s := ((inv_iff s).1 h).2

/-! ### The configuration -/

/-- BUILD looks at the configuration and the tables only. -/
theorem build_configPart_iff (s : State) : build (configPart s) = .done (configPart s) ↔ build s = .done s := by
  rw [build_eq_done_self_iff, build_eq_done_self_iff]
  exact and_congr ⟨fun ⟨ha, hp, hk⟩ => ⟨ha, hp, hk⟩, fun ⟨ha, hp, hk⟩ => ⟨ha, hp, hk⟩⟩ Iff.rfl

theorem configInv_configPart_iff (s : State) : ConfigInv (configPart s) ↔ ConfigInv s := by
  constructor
  · rintro ⟨⟨hlegal, hal, hkl, hmem⟩, hbuilt, hsizes⟩
    exact ⟨⟨hlegal, hal, hkl, hmem⟩, fun htv => (build_configPart_iff s).1 (hbuilt htv), hsizes⟩
  · rintro ⟨⟨hlegal, hal, hkl, hmem⟩, hbuilt, hsizes⟩
    exact ⟨⟨hlegal, hal, hkl, hmem⟩, fun htv => (build_configPart_iff s).2 (hbuilt htv), hsizes⟩

/-- An update that leaves the configuration and the tables alone keeps their invariants. -/
theorem ConfigInv.congr {s t : State} (h : ConfigInv s) (heq : configPart t = configPart s) : ConfigInv t :=
  (configInv_configPart_iff t).1 (heq ▸ (configInv_configPart_iff s).2 h)

/-- Without tables nothing is asked of them (R70). -/
theorem StorageInv.invalidate {s : State} (h : StorageInv s) : ConfigInv (invalidate s) where
  legal := h.legal
  alen_le := h.alen_le
  klen_le := h.klen_le
  memories := h.memories
  built := nofun
  noSizes _ := ⟨rfl, rfl⟩

/-! ### The stream and the error record -/

/-- Outside STREAM there is no pending code and no carry, and nothing else is asked (R18 item 3). -/
theorem streamInv_of_not_stream {s : State} (hst : s.procState ≠ .stream) (hpend : s.pend = none)
    (hcarry : s.carry = []) : StreamInv s where
  tables h := absurd h hst
  pending := by simp [hcarry]
  only _ := ⟨hpend, hcarry⟩
  carry_le := by simp [hcarry]
  code_lt := by simp [PendingInRange, hpend]

/-- In STREAM, the empty stream (R93). -/
theorem streamInv_of_empty {s : State} (htv : s.tv = true) (hpend : s.pend = none) (hcarry : s.carry = []) :
    StreamInv s where
  tables _ := htv
  pending := by simp [hcarry]
  only _ := ⟨hpend, hcarry⟩
  carry_le := by simp [hcarry]
  code_lt := by simp [PendingInRange, hpend]

/-- Nothing pending means nothing carried (R18 item 2). -/
theorem StreamInv.carry_eq_nil {s : State} (h : StreamInv s) (hpend : s.pend = none) : s.carry = [] :=
  List.length_eq_zero_iff.1 (Nat.eq_zero_of_not_pos fun hpos => h.pending hpos hpend)

/-- A pending code is below N (R18 item 8). -/
theorem StreamInv.pend_lt {s : State} (h : StreamInv s) {c : Nat} (hpend : s.pend = some c) : c < s.alen := by
  simpa [PendingInRange, hpend] using h.code_lt

/-- Moving between IDLE and STREAM keeps the error record's invariants. -/
theorem ErrorInv.move {s : State} (h : ErrorInv s) (hs : s.procState ≠ .error) {p : ProcState} (hp : p ≠ .error) :
    ErrorInv { s with procState := p } where
  iff := iff_of_false (fun hcode => hs (h.iff.1 hcode)) hp
  possible := h.possible

/-- The empty error record, outside ERROR state. -/
theorem errorInv_of_clear {s : State} (hst : s.procState ≠ .error) (hcode : s.errCode = 0) (hsub : s.errSub = 0)
    (harg : s.errArg = 0) (hcmd : s.errCmd = 0) : ErrorInv s where
  iff := by simp [ErrorIffErrorState, hcode, hst]
  possible := by simp [ErrorRecordPossible, possibleErrors, hcode, hsub, harg, hcmd]

/-- A raise that R109 lists with this subcode, and not as INTERNAL. -/
abbrev ErrorReport.Possible (e : ErrorReport) : Prop := (e.code.bits, BitVec.ofNat 8 e.sub) ∈ possibleErrors

theorem ErrCode.bits_ne_zero (c : ErrCode) : c.bits ≠ 0 := by cases c <;> decide

/-- The tokens of OUT and one more. -/
theorem outTokensLegal_append {out : List Token} (h : ∀ t ∈ out, t.toNat ≤ 0x101) {t : Token} (ht : t.toNat ≤ 0x101) :
    ∀ u ∈ out ++ [t], u.toNat ≤ 0x101 := by
  intro u hu
  rcases List.mem_append.1 hu with hu | hu
  · exact h u hu
  · exact List.mem_singleton.1 hu ▸ ht

/-- A data token is below both markers (R62). -/
theorem dataToken_le (v : Byte) : (dataToken v).toNat ≤ 0x101 := by
  have hv := v.isLt
  have htoken : (dataToken v).toNat = v.toNat := (BitVec.toNat_append 0#1 v).trans (by simp)
  omega

/-! ### The shared operations -/

namespace CycleInv

variable {s : State}

/-- Emitting a legal token keeps the invariants (R62). -/
theorem emit (h : CycleInv s) {t : Token} (ht : t.toNat ≤ 0x101) : CycleInv (emit t s) where
  config := h.config.congr rfl
  stream := { h.stream with }
  errors := { h.errors with }
  out := outTokensLegal_append h.out ht

theorem emitByte (h : CycleInv s) (v : Byte) : CycleInv (emitByte v s) where
  config := h.config.congr rfl
  stream := { h.stream with }
  errors := { h.errors with }
  out := outTokensLegal_append h.out (dataToken_le v)

theorem emitBytes (h : CycleInv s) (vs : List Byte) : CycleInv (emitBytes vs s) := by
  induction vs generalizing s with
  | nil => exact h
  | cons v vs ih => exact ih (h.emitByte v)

/-- Dropping the pending code and the carry keeps the invariants. -/
theorem dropPending (h : CycleInv s) : CycleInv { s with pend := none, carry := [] } where
  config := h.config.congr rfl
  stream := { tables := h.stream.tables, pending := nofun, only := fun _ => ⟨rfl, rfl⟩, carry_le := Nat.zero_le _,
              code_lt := rfl }
  errors := { h.errors with }
  out := h.out

theorem abortOpenStream (h : CycleInv s) : CycleInv (abortOpenStream s) := by
  unfold Machine.abortOpenStream
  split
  · exact (h.emit (t := abortMarker) (by decide)).dropPending
  · exact h

/-- After the shared part of R99 and R121 no code is pending and no byte is carried. -/
theorem abortOpenStream_empty (h : CycleInv s) :
    (Machine.abortOpenStream s).pend = none ∧ (Machine.abortOpenStream s).carry = [] := by
  unfold Machine.abortOpenStream
  split
  · exact ⟨rfl, rfl⟩
  · exact h.stream.only (by assumption)

/-- Going to IDLE with nothing pending keeps the invariants. -/
theorem toIdle (h : CycleInv s) (hst : s.procState ≠ .error) (hpend : s.pend = none) (hcarry : s.carry = []) :
    CycleInv { s with procState := .idle } where
  config := h.config.congr rfl
  stream := streamInv_of_not_stream nofun hpend hcarry
  errors := h.errors.move hst nofun
  out := h.out

/-- Error entry with a possible raise keeps the invariants, and tables stay (R121). -/
theorem errorEntry (h : CycleInv s) {e : ErrorReport} (he : e.Possible) (w : Word) : CycleInv (errorEntry e w s) where
  config := h.abortOpenStream.config.congr rfl
  stream := streamInv_of_not_stream nofun h.abortOpenStream_empty.1 h.abortOpenStream_empty.2
  errors := ⟨iff_of_true e.code.bits_ne_zero rfl, he, fun hcode => absurd hcode e.code.bits_ne_zero⟩
  out := h.abortOpenStream.out

/-- In IDLE the configuration can change without regard to the stream and the error record. -/
theorem reconfigure (h : CycleInv s) (hst : s.procState = .idle) {t : State} (heq : t = withConfig s t)
    (ht : ConfigInv t) : CycleInv t := by
  rw [heq] at ht ⊢
  obtain ⟨hpend, hcarry⟩ := h.stream.only (by simp [hst])
  exact ⟨ht, streamInv_of_not_stream (by simp [withConfig, hst]) hpend hcarry, { h.errors with }, h.out⟩

end CycleInv

/-! ### How a command's rule can end -/

/-- A stop that the invariants allow: a possible raise, never a fault. -/
def Stop.Possible : Stop → Prop
  | .raised e => e.Possible
  | .fault _ => False

/-- A computation that stops in a possible way only, and whose answer has property `P`. -/
def Sound {α : Type} (P : α → Prop) : Except Stop α → Prop
  | .ok a => P a
  | .error stop => stop.Possible

/-- A rule that ends with the invariants, at its last line or at a possible raise. -/
def Run.Keeps : Run → Prop
  | .done t => CycleInv t
  | .raised e t => CycleInv t ∧ e.Possible
  | .fault _ => False

theorem Sound.bind {α β : Type} {P : α → Prop} {Q : β → Prop} {x : Except Stop α} {f : α → Except Stop β}
    (hx : Sound P x) (hf : ∀ a, P a → Sound Q (f a)) : Sound Q (x >>= f) := by
  cases x with
  | ok a => exact hf a hx
  | error stop => exact hx

/-- Whether a raise is possible does not depend on its argument. -/
theorem raise_sound {α : Type} {P : α → Prop} {code : ErrCode} {sub : Nat} (h : ErrorReport.Possible ⟨code, sub, 0⟩)
    (arg : Nat) : Sound P (raise code sub arg) := h

theorem stopAt_keeps {s : State} (h : CycleInv s) {stop : Stop} (hstop : stop.Possible) : (stopAt s stop).Keeps := by
  cases stop with
  | raised e => exact ⟨h, hstop⟩
  | fault f => exact hstop.elim

/-- A command that checks before it writes keeps the invariants when its answer does. -/
theorem precise_keeps {s : State} (h : CycleInv s) {r : Except Stop State} (hr : Sound CycleInv r) :
    (precise s r).Keeps := by
  cases r with
  | ok t => exact hr
  | error stop => exact stopAt_keeps h hr

theorem memWrite_sound {α : Type} [DecidableEq α] (name : MemoryName) {size : Nat} {u : α} {m : Memory α} {i : Nat}
    (v : α) (hm : Memory.wf u size m = true) (hi : i < size) :
    Sound (fun m' => Memory.wf u size m' = true) (memWrite name size u m i v) := by
  rw [(memWrite_ok_iff name u m _ i v).2 ⟨hi, rfl⟩]
  exact write_wf hm hi v

/-! ### The command cycle -/

/-- The end of a cycle counts the word and leaves BUSY 0 (R104). -/
theorem retire_inv {s : State} (h : CycleInv s) : Inv (retire s) :=
  (inv_iff _).2 ⟨rfl, h.config.congr rfl, { h.stream with }, { h.errors with }, h.out⟩

theorem beginCycle_cycleInv {s : State} (h : Inv s) : CycleInv (beginCycle s) :=
  have hs := cycleInv_of_inv h
  ⟨hs.config.congr rfl, { hs.stream with }, { hs.errors with }, hs.out⟩

theorem endCycle_inv {r : Run} (h : r.Keeps) (w : Word) : ∃ t, endCycle w r = .next t ∧ Inv t := by
  cases r with
  | done t => exact ⟨_, rfl, retire_inv h⟩
  | raised e t => exact ⟨_, rfl, retire_inv (h.1.errorEntry h.2 w)⟩
  | fault f => exact h.elim

/-- The state lets a command run: it is not discarded in ERROR state and not refused elsewhere (R104, R105). -/
def Runs (o : Opcode) (s : State) : Prop :=
  (s.procState = .error ∧ runsInError o = true) ∨ (s.procState ≠ .error ∧ allowed o s.procState s.tv = true)

/-- A BAD_STATE raise is one of R109's three: in STREAM there are tables (R104, R18 item 1). -/
theorem badState_possible {s : State} (h : CycleInv s) (hst : s.procState ≠ .error) :
    (badState s.procState s.tv).Possible := by
  have htables := h.stream.tables
  unfold StreamHasTables at htables
  cases hp : s.procState with
  | error => exact absurd hp hst
  | idle => cases s.tv <;> decide
  | stream => rw [htables hp]; decide

/-- A legal command answers a next state with the invariants when its rule keeps them in every state that lets it
run (R104). -/
theorem runCommand_inv {i : Instr} {body : State → Run}
    (hbody : ∀ s, CycleInv s → Runs i.opcode s → (body s).Keeps) {s : State} (h : Inv s) :
    ∃ t, runCommand i body s = .next t ∧ Inv t := by
  have hs := beginCycle_cycleInv h
  by_cases hst : s.procState = .error
  · cases hr : runsInError i.opcode with
    | true =>
      rw [runCommand_in_error body hst hr]
      exact endCycle_inv (hbody _ hs (.inl ⟨hst, hr⟩)) _
    | false =>
      rw [runCommand_discarded body hst hr]
      exact ⟨_, rfl, retire_inv hs⟩
  · cases ha : allowed i.opcode s.procState s.tv with
    | true =>
      rw [runCommand_of_allowed body hst ha]
      exact endCycle_inv (hbody _ hs (.inr ⟨hst, ha⟩)) _
    | false =>
      rw [runCommand_refused body hst ha]
      exact ⟨_, rfl, retire_inv (hs.errorEntry (badState_possible hs hst) _)⟩

/-- An illegal word keeps the invariants in every state (R110). -/
theorem runIllegal_inv (w : Word) (e : DecodeError) {s : State} (h : Inv s) :
    ∃ t, runIllegal w e s = .next t ∧ Inv t := by
  have hs := beginCycle_cycleInv h
  have he : ErrorReport.Possible { code := .illegalCmd, sub := illegalSub e, arg := 0 } := by cases e <;> decide
  refine ⟨_, runIllegal_eq w e s, ?_⟩
  split
  · exact retire_inv hs
  · exact retire_inv (hs.errorEntry he w)

end Sys2Proof.Machine
end

section
/-! Proofs: every command, every act of either agent, keeps the invariants of 10_state R18. -/

namespace Sys2Proof.Machine

variable {s : State}

/-! ### What the state check of R105 leaves a command to assume -/

/-- A command that neither STREAM allows nor ERROR state runs, runs in IDLE only. -/
theorem Runs.idle {o : Opcode} (h : Runs o s) (ho : runsInError o = false ∧ ∀ tv, allowed o .stream tv = false) :
    s.procState = .idle := by
  rcases h with ⟨-, herr⟩ | ⟨hst, hallowed⟩
  · simp [ho.1] at herr
  · cases hp : s.procState with
    | idle => rfl
    | stream => simp [hp, ho.2] at hallowed
    | error => exact absurd hp hst

/-- A command that neither IDLE allows nor ERROR state runs, runs in STREAM only. -/
theorem Runs.stream {o : Opcode} (h : Runs o s) (ho : runsInError o = false ∧ ∀ tv, allowed o .idle tv = false) :
    s.procState = .stream := by
  rcases h with ⟨-, herr⟩ | ⟨hst, hallowed⟩
  · simp [ho.1] at herr
  · cases hp : s.procState with
    | idle => simp [hp, ho.2] at hallowed
    | stream => rfl
    | error => exact absurd hp hst

/-- A command that IDLE allows with tables only, and that ERROR state does not run, finds them built. -/
theorem Runs.built {o : Opcode} (h : Runs o s) (hs : CycleInv s)
    (ho : runsInError o = false ∧ allowed o .idle false = false) : build s = .done s := by
  refine hs.config.built ?_
  rcases h with ⟨-, herr⟩ | ⟨hst, hallowed⟩
  · simp [ho.1] at herr
  · cases hp : s.procState with
    | idle =>
      cases htv : s.tv with
      | true => rfl
      | false => simp [hp, htv, ho.2] at hallowed
    | stream => exact hs.stream.tables hp
    | error => exact absurd hp hst

/-! ### The control commands -/

theorem clear_cycleInv (h : CycleInv s) : CycleInv (clear s) where
  config :=
    { legal := h.abortOpenStream.config.legal, alen_le := Nat.zero_le _, klen_le := Nat.zero_le _,
      memories := h.abortOpenStream.config.memories, built := nofun, noSizes := fun _ => ⟨rfl, rfl⟩ }
  stream := streamInv_of_not_stream nofun rfl rfl
  errors := errorInv_of_clear nofun rfl rfl rfl rfl
  out := h.abortOpenStream.out

theorem leaveError_cycleInv (h : CycleInv s) (hst : s.procState = .error) : CycleInv (leaveError s) :=
  have ⟨hpend, hcarry⟩ := h.stream.only (by simp [hst])
  ⟨h.config.congr rfl, streamInv_of_not_stream nofun hpend hcarry, errorInv_of_clear nofun rfl rfl rfl rfl, h.out⟩

/-! ### The commands that write the configuration -/

/-- APUSH writes inside ALPHA, and ALEN stays within NMAX (R71). -/
theorem apush_sound (h : CycleInv s) (hst : s.procState = .idle) (byte : Byte) : Sound CycleInv (apush byte s) := by
  unfold apush
  obtain ⟨⟨hlegal, hal, hkl, halpha, hmems⟩, -, -⟩ := h.config
  split
  · exact raise_sound (by decide) _
  · rename_i hne
    have hlt : s.alen < nmaxOf s.params := by omega
    refine (memWrite_sound .alpha byte halpha hlt).bind fun alpha hwf => ?_
    have hstorage : StorageInv { s with alpha := alpha, alen := s.alen + 1 } := ⟨hlegal, hlt, hkl, hwf, hmems⟩
    exact h.reconfigure hst rfl hstorage.invalidate

/-- KPUSH writes inside KEY, and KLEN stays within 2*NMAX (R75). -/
theorem kpush_sound (h : CycleInv s) (hst : s.procState = .idle) (byte : Byte) : Sound CycleInv (kpush byte s) := by
  unfold kpush
  obtain ⟨⟨hlegal, hal, hkl, halpha, hkey, hmems⟩, -, -⟩ := h.config
  split
  · exact raise_sound (by decide) _
  · rename_i hne
    have hlt : s.klen < 2 * nmaxOf s.params := by omega
    refine (memWrite_sound .key byte hkey hlt).bind fun key hwf => ?_
    have hstorage : StorageInv { s with key := key, klen := s.klen + 1 } := ⟨hlegal, hal, hlt, halpha, hwf, hmems⟩
    exact h.reconfigure hst rfl hstorage.invalidate

theorem setpad_cycleInv (h : CycleInv s) (hst : s.procState = .idle) (byte : Byte) :
    CycleInv (invalidate { s with pad := byte }) :=
  have hstorage : StorageInv { s with pad := byte } := { h.config.toStorageInv with }
  h.reconfigure hst rfl hstorage.invalidate

/-! ### BUILD -/

/-- The alphabet checks of at most NMAX symbols read inside ALPHA (R77, R43). -/
theorem alphaCheck_sound (h : s.alen ≤ nmaxOf s.params) : Sound (fun _ => True) (alphaCheck s) := by
  unfold alphaCheck
  dsimp only
  split
  · exact raise_sound (by decide) _
  split
  · exact raise_sound (by decide) _
  split
  · omega
  split
  · exact raise_sound (by decide) _
  split
  · exact raise_sound (by decide) _
  · trivial

theorem padCheck_sound (s : State) : Sound (fun _ => True) (padCheck s) := by
  unfold padCheck
  split
  · trivial
  · exact raise_sound (by decide) _

theorem keyCheck_sound (s : State) : Sound (fun _ => True) (keyCheck s) := by
  unfold keyCheck
  dsimp only
  split
  · exact raise_sound (by decide) _
  split
  · exact raise_sound (by decide) _
  · trivial

/-- The CODEC that BUILD writes before it checks PAD and the key keeps the invariants. -/
theorem withCodec_cycleInv (h : CycleInv s) (hst : s.procState = .idle) : CycleInv (withCodec s) := by
  obtain ⟨⟨hlegal, hal, hkl, halpha, hkey, -, htables⟩, -, -⟩ := h.config
  have hstorage : StorageInv (writeCodec s) := ⟨hlegal, hal, hkl, halpha, hkey, codecBuild_wf _ _, htables⟩
  exact h.reconfigure hst rfl hstorage.invalidate

/-- BUILD at a collision: CODEC and the tables are written as far as they go, and there are no tables (R76, R82). -/
theorem buildTables_of_collision {dec : Memory TableEntry} {i : Nat}
    (h : invert (builtEnc s) (clog2 s.alen) Memory.blank = (dec, some i)) :
    buildTables (withCodec s) = .raised { code := .invalidKey, sub := 4, arg := i }
      (invalidate { s with codec := codecBuild s.alpha s.alen, enc := builtEnc s, dec := dec }) := by
  unfold buildTables
  dsimp only
  split <;> rename_i heq
  · cases heq.symm.trans h
    rfl
  · cases heq.symm.trans h

/-- After the checks, BUILD ends with its tables in place or at a collision (R76, R82, R83). -/
theorem buildTables_keeps (h : CycleInv s) (hst : s.procState = .idle) (hchecks : ChecksPass s) :
    (buildTables (withCodec s)).Keeps := by
  obtain ⟨⟨hlegal, hal, hkl, halpha, hkey, -, -⟩, -, -⟩ := h.config
  have hdecwf := hchecks.invert_wf
  rcases hinvert : invert (builtEnc s) (clog2 s.alen) Memory.blank with ⟨dec, _ | i⟩
  all_goals
    rw [hinvert] at hdecwf
    have hstorage : StorageInv { s with codec := codecBuild s.alpha s.alen, enc := builtEnc s, dec := dec } :=
      ⟨hlegal, hal, hkl, halpha, hkey, codecBuild_wf _ _, hchecks.builtEnc_wf, hdecwf⟩
  · rw [(buildTables_done_iff s _).2 ⟨dec, hinvert, rfl⟩]
    have hbuilt := build_idempotent
      ((build_done_iff s _).2 ⟨hchecks.alpha, hchecks.pad, hchecks.key, dec, hinvert, rfl⟩)
    exact h.reconfigure hst rfl ⟨{ hstorage with }, fun _ => hbuilt, nofun⟩
  · rw [buildTables_of_collision hinvert]
    exact ⟨h.reconfigure hst rfl hstorage.invalidate, (by decide : ErrorReport.Possible ⟨.invalidKey, 4, 0⟩)⟩

theorem build_keeps (h : CycleInv s) (hst : s.procState = .idle) : (build s).Keeps := by
  have hinvalidated : CycleInv (invalidate s) :=
    h.reconfigure hst rfl h.config.toStorageInv.invalidate
  have hcodec := withCodec_cycleInv h hst
  have ha := alphaCheck_sound (s := invalidate s) h.config.alen_le
  have hp := padCheck_sound (withCodec s)
  have hk := keyCheck_sound (withCodec s)
  unfold build
  dsimp only
  split
  · rename_i stop heq
    rw [heq] at ha
    exact stopAt_keeps hinvalidated ha
  rename_i halpha
  rw [show writeCodec (invalidate s) = withCodec s from rfl]
  split
  · rename_i stop heq
    rw [heq] at hp
    exact stopAt_keeps hcodec hp
  rename_i hpad
  split
  · rename_i stop heq
    rw [heq] at hk
    exact stopAt_keeps hcodec hk
  rename_i hkey
  exact buildTables_keeps h hst ⟨halpha, hpad, hkey⟩

/-! ### The engine and the queries -/

theorem checkCode_sound {sub : Nat} (hsub : ErrorReport.Possible ⟨.badCode, sub, 0⟩) (c : Nat) (s : State) :
    Sound (fun _ => c < s.alen) (checkCode sub c s) := by
  by_cases hc : c < s.alen
  · rw [(checkCode_ok_iff sub c s).2 hc]
    exact hc
  · rw [checkCode_of_le (Nat.le_of_not_lt hc)]
    exact raise_sound hsub c

/-- A code below N has a symbol (R66, R43). -/
theorem unpackCode_of_lt (h : StorageInv s) {c : Nat} (hc : c < s.alen) : unpackCode c s = .ok (symbolAt s c) :=
  (unpackCode_ok_iff c s _).2 ⟨lt_of_lt_of_le hc h.alen_le, rfl⟩

/-- A query writes RESULT only. -/
theorem CycleInv.withResult (h : CycleInv s) (r : BitVec 32) : CycleInv { s with result := r } :=
  ⟨h.config.congr rfl, { h.stream with }, { h.errors with }, h.out⟩

theorem unpackQuery_sound (h : CycleInv s) (c : Nat) : Sound CycleInv (unpackQuery c s) := by
  refine (checkCode_sound (by decide) c s).bind fun _ hc => ?_
  rw [unpackCode_of_lt h.config.toStorageInv hc]
  exact h.withResult _

theorem bigramQuery_sound (h : CycleInv s) (hbuilt : build s = .done s) (m : Mode) (c1 c2 : Nat) :
    Sound CycleInv (bigramQuery m c1 c2 s) := by
  refine (checkCode_sound (by decide) c1 s).bind fun _ h1 => (checkCode_sound (by decide) c2 s).bind fun _ h2 => ?_
  obtain ⟨o1, o2, hlookup, -⟩ := lookup_of_built hbuilt m h1 h2
  rw [hlookup]
  exact h.withResult _

/-! ### The stream -/

theorem start_cycleInv (h : CycleInv s) (hst : s.procState = .idle) (htv : s.tv = true) (m : Mode) :
    CycleInv { s with mode := m, pend := none, carry := [], inCount := 0, outCount := 0, procState := .stream } where
  config := h.config.congr rfl
  stream := streamInv_of_empty htv rfl rfl
  errors := { h.errors.move (p := .stream) (by simp [hst]) nofun with }
  out := h.out

theorem emitBigram_cycleInv (h : CycleInv s) (x1 x2 : Byte) : CycleInv (emitBigram x1 x2 s) :=
  (((h.emitByte x1).emitBytes s.carry).emitByte x2).dropPending

/-- With tables, two codes below N resolve to the emission of two bytes (R92): the stream never stops. -/
theorem resolve_of_built (h : StorageInv s) (hbuilt : build s = .done s) {c1 c2 : Nat} (h1 : c1 < s.alen)
    (h2 : c2 < s.alen) : ∃ x1 x2, resolve c1 c2 s = .ok (emitBigram x1 x2 s) := by
  obtain ⟨o1, o2, hlookup, ho1, ho2⟩ := lookup_of_built hbuilt s.mode h1 h2
  exact ⟨_, _, (resolve_ok_iff c1 c2 s _).2
    ⟨(o1, o2), _, _, hlookup, unpackCode_of_lt h ho1, unpackCode_of_lt h ho2, rfl⟩⟩

/-- An alphabet byte becomes the pending code or resolves it (R95). -/
theorem alphabetByte_sound (h : CycleInv s) (hst : s.procState = .stream) (hbuilt : build s = .done s) {c : Nat}
    (hc : c < s.alen) : Sound CycleInv (alphabetByte c s) := by
  unfold alphabetByte
  split
  · exact
      { config := h.config.congr rfl
        stream :=
          { tables := h.stream.tables, pending := nofun, only := fun hne => absurd hst hne,
            carry_le := h.stream.carry_le, code_lt := by simp [PendingInRange, hc] }
        errors := { h.errors with }
        out := h.out }
  · rename_i c1 hpend
    obtain ⟨x1, x2, hresolve⟩ := resolve_of_built h.config.toStorageInv hbuilt (h.stream.pend_lt hpend) hc
    rw [hresolve]
    exact emitBigram_cycleInv h x1 x2

/-- An excluded byte is emitted, or carried behind a pending code while there is room (R96, R97). -/
theorem excludedByte_sound (h : CycleInv s) (hst : s.procState = .stream) (byte : Byte) :
    Sound CycleInv (excludedByte byte s) := by
  unfold excludedByte
  split
  · exact h.emitByte byte
  rename_i c1 hpend
  split
  · exact raise_sound (by decide) _
  rename_i hroom
  exact
    { config := h.config.congr rfl
      stream :=
        { tables := h.stream.tables, pending := fun _ => by simp [hpend], only := fun hne => absurd hst hne,
          carry_le := by
            have := h.stream.carry_le
            simp only [List.length_append, List.length_singleton]
            omega
          code_lt := h.stream.code_lt }
      errors := { h.errors with }
      out := h.out }

/-- An accepted byte is counted (R33). -/
theorem CycleInv.countInput (h : CycleInv s) : CycleInv { s with inCount := s.inCount + 1 } :=
  ⟨h.config.congr rfl, { h.stream with }, { h.errors with }, h.out⟩

theorem dataByte_sound (h : CycleInv s) (hst : s.procState = .stream) (hbuilt : build s = .done s) (byte : Byte) :
    Sound CycleInv (dataByte byte s) := by
  unfold dataByte
  dsimp only
  split
  · rename_i hvalid
    exact (alphabetByte_sound h hst hbuilt (packByte_code_lt_of_built hbuilt hvalid)).bind fun _ => CycleInv.countInput
  · exact (excludedByte_sound h hst byte).bind fun _ => CycleInv.countInput

/-- END's padding leaves nothing pending: the pending code resolves with PAD's, and without one there is no carry
(R98, R18 items 2 and 5). -/
theorem padPending_sound (h : CycleInv s) (hbuilt : build s = .done s) :
    Sound (fun t => CycleInv t ∧ t.procState = s.procState ∧ t.pend = none ∧ t.carry = []) (padPending s) := by
  unfold padPending
  split
  · rename_i c1 hpend
    obtain ⟨x1, x2, hresolve⟩ := resolve_of_built h.config.toStorageInv hbuilt (h.stream.pend_lt hpend)
      (packByte_code_lt_of_built hbuilt (pad_valid_of_built hbuilt))
    rw [hresolve]
    exact ⟨emitBigram_cycleInv h x1 x2, by simp [emitBigram_eq], rfl, rfl⟩
  · rename_i hpend
    have hcarry := h.stream.carry_eq_nil hpend
    rw [if_neg (by simp [hcarry])]
    exact ⟨h, rfl, hpend, hcarry⟩

theorem endOfStream_sound (h : CycleInv s) (hst : s.procState = .stream) (hbuilt : build s = .done s) :
    Sound CycleInv (endOfStream s) := by
  refine (padPending_sound h hbuilt).bind fun t hpadded => ?_
  obtain ⟨ht, hproc, hpend, hcarry⟩ := hpadded
  exact (ht.emit (t := eosMarker) (by decide)).toIdle (by simp [hproc, hst]) hpend hcarry

theorem abortStream_cycleInv (h : CycleInv s) : CycleInv (abortStream s) := by
  unfold abortStream
  split
  · rename_i hst
    obtain ⟨hpend, hcarry⟩ := h.abortOpenStream_empty
    exact h.abortOpenStream.toIdle (by simp [abortOpenStream_of_stream hst, hst]) hpend hcarry
  · exact h

/-! ### The step and the acts of both agents -/

/-- Every command answers a next state and keeps the invariants (R18, R43, R117). -/
theorem exec_inv (i : Instr) (h : Inv s) : ∃ t, exec i s = .next t ∧ Inv t := by
  cases i with
  | nop =>
    unfold exec execNop
    refine runCommand_inv (fun _ hs _ => ?_) h
    exact hs
  | clear =>
    unfold exec execClear
    refine runCommand_inv (fun _ hs _ => ?_) h
    exact clear_cycleInv hs
  | apush byte =>
    unfold exec execApush
    refine runCommand_inv (fun _ hs hr => ?_) h
    exact precise_keeps hs (apush_sound hs (hr.idle ⟨rfl, fun _ => rfl⟩) byte)
  | kpush byte =>
    unfold exec execKpush
    refine runCommand_inv (fun _ hs hr => ?_) h
    exact precise_keeps hs (kpush_sound hs (hr.idle ⟨rfl, fun _ => rfl⟩) byte)
  | setpad byte =>
    unfold exec execSetpad
    refine runCommand_inv (fun _ hs hr => ?_) h
    exact setpad_cycleInv hs (hr.idle ⟨rfl, fun _ => rfl⟩) byte
  | build =>
    unfold exec execBuild
    refine runCommand_inv (fun _ hs hr => ?_) h
    exact build_keeps hs (hr.idle ⟨rfl, fun _ => rfl⟩)
  | start m =>
    unfold exec execStart
    refine runCommand_inv (fun s hs hr => ?_) h
    exact start_cycleInv hs (hr.idle ⟨rfl, fun _ => rfl⟩) (tv_of_built (hr.built hs ⟨rfl, rfl⟩)) m
  | data byte =>
    unfold exec execData
    refine runCommand_inv (fun s hs hr => precise_keeps hs ?_) h
    exact dataByte_sound hs (hr.stream ⟨rfl, fun _ => rfl⟩) (hr.built hs ⟨rfl, rfl⟩) byte
  | endStream =>
    unfold exec execEnd
    refine runCommand_inv (fun s hs hr => precise_keeps hs ?_) h
    exact endOfStream_sound hs (hr.stream ⟨rfl, fun _ => rfl⟩) (hr.built hs ⟨rfl, rfl⟩)
  | abort =>
    unfold exec execAbort
    refine runCommand_inv (fun _ hs _ => ?_) h
    exact abortStream_cycleInv hs
  | encb c1 c2 =>
    unfold exec execEncb
    refine runCommand_inv (fun _ hs hr => ?_) h
    exact precise_keeps hs (bigramQuery_sound hs (hr.built hs ⟨rfl, rfl⟩) .enc c1 c2)
  | decb c1 c2 =>
    unfold exec execDecb
    refine runCommand_inv (fun _ hs hr => ?_) h
    exact precise_keeps hs (bigramQuery_sound hs (hr.built hs ⟨rfl, rfl⟩) .dec c1 c2)
  | pack byte =>
    unfold exec execPack
    refine runCommand_inv (fun _ hs _ => ?_) h
    exact hs.withResult _
  | unpack c =>
    unfold exec execUnpack
    refine runCommand_inv (fun _ hs _ => ?_) h
    exact precise_keeps hs (unpackQuery_sound hs c)
  | errack =>
    unfold exec execErrack
    refine runCommand_inv (fun s hs _ => ?_) h
    change CycleInv (if s.procState = .error then leaveError s else s)
    split
    · exact leaveError_cycleInv hs (by assumption)
    · exact hs

/-- What the two channels hold matters to the invariants only in that OUT's tokens are legal. -/
theorem inv_of_channels (h : Inv s) {out : List Token} (hout : ∀ t ∈ out, t.toNat ≤ 0x101) (cmds : List Word) :
    Inv { s with out := out, cmds := cmds } :=
  have ⟨hbusy, hs⟩ := (inv_iff s).1 h
  (inv_iff _).2 ⟨hbusy, hs.config.congr rfl, { hs.stream with }, { hs.errors with }, hout⟩

/-- A step answers a next state and keeps the invariants. -/
theorem step_inv (h : Inv s) : ∃ t, step s = .next t ∧ Inv t := by
  unfold step
  split
  · exact ⟨s, rfl, h⟩
  rename_i w t htake
  obtain ⟨ws, -, rfl⟩ := (takeWord_some_iff s t w).1 htake
  have ht := inv_of_channels h (cycleInv_of_inv h).out ws
  split
  · exact exec_inv _ ht
  · exact runIllegal_inv w _ ht

/-- Taking the front token leaves legal tokens. -/
theorem hostTake_inv (h : Inv s) {x : Token} {t : State} (htake : hostTake s = some (x, t)) : Inv t := by
  unfold hostTake at htake
  split at htake
  · cases htake
  · rename_i hout
    cases htake
    refine inv_of_channels h (fun u hu => ?_) s.cmds
    exact (cycleInv_of_inv h).out u (hout ▸ List.mem_cons_of_mem x hu)

/-- The invariants hold at reset (R18, R131). -/
theorem resetWith_inv {p : Params} (hp : p.Legal) : Inv (State.resetWith p) :=
  (inv_iff _).2 ⟨rfl,
    { config :=
        { legal := hp, alen_le := Nat.zero_le _, klen_le := Nat.zero_le _, memories := ⟨rfl, rfl, rfl, rfl, rfl⟩,
          built := nofun, noSizes := fun _ => ⟨rfl, rfl⟩ }
      stream := streamInv_of_not_stream nofun rfl rfl
      errors := errorInv_of_clear nofun rfl rfl rfl rfl
      out := nofun }⟩

/-- Settles O59, act by act; the block's own act is `step_inv`. -/
theorem everyHostActKeepsTheInvariants : Obligations.EveryHostActKeepsTheInvariants := by
  unfold Obligations.EveryHostActKeepsTheInvariants
  intro s e h
  cases e with
  | write w => exact ⟨_, rfl, inv_of_channels h (cycleInv_of_inv h).out _⟩
  | take =>
    refine ⟨_, rfl, ?_⟩
    cases htake : hostTake s with
    | none => exact h
    | some p => exact hostTake_inv h htake
  | read addr => exact ⟨s, rfl, h⟩
  | reset => exact ⟨_, rfl, resetWith_inv (cycleInv_of_inv h).config.legal⟩
  | command => exact step_inv h

end Sys2Proof.Machine
end

section
/-! Proofs: the statements on the invariants of 10_state R18 that `step_inv` and `resetWith_inv` are. -/

namespace Sys2Proof.Machine

/-- Settles O58, by the commands' invariant lemmas. -/
theorem everyStepKeepsTheInvariants : Obligations.EveryStepKeepsTheInvariants := by
  unfold Obligations.EveryStepKeepsTheInvariants
  exact fun _ h => step_inv h

/-- Settles O57. -/
theorem invariantsHoldAtReset : Obligations.InvariantsHoldAtReset := by
  unfold Obligations.InvariantsHoldAtReset
  exact fun _ hp => resetWith_inv hp

end Sys2Proof.Machine
end

section
/-! Proofs: every command as the cycle of its rule, and what rules and cycles make of a state that is looked at through
a function, once for every such function (44_control R104). -/

namespace Sys2Proof.Machine

/-- The rule of each command, which its cycle runs where the state lets it (R104). -/
def rule : Instr → State → Run
  | .nop, s => .done s
  | .clear, s => .done (clear s)
  | .apush byte, s => precise s (apush byte s)
  | .kpush byte, s => precise s (kpush byte s)
  | .setpad byte, s => .done (invalidate { s with pad := byte })
  | .build, s => build s
  | .start mode, s =>
    .done { s with mode := mode, pend := none, carry := [], inCount := 0, outCount := 0, procState := .stream }
  | .data byte, s => precise s (dataByte byte s)
  | .endStream, s => precise s (endOfStream s)
  | .abort, s => .done (abortStream s)
  | .encb c1 c2, s => precise s (bigramQuery .enc c1 c2 s)
  | .decb c1 c2, s => precise s (bigramQuery .dec c1 c2 s)
  | .pack byte, s => .done { s with result := packResult (packByte byte s) }
  | .unpack code, s => precise s (unpackQuery code s)
  | .errack, s => .done (if s.procState = .error then leaveError s else s)

/-- Every command is the cycle of its rule. -/
theorem exec_eq_runCommand (i : Instr) (s : State) : exec i s = runCommand i (rule i) s := by cases i <;> rfl

/-! ### What the rules that look at STATE leave -/

theorem abortOpenStream_eq (s : State) :
    abortOpenStream s = { s with
      out := if s.procState = .stream then s.out ++ [abortMarker] else s.out,
      pend := if s.procState = .stream then none else s.pend,
      carry := if s.procState = .stream then [] else s.carry } := by
  by_cases h : s.procState = .stream
  · simp [abortOpenStream_of_stream h, h]
  · simp [abortOpenStream_of_ne h, h]

/-- ABORT's rule (R99). -/
theorem abortStream_eq (s : State) :
    abortStream s = { s with
      out := if s.procState = .stream then s.out ++ [abortMarker] else s.out,
      pend := if s.procState = .stream then none else s.pend,
      carry := if s.procState = .stream then [] else s.carry,
      procState := if s.procState = .stream then .idle else s.procState } := by
  by_cases h : s.procState = .stream <;> simp [abortStream, abortOpenStream_eq, h]

/-- CLEAR's rule (R107). -/
theorem clear_eq (s : State) :
    clear s = { s with
      out := if s.procState = .stream then s.out ++ [abortMarker] else s.out,
      procState := .idle, tv := false, mode := .enc, alen := 0, klen := 0, pad := 0x20, k := 0, b := 0, pend := none,
      carry := [], result := 0, errCode := 0, errSub := 0, errArg := 0, errCmd := 0, inCount := 0, outCount := 0 } := by
  rw [clear, abortOpenStream_eq]

/-- ERRACK's rule (R108). -/
theorem errack_eq (s : State) :
    (if s.procState = .error then leaveError s else s) = { s with
      errCode := if s.procState = .error then 0 else s.errCode, errSub := if s.procState = .error then 0 else s.errSub,
      errArg := if s.procState = .error then 0 else s.errArg, errCmd := if s.procState = .error then 0 else s.errCmd,
      procState := if s.procState = .error then .idle else s.procState } := by
  by_cases h : s.procState = .error <;> simp [leaveError, h]

/-- An excluded byte with nothing pending (R96). -/
theorem excludedByte_of_none {s : State} (h : s.pend = none) (v : Byte) :
    excludedByte v s = .ok (emitByte v s) := by simp [excludedByte, h]

/-- An excluded byte with a code pending (R97). -/
theorem excludedByte_of_pending {s : State} {c : Nat} (h : s.pend = some c) (v : Byte) :
    excludedByte v s =
      if s.carry.length = s.params.carryDepth then raise .carryOverflow 0 s.params.carryDepth
      else .ok { s with carry := s.carry ++ [v] } := by simp [excludedByte, h]

/-- DATA's rule counts what its two cases answer (R94). -/
theorem dataByte_eq (v : Byte) (s : State) :
    dataByte v s =
      (if (packByte v s).valid then alphabetByte (packByte v s).code s else excludedByte v s) >>=
        fun t => .ok { t with inCount := t.inCount + 1 } := by
  unfold dataByte
  split <;> rfl

/-- BUILD in the states that its checks see (R76). -/
theorem build_eq (s : State) :
    build s =
      match alphaCheck (invalidate s) with
      | .error stop => stopAt (invalidate s) stop
      | .ok () =>
        match padCheck (withCodec s) with
        | .error stop => stopAt (withCodec s) stop
        | .ok () =>
          match keyCheck (withCodec s) with
          | .error stop => stopAt (withCodec s) stop
          | .ok () => buildTables (withCodec s) := rfl

/-- The tables are made or meet a collision (R80 to R83). -/
theorem buildTables_eq (s : State) :
    buildTables s =
      match invert (populate (fillTables s) (isqrt s.alen) (clog2 s.alen) Memory.blank) (clog2 s.alen)
        Memory.blank with
      | (dec, some i) => .raised { code := .invalidKey, sub := 4, arg := i }
          { writeEnc (isqrt s.alen) (clog2 s.alen) (fillTables s) with dec := dec }
      | (dec, none) => .done (commit (isqrt s.alen) (clog2 s.alen)
          { writeEnc (isqrt s.alen) (clog2 s.alen) (fillTables s) with dec := dec }) := rfl

/-! ### A state seen through a function -/

/-- The same end of a rule, its state seen through `f`. -/
def Run.mapState (f : State → State) : Run → Run
  | .done s => .done (f s)
  | .raised e s => .raised e (f s)
  | .fault x => .fault x

/-- The same outcome, its state seen through `f`. -/
def mapNext (f : State → State) : Host.Outcome State Fault Refusal → Host.Outcome State Fault Refusal
  | .next s => .next (f s)
  | .fault x => .fault x
  | .refused r => .refused r

@[simp] theorem mapState_id (r : Run) : r.mapState id = r := by cases r <;> rfl

@[simp] theorem mapNext_id (o : Host.Outcome State Fault Refusal) : mapNext id o = o := by cases o <;> rfl

/-- `f` keeps what the cycle looks at, and the ends of a cycle do the same before and after it. -/
structure CycleMap (f : State → State) : Prop where
  procState : ∀ s, (f s).procState = s.procState
  tv : ∀ s, (f s).tv = s.tv
  beginCycle : ∀ s, f (beginCycle s) = beginCycle (f s)
  retire : ∀ s, f (retire s) = retire (f s)
  errorEntry : ∀ e w s, f (errorEntry e w s) = errorEntry e w (f s)

theorem CycleMap.id : CycleMap id := ⟨fun _ => rfl, fun _ => rfl, fun _ => rfl, fun _ => rfl, fun _ _ _ => rfl⟩

section Maps

variable {f g : State → State}

/-- The end of a cycle, seen through `f`. -/
theorem CycleMap.mapNext_endCycle (hf : CycleMap f) (w : Word) (r : Run) :
    mapNext f (endCycle w r) = endCycle w (r.mapState f) := by
  cases r with
  | done s => exact congrArg _ (hf.retire s)
  | raised e s => exact congrArg _ ((hf.retire _).trans (congrArg _ (hf.errorEntry e w s)))
  | fault x => rfl

theorem stopAt_mapState {s t : State} (hst : g t = f s) (stop : Stop) :
    (stopAt t stop).mapState g = (stopAt s stop).mapState f := by
  cases stop with
  | raised e => exact congrArg (Run.raised e) hst
  | fault x => rfl

/-- Two runs of a rule that checks before it writes end the same when their answers are the same. -/
theorem precise_mapState {s t : State} {r r' : Except Stop State} (hst : g t = f s) (hr : g <$> r' = f <$> r) :
    (precise t r').mapState g = (precise s r).mapState f := by
  cases r with
  | ok a =>
    cases r' with
    | ok b => exact congrArg Run.done (Except.ok.inj hr)
    | error e => cases hr
  | error e =>
    cases r' with
    | ok b => cases hr
    | error e' =>
      cases hr
      exact stopAt_mapState hst e

/-- A rule that checks before it writes ends the same from `f s`, when its answer is the same seen through `f`. -/
theorem precise_map (hgf : ∀ s, g (f s) = f s) {s : State} {r r' : Except Stop State} (hr : r' = f <$> r) :
    (precise (f s) r').mapState g = (precise s r).mapState f := by
  subst hr
  refine precise_mapState (hgf s) ?_
  cases r with
  | ok t => exact congrArg Except.ok (hgf t)
  | error stop => rfl

/-- A command's cycles from `f s` and from `s` end the same, seen through `g` and `f`, when its rule's runs do. -/
theorem runCommand_map (hf : CycleMap f) (hg : CycleMap g) (hgf : ∀ s, g (f s) = f s) {i : Instr}
    {body : State → Run} {s : State}
    (hbody : Runs i.opcode s → (body (f (beginCycle s))).mapState g = (body (beginCycle s)).mapState f) :
    mapNext g (runCommand i body (f s)) = mapNext f (runCommand i body s) := by
  have hbegin := hf.beginCycle s
  by_cases hst : s.procState = .error
  · have hst' : (f s).procState = .error := (hf.procState s).trans hst
    cases hr : runsInError i.opcode with
    | true =>
      rw [runCommand_in_error body hst hr, runCommand_in_error body hst' hr, hf.mapNext_endCycle,
        hg.mapNext_endCycle, ← hbegin, hbody (.inl ⟨hst, hr⟩)]
    | false =>
      rw [runCommand_discarded body hst hr, runCommand_discarded body hst' hr, ← hbegin]
      simp only [mapNext, hg.retire, hf.retire, hgf]
  · have hst' : (f s).procState ≠ .error := fun h => hst ((hf.procState s).symm.trans h)
    have hallowed : allowed i.opcode (f s).procState (f s).tv = allowed i.opcode s.procState s.tv := by
      rw [hf.procState, hf.tv]
    cases ha : allowed i.opcode s.procState s.tv with
    | true =>
      rw [runCommand_of_allowed body hst ha, runCommand_of_allowed body hst' (hallowed.trans ha), hf.mapNext_endCycle,
        hg.mapNext_endCycle, ← hbegin, hbody (.inr ⟨hst, ha⟩)]
    | false =>
      rw [runCommand_refused body hst ha, runCommand_refused body hst' (hallowed.trans ha), ← hbegin, hf.procState,
        hf.tv]
      simp only [mapNext, hg.retire, hf.retire, hg.errorEntry, hf.errorEntry, hgf]

/-! ### The queries and the stream, seen through a function -/

theorem bigramQuery_map {m : Mode} {s : State} (hlookup : ∀ c1 c2, lookup m c1 c2 (f s) = lookup m c1 c2 s)
    (halen : (f s).alen = s.alen) (hresult : ∀ r, f { s with result := r } = { f s with result := r }) (c1 c2 : Nat) :
    bigramQuery m c1 c2 (f s) = f <$> bigramQuery m c1 c2 s := by
  have hcheck : ∀ sub c, checkCode sub c (f s) = checkCode sub c s := fun sub c => by rw [checkCode, halen]; rfl
  unfold bigramQuery
  rw [hcheck, hcheck, hlookup]
  cases checkCode 1 c1 s with
  | error stop => rfl
  | ok _ =>
    cases checkCode 2 c2 s with
    | error stop => rfl
    | ok _ =>
      cases lookup m c1 c2 s with
      | error stop => rfl
      | ok o => exact congrArg Except.ok (hresult _).symm

theorem unpackQuery_map {c : Nat} {s : State} (hunpack : c < s.alen → unpackCode c (f s) = unpackCode c s)
    (halen : (f s).alen = s.alen) (hresult : ∀ r, f { s with result := r } = { f s with result := r }) :
    unpackQuery c (f s) = f <$> unpackQuery c s := by
  unfold unpackQuery
  by_cases hc : c < s.alen
  · rw [(checkCode_ok_iff 1 c s).2 hc, (checkCode_ok_iff 1 c (f s)).2 (halen.symm ▸ hc)]
    change (unpackCode c (f s) >>= _) = f <$> (unpackCode c s >>= _)
    rw [hunpack hc]
    cases unpackCode c s with
    | error stop => rfl
    | ok v => exact congrArg Except.ok (hresult _).symm
  · rw [checkCode_of_le (Nat.le_of_not_lt hc), checkCode_of_le (halen.symm ▸ Nat.le_of_not_lt hc)]
    rfl

/-- `f` keeps what DATA and END look at in `s`, and what they write is written the same before and after it. -/
structure StreamMap (f : State → State) (s : State) : Prop where
  pack : ∀ v, packByte v (f s) = packByte v s
  pad : (f s).pad = s.pad
  pend : (f s).pend = s.pend
  carry : (f s).carry = s.carry
  params : (f s).params = s.params
  resolve : ∀ c1 v, s.pend = some c1 → (packByte v s).valid = true ∨ v = s.pad →
    resolve c1 (packByte v s).code (f s) = f <$> resolve c1 (packByte v s).code s
  setPend : ∀ c, f { s with pend := some c } = { f s with pend := some c }
  carryByte : ∀ v, f { s with carry := s.carry ++ [v] } = { f s with carry := (f s).carry ++ [v] }
  emitByte : ∀ v, f (emitByte v s) = emitByte v (f s)
  countInput : ∀ u, f { u with inCount := u.inCount + 1 } = { f u with inCount := (f u).inCount + 1 }
  close : ∀ u, f { emit eosMarker u with procState := .idle } = { emit eosMarker (f u) with procState := .idle }

namespace StreamMap

variable {s : State}

theorem alphabetByte (h : StreamMap f s) {v : Byte} (hv : (packByte v s).valid = true) :
    alphabetByte (packByte v s).code (f s) = f <$> alphabetByte (packByte v s).code s := by
  unfold Machine.alphabetByte
  rw [h.pend]
  split
  · exact congrArg Except.ok (h.setPend _).symm
  · rename_i c1 hpend
    exact h.resolve c1 v hpend (.inl hv)

theorem excludedByte (h : StreamMap f s) (v : Byte) : excludedByte v (f s) = f <$> excludedByte v s := by
  cases hpend : s.pend with
  | none =>
    rw [excludedByte_of_none hpend, excludedByte_of_none (h.pend.trans hpend), ← h.emitByte]
    rfl
  | some c =>
    rw [excludedByte_of_pending hpend, excludedByte_of_pending (h.pend.trans hpend), ← h.carryByte, h.carry,
      h.params]
    split <;> rfl

theorem dataByte (h : StreamMap f s) (v : Byte) : dataByte v (f s) = f <$> dataByte v s := by
  have hcount : ∀ r : Except Stop State,
      ((f <$> r) >>= fun t => .ok { t with inCount := t.inCount + 1 }) =
        f <$> (r >>= fun t => .ok { t with inCount := t.inCount + 1 }) := by
    rintro (stop | u)
    · rfl
    · exact congrArg Except.ok (h.countInput u).symm
  rw [dataByte_eq, dataByte_eq, h.pack, ← hcount]
  cases hvalid : (packByte v s).valid with
  | true => rw [if_pos rfl, if_pos rfl, h.alphabetByte hvalid]
  | false => rw [if_neg nofun, if_neg nofun, h.excludedByte]

theorem padPending (h : StreamMap f s) : padPending (f s) = f <$> padPending s := by
  unfold Machine.padPending
  rw [h.pend, h.carry, h.pad, h.pack]
  split
  · rename_i c1 hpend
    exact h.resolve c1 s.pad hpend (.inr rfl)
  · split <;> rfl

theorem endOfStream (h : StreamMap f s) : endOfStream (f s) = f <$> endOfStream s := by
  unfold Machine.endOfStream
  rw [h.padPending]
  cases Machine.padPending s with
  | error stop => rfl
  | ok u => exact congrArg Except.ok (h.close u).symm

end StreamMap

/-! ### The cycles of words -/

/-- The cycle of an illegal word looks at STATE only. -/
theorem runIllegal_map (hf : CycleMap f) (w : Word) (e : DecodeError) (s : State) :
    runIllegal w e (f s) = mapNext f (runIllegal w e s) := by
  rw [runIllegal_eq, runIllegal_eq, hf.procState, ← hf.beginCycle]
  split <;> simp only [mapNext, hf.retire, hf.errorEntry]

end Maps

/-- The cycle of a word: the command it decodes to, or an illegal word (R104). -/
def runWord (w : Word) (s : State) : Host.Outcome State Fault Refusal :=
  match decode w with
  | .ok i => exec i s
  | .error e => runIllegal w e s

theorem step_of_nil {s : State} (h : s.cmds = []) : step s = .next s := by simp [step, takeWord, h]

theorem step_of_cons {s : State} {w : Word} {ws : List Word} (h : s.cmds = w :: ws) :
    step s = runWord w { s with cmds := ws } := by
  simp only [step, takeWord, h]
  rfl

end Sys2Proof.Machine
end

section
/-! Proofs: no observation depends on the memory entries that ALEN, KLEN and TV gate off (10_state R17, 20_memory R37).
Every command's rule answers the same from `s` and from `observablePart s`, seen through `observablePart`. -/

namespace Sys2Proof.Machine

/-! ### The entries below an index -/

section Below

variable {α : Type} [DecidableEq α] {u : α} {size n : Nat} {m : Memory α}

/-- A memory with its entries from index `n` up forgotten. -/
def Memory.below (n : Nat) (m : Memory α) : Memory α := m.filter (fun e => decide (e.1 < n))

omit [DecidableEq α] in
theorem below_below (n : Nat) (m : Memory α) : (m.below n).below n = m.below n := by
  simp [Memory.below, List.filter_filter]

omit [DecidableEq α] in
theorem below_zero (m : Memory α) : m.below 0 = [] := by simp [Memory.below]

theorem below_wf (h : Memory.wf u size m = true) (n : Nat) : Memory.wf u size (m.below n) = true := by
  induction m with
  | nil => rfl
  | cons e m ih =>
    obtain ⟨j, x⟩ := e
    obtain ⟨hj, hx, hlt, hw⟩ := (wf_cons_iff x).1 h
    by_cases hjn : j < n
    · rw [Memory.below, List.filter_cons_of_pos (by simpa using hjn)]
      exact (wf_cons_iff x).2 ⟨hj, hx, fun f hf => hlt f (List.mem_of_mem_filter hf), ih hw⟩
    · rw [Memory.below, List.filter_cons_of_neg (by simpa using hjn)]
      exact ih hw

/-- A forgotten entry reads as unlisted, every other one as before. -/
theorem read_below (h : Memory.wf u size m = true) (n i : Nat) :
    Memory.read u (m.below n) i = if i < n then Memory.read u m i else u := by
  have hmem : ∀ v, (i, v) ∈ m.below n ↔ (i, v) ∈ m ∧ i < n := by simp [Memory.below]
  have hb := below_wf h n
  by_cases hv : Memory.read u (m.below n) i = u
  · rw [hv]
    split
    · rename_i hin
      by_contra hne
      have := (hmem _).2 ⟨(mem_iff_read h i _).2 ⟨rfl, fun heq => hne heq.symm⟩, hin⟩
      exact hne (((mem_iff_read hb i _).1 this).1.symm.trans hv).symm
    · rfl
  · obtain ⟨hin, hlt⟩ := (hmem _).1 ((mem_iff_read hb i _).2 ⟨rfl, hv⟩)
    rw [if_pos hlt]
    exact ((mem_iff_read h i _).1 hin).1.symm

theorem read_below_of_lt (h : Memory.wf u size m = true) {i : Nat} (hi : i < n) :
    Memory.read u (m.below n) i = Memory.read u m i := by rw [read_below h, if_pos hi]

/-- Writing entry `n` makes it the last one kept, whether or not the entries from `n` up were forgotten before. -/
theorem below_succ_write_below (h : Memory.wf u size m = true) (hn : n < size) (v : α) :
    (Memory.write u (m.below n) n v).below (n + 1) = (Memory.write u m n v).below (n + 1) := by
  have hb := below_wf h n
  have hw := write_wf h hn v
  have hw' := write_wf hb hn v
  refine memory_ext (below_wf hw' _) (below_wf hw _) fun i => ?_
  rw [read_below hw', read_below hw, read_write hb, read_write h, read_below h]
  split
  · split
    · rfl
    · rw [if_pos (by omega)]
  · rfl

end Below

/-! ### What is left of a state -/

variable {s : State}

theorem observablePart_cycleMap : CycleMap observablePart where
  procState _ := rfl
  tv _ := rfl
  beginCycle _ := rfl
  retire _ := rfl
  errorEntry e w s := by rw [errorEntry_eq, errorEntry_eq]; rfl

theorem observablePart_of_tv (htv : s.tv = true) :
    observablePart s = { s with alpha := s.alpha.below s.alen, key := s.key.below s.klen } := by
  simp [observablePart, Memory.below, htv]

/-- An ALPHA and a KEY that agree below ALEN and KLEN look the same. -/
theorem observablePart_of_loaded {alpha key : Memory Byte} (halpha : alpha.below s.alen = s.alpha.below s.alen)
    (hkey : key.below s.klen = s.key.below s.klen) :
    observablePart { s with alpha := alpha, key := key } = observablePart s := by
  unfold Memory.below at halpha hkey
  simp only [observablePart, halpha, hkey]

/-- Without tables, memories that agree below ALEN and KLEN look the same. -/
theorem observablePart_of_memories (htv : s.tv = false) {alpha key : Memory Byte} (codec : Memory CodecEntry)
    (enc dec : Memory TableEntry) (halpha : alpha.below s.alen = s.alpha.below s.alen)
    (hkey : key.below s.klen = s.key.below s.klen) :
    observablePart { s with alpha := alpha, key := key, codec := codec, enc := enc, dec := dec } =
      observablePart s := by
  rw [← observablePart_of_loaded halpha hkey]
  simp [observablePart, htv]

/-- What is left of a state is left of it again. -/
theorem observablePart_observablePart (s : State) : observablePart (observablePart s) = observablePart s := by
  cases htv : s.tv with
  | true =>
    exact (congrArg observablePart (observablePart_of_tv htv)).trans
      (observablePart_of_loaded (below_below _ _) (below_below _ _))
  | false => exact observablePart_of_memories htv _ _ _ (below_below _ _) (below_below _ _)

/-- No register shows a memory entry (R23 to R34). -/
theorem readRegister_observablePart (s : State) (a : BitVec 8) :
    readRegister (observablePart s) a = readRegister s a := rfl

/-- The symbols with a code are left. -/
theorem symbolAt_observablePart (h : StorageInv s) {i : Nat} (hi : i < s.alen) :
    symbolAt (observablePart s) i = symbolAt s i := by
  obtain ⟨halpha, -⟩ := h.memories
  exact read_below_of_lt halpha hi

/-- The key's symbols are left. -/
theorem keyAt_observablePart (h : StorageInv s) {i : Nat} (hi : i < s.klen) :
    keyAt (observablePart s) i = keyAt s i := by
  obtain ⟨-, hkey, -⟩ := h.memories
  exact read_below_of_lt hkey hi

/-! ### The commands that write the configuration -/

theorem invalidate_observablePart (s : State) :
    observablePart (invalidate (observablePart s)) = observablePart (invalidate s) :=
  observablePart_of_memories (s := invalidate s) rfl _ _ _ (below_below _ _) (below_below _ _)

/-- APUSH with room (R71). -/
theorem apush_of_lt (hlt : s.alen < nmaxOf s.params) (byte : Byte) :
    apush byte s = .ok (invalidate
      { s with alpha := Memory.write unlistedByte s.alpha s.alen byte, alen := s.alen + 1 }) := by
  rw [apush, if_neg hlt.ne, (memWrite_ok_iff _ _ _ _ _ _).2 ⟨hlt, rfl⟩]
  rfl

/-- KPUSH with room (R75). -/
theorem kpush_of_lt (hlt : s.klen < 2 * nmaxOf s.params) (byte : Byte) :
    kpush byte s = .ok (invalidate
      { s with key := Memory.write unlistedByte s.key s.klen byte, klen := s.klen + 1 }) := by
  rw [kpush, if_neg hlt.ne, (memWrite_ok_iff _ _ _ _ _ _).2 ⟨hlt, rfl⟩]
  rfl

theorem apush_observablePart (h : StorageInv s) (byte : Byte) :
    observablePart <$> apush byte (observablePart s) = observablePart <$> apush byte s := by
  obtain ⟨halpha, -⟩ := h.memories
  by_cases hfull : s.alen = nmaxOf s.params
  · simp [apush, hfull, raise, observablePart]
  · have hlt : s.alen < nmaxOf s.params := lt_of_le_of_ne h.alen_le hfull
    rw [apush_of_lt hlt, apush_of_lt (s := observablePart s) hlt]
    exact congrArg Except.ok (observablePart_of_memories
      (s := invalidate { s with alpha := Memory.write unlistedByte s.alpha s.alen byte, alen := s.alen + 1 })
      rfl _ _ _ (below_succ_write_below halpha hlt byte) (below_below _ _))

theorem kpush_observablePart (h : StorageInv s) (byte : Byte) :
    observablePart <$> kpush byte (observablePart s) = observablePart <$> kpush byte s := by
  obtain ⟨-, hkey, -⟩ := h.memories
  by_cases hfull : s.klen = 2 * nmaxOf s.params
  · simp [kpush, hfull, raise, observablePart]
  · have hlt : s.klen < 2 * nmaxOf s.params := lt_of_le_of_ne h.klen_le hfull
    rw [kpush_of_lt hlt, kpush_of_lt (s := observablePart s) hlt]
    exact congrArg Except.ok (observablePart_of_memories
      (s := invalidate { s with key := Memory.write unlistedByte s.key s.klen byte, klen := s.klen + 1 })
      rfl _ _ _ (below_below _ _) (below_succ_write_below hkey hlt byte))

/-! ### BUILD -/

/-- The alphabet checks read the symbols with a code only (R77). -/
theorem alphaCheck_congr {s t : State} (halen : t.alen = s.alen) (hparams : t.params = s.params)
    (hsym : ∀ i < s.alen, symbolAt t i = symbolAt s i) : alphaCheck t = alphaCheck s := by
  have hrange : ∀ i ∈ List.range s.alen,
      decide (0x80 ≤ (symbolAt t i).toNat) = decide (0x80 ≤ (symbolAt s i).toNat) :=
    fun i hi => by rw [hsym i (List.mem_range.1 hi)]
  have hdup : ∀ i ∈ List.range s.alen, duplicateAt t i = duplicateAt s i := by
    intro i hi
    have hi := List.mem_range.1 hi
    rw [Bool.eq_iff_iff]
    simp only [duplicateAt, List.any_eq_true, List.mem_range, beq_iff_eq]
    refine exists_congr fun j => and_congr_right fun hj => ?_
    rw [hsym i hi, hsym j (hj.trans hi)]
  unfold alphaCheck
  rw [halen, hparams]
  dsimp only
  rw [List.find?_congr hrange, List.find?_congr hdup]

/-- The codec of the first `n` symbols reads those symbols only (R68). -/
theorem codecBuild_congr {alpha beta : Memory Byte} {n : Nat}
    (h : ∀ i < n, Memory.read unlistedByte beta i = Memory.read unlistedByte alpha i) :
    codecBuild beta n = codecBuild alpha n :=
  List.foldl_ext _ _ _ fun _ i hi => by rw [h i (List.mem_range.1 hi)]

/-- The key checks read the key's symbols only (R79). -/
theorem keyCheck_congr {s t : State} (halen : t.alen = s.alen) (hklen : t.klen = s.klen) (hcodec : t.codec = s.codec)
    (hkey : ∀ i < s.klen, keyAt t i = keyAt s i) : keyCheck t = keyCheck s := by
  have hpack : ∀ v, packByte v t = packByte v s := fun v => by rw [packByte, hcodec]; rfl
  unfold keyCheck
  rw [halen, hklen]
  dsimp only
  split
  · rfl
  rename_i hlen
  have hrange : ∀ i ∈ List.range (2 * s.alen),
      (!(packByte (keyAt t i) t).valid) = !(packByte (keyAt s i) s).valid := by
    intro i hi
    have := List.mem_range.1 hi
    rw [hkey i (by omega), hpack]
  rw [List.find?_congr hrange]

theorem codecBuild_observablePart (h : StorageInv s) :
    codecBuild (observablePart s).alpha s.alen = codecBuild s.alpha s.alen :=
  codecBuild_congr fun _ hi => symbolAt_observablePart h hi

/-- `populate` reads the key's symbols only (R81). -/
theorem builtEnc_observablePart (h : StorageInv s) (hchecks : ChecksPass s) :
    builtEnc (observablePart s) = builtEnc s := by
  have hsq := hchecks.side_mul_side
  have hklen := hchecks.klen_eq
  have hcode : ∀ i < 2 * s.alen,
      (packByte (keyAt (observablePart s) i) (withCodec (observablePart s))).code =
        (packByte (keyAt s i) (withCodec s)).code := by
    intro i hi
    rw [keyAt_observablePart h (by omega)]
    exact congrArg (fun c => (Memory.read unknownCode c _).code) (codecBuild_observablePart h)
  refine List.foldl_ext _ _ _ fun enc q hq => ?_
  obtain ⟨c1y, c1x, c2y, c2x⟩ := q
  obtain ⟨h1y, h1x, h2y, h2x⟩ := (mem_bigramPositions _ _ _ _ _).1 hq
  have hcell1 : c1y * isqrt s.alen + c2x < isqrt s.alen * isqrt s.alen := square0_lt h1y h2x
  have hcell2 : c2y * isqrt s.alen + c1x < isqrt s.alen * isqrt s.alen := square0_lt h2y h1x
  have hsquare1 := hcode (c1y * isqrt s.alen + c2x) (by omega)
  have hsquare2 := hcode (s.alen + c2y * isqrt s.alen + c1x) (by omega)
  have hentry : positionEntry (fillTables (withCodec (observablePart s))) (isqrt s.alen) (clog2 s.alen)
      (c1y, c1x, c2y, c2x) = positionEntry (fillTables (withCodec s)) (isqrt s.alen) (clog2 s.alen)
      (c1y, c1x, c2y, c2x) :=
    congrArg₂ (fun a b => ({ valid := true, value := pack2 (clog2 s.alen) a b } : TableEntry)) hsquare1 hsquare2
  exact congrArg (Memory.write sentinel enc _) hentry

theorem withCodec_observablePart (s : State) :
    observablePart (withCodec (observablePart s)) = observablePart (withCodec s) :=
  observablePart_of_memories (s := withCodec s) rfl _ _ _ (below_below _ _) (below_below _ _)

theorem padCheck_observablePart (h : StorageInv s) :
    padCheck (withCodec (observablePart s)) = padCheck (withCodec s) := by
  have hpack : packByte s.pad (withCodec (observablePart s)) = packByte s.pad (withCodec s) :=
    congrArg (Memory.read unknownCode · _) (codecBuild_observablePart h)
  change (if (packByte s.pad (withCodec (observablePart s))).valid then _ else _) = _
  rw [hpack]
  rfl

/-- The state that a BUILD that succeeds leaves (R83). -/
def builtState (s : State) (dec : Memory TableEntry) : State :=
  { s with
    codec := codecBuild s.alpha s.alen, enc := builtEnc s, dec := dec, k := isqrt s.alen, b := clog2 s.alen,
    tv := true }

/-- After its checks, BUILD makes the same tables, or meets the same collision (R76, R82). -/
theorem buildTables_observablePart (h : StorageInv s) (hchecks : ChecksPass s) :
    (buildTables (withCodec (observablePart s))).mapState observablePart =
      (buildTables (withCodec s)).mapState observablePart := by
  have henc := builtEnc_observablePart h hchecks
  rcases hinvert : invert (builtEnc s) (clog2 s.alen) Memory.blank with ⟨dec, _ | i⟩
  · have hinvert' : invert (builtEnc (observablePart s)) (clog2 s.alen) Memory.blank = (dec, none) := henc ▸ hinvert
    rw [(buildTables_done_iff s (builtState s dec)).2 ⟨dec, hinvert, rfl⟩,
      (buildTables_done_iff (observablePart s) (builtState (observablePart s) dec)).2 ⟨dec, hinvert', rfl⟩]
    have hbuilt : builtState (observablePart s) dec =
        { builtState s dec with alpha := (observablePart s).alpha, key := (observablePart s).key } := by
      rw [builtState, henc, show (observablePart s).alen = s.alen from rfl, codecBuild_observablePart h]
      rfl
    exact congrArg Run.done ((congrArg observablePart hbuilt).trans
      (observablePart_of_loaded (below_below _ _) (below_below _ _)))
  · have hinvert' : invert (builtEnc (observablePart s)) (clog2 s.alen) Memory.blank = (dec, some i) :=
      henc ▸ hinvert
    rw [buildTables_of_collision hinvert, buildTables_of_collision (s := observablePart s) hinvert']
    exact congrArg (Run.raised _) (observablePart_of_memories
      (s := invalidate { s with codec := codecBuild s.alpha s.alen, enc := builtEnc s, dec := dec })
      rfl _ _ _ (below_below _ _) (below_below _ _))

theorem build_observablePart (h : StorageInv s) :
    (build (observablePart s)).mapState observablePart = (build s).mapState observablePart := by
  have halpha : alphaCheck (invalidate (observablePart s)) = alphaCheck (invalidate s) :=
    alphaCheck_congr rfl rfl fun _ hi => symbolAt_observablePart h hi
  have hpad := padCheck_observablePart h
  have hkey : keyCheck (withCodec (observablePart s)) = keyCheck (withCodec s) :=
    keyCheck_congr rfl rfl (codecBuild_observablePart h) fun _ hi => keyAt_observablePart h hi
  have hcodec := withCodec_observablePart s
  rw [build_eq, build_eq, halpha, hpad, hkey]
  cases ha : alphaCheck (invalidate s) with
  | error stop => exact stopAt_mapState (invalidate_observablePart s) stop
  | ok _ =>
    cases hp : padCheck (withCodec s) with
    | error stop => exact stopAt_mapState hcodec stop
    | ok _ =>
      cases hk : keyCheck (withCodec s) with
      | error stop => exact stopAt_mapState hcodec stop
      | ok _ => exact buildTables_observablePart h ⟨ha, hp, hk⟩

/-! ### The commands that read the tables -/

/-- With tables, CODEC, ENC and DEC are left. -/
theorem packByte_observablePart (htv : s.tv = true) (v : Byte) : packByte v (observablePart s) = packByte v s := by
  rw [observablePart_of_tv htv]
  rfl

theorem lookup_observablePart (htv : s.tv = true) (m : Mode) (c1 c2 : Nat) :
    lookup m c1 c2 (observablePart s) = lookup m c1 c2 s := by
  rw [observablePart_of_tv htv]
  cases m <;> rfl

theorem unpackCode_observablePart (h : StorageInv s) {c : Nat} (hc : c < s.alen) :
    unpackCode c (observablePart s) = unpackCode c s := by
  rw [unpackCode_of_lt h hc]
  exact (unpackCode_ok_iff c _ _).2 ⟨lt_of_lt_of_le hc h.alen_le, symbolAt_observablePart h hc⟩

theorem emitBigram_observablePart (x1 x2 : Byte) (s : State) :
    emitBigram x1 x2 (observablePart s) = observablePart (emitBigram x1 x2 s) := by
  rw [emitBigram_eq, emitBigram_eq]
  rfl

/-- With tables, two codes below N resolve to the same bytes (R92). -/
theorem resolve_observablePart (h : StorageInv s) (hbuilt : build s = .done s) {c1 c2 : Nat} (h1 : c1 < s.alen)
    (h2 : c2 < s.alen) : resolve c1 c2 (observablePart s) = observablePart <$> resolve c1 c2 s := by
  obtain ⟨o1, o2, hlookup, ho1, ho2⟩ := lookup_of_built hbuilt s.mode h1 h2
  have hs := (resolve_ok_iff c1 c2 s _).2
    ⟨(o1, o2), _, _, hlookup, unpackCode_of_lt h ho1, unpackCode_of_lt h ho2, rfl⟩
  have ho := (resolve_ok_iff c1 c2 (observablePart s) _).2
    ⟨(o1, o2), _, _, (lookup_observablePart (tv_of_built hbuilt) _ _ _).trans hlookup,
      (unpackCode_observablePart h ho1).trans (unpackCode_of_lt h ho1),
      (unpackCode_observablePart h ho2).trans (unpackCode_of_lt h ho2), rfl⟩
  rw [hs, ho, emitBigram_observablePart]
  rfl

theorem streamMap_observablePart (h : CycleInv s) (hbuilt : build s = .done s) : StreamMap observablePart s where
  pack := packByte_observablePart (tv_of_built hbuilt)
  pad := rfl
  pend := rfl
  carry := rfl
  params := rfl
  resolve c1 v hpend hv := by
    have hvalid : (packByte v s).valid = true := hv.elim id (· ▸ pad_valid_of_built hbuilt)
    exact resolve_observablePart h.config.toStorageInv hbuilt (h.stream.pend_lt hpend)
      (packByte_code_lt_of_built hbuilt hvalid)
  setPend _ := rfl
  carryByte _ := rfl
  emitByte _ := rfl
  countInput _ := rfl
  close _ := rfl

/-! ### The step -/

theorem clear_observablePart (s : State) :
    observablePart (clear (observablePart s)) = observablePart (clear s) := by
  have hleft : clear (observablePart s) = { clear s with
      alpha := (observablePart s).alpha, key := (observablePart s).key, codec := (observablePart s).codec,
      enc := (observablePart s).enc, dec := (observablePart s).dec } := by
    rw [clear_eq, clear_eq]
    rfl
  rw [hleft]
  exact observablePart_of_memories rfl _ _ _ ((below_zero _).trans (below_zero _).symm)
    ((below_zero _).trans (below_zero _).symm)

/-- Every rule that the state lets run ends the same from what is left of the state. -/
theorem rule_observablePart (i : Instr) (h : CycleInv s) (hr : Runs i.opcode s) :
    (rule i (observablePart s)).mapState observablePart = (rule i s).mapState observablePart := by
  have hstorage := h.config.toStorageInv
  have hidem := observablePart_observablePart
  cases i with
  | nop => exact congrArg Run.done (hidem s)
  | clear => exact congrArg Run.done (clear_observablePart s)
  | apush byte => exact precise_mapState (hidem s) (apush_observablePart hstorage byte)
  | kpush byte => exact precise_mapState (hidem s) (kpush_observablePart hstorage byte)
  | setpad byte => exact congrArg Run.done (invalidate_observablePart { s with pad := byte })
  | build => exact build_observablePart hstorage
  | start mode =>
    exact congrArg Run.done (hidem
      { s with mode := mode, pend := none, carry := [], inCount := 0, outCount := 0, procState := .stream })
  | data byte => exact precise_map hidem ((streamMap_observablePart h (hr.built h ⟨rfl, rfl⟩)).dataByte byte)
  | endStream => exact precise_map hidem (streamMap_observablePart h (hr.built h ⟨rfl, rfl⟩)).endOfStream
  | abort =>
    refine congrArg Run.done ?_
    rw [abortStream_eq (observablePart s), ← hidem (abortStream s), abortStream_eq s]
    rfl
  | encb c1 c2 =>
    have hlookup := lookup_observablePart (tv_of_built (hr.built h ⟨rfl, rfl⟩)) .enc
    exact precise_map hidem (bigramQuery_map hlookup rfl (fun _ => rfl) c1 c2)
  | decb c1 c2 =>
    have hlookup := lookup_observablePart (tv_of_built (hr.built h ⟨rfl, rfl⟩)) .dec
    exact precise_map hidem (bigramQuery_map hlookup rfl (fun _ => rfl) c1 c2)
  | pack byte =>
    have hpack := packByte_observablePart (tv_of_built (hr.built h ⟨rfl, rfl⟩)) byte
    refine congrArg Run.done ?_
    rw [hpack]
    exact hidem { s with result := packResult (packByte byte s) }
  | unpack c => exact precise_map hidem (unpackQuery_map (unpackCode_observablePart hstorage) rfl fun _ => rfl)
  | errack =>
    refine congrArg Run.done ?_
    rw [errack_eq (observablePart s), ← hidem (ite _ _ _), errack_eq s]
    rfl

theorem runWord_observablePart (w : Word) (h : Inv s) :
    mapNext observablePart (runWord w (observablePart s)) = mapNext observablePart (runWord w s) := by
  have hmap := observablePart_cycleMap
  unfold runWord
  split
  · rename_i i _
    rw [exec_eq_runCommand, exec_eq_runCommand]
    exact runCommand_map hmap hmap observablePart_observablePart
      fun hr => rule_observablePart i (beginCycle_cycleInv h) hr
  · rename_i e _
    rw [runIllegal_map hmap, runIllegal_eq]
    exact congrArg Host.Outcome.next (observablePart_observablePart _)

/-- A step from what is left of a state leaves the same, seen the same way. -/
theorem step_observablePart (h : Inv s) :
    mapNext observablePart (step (observablePart s)) = mapNext observablePart (step s) := by
  cases hcmds : s.cmds with
  | nil =>
    rw [step_of_nil hcmds, step_of_nil (s := observablePart s) hcmds]
    exact congrArg Host.Outcome.next (observablePart_observablePart s)
  | cons w ws =>
    rw [step_of_cons hcmds, step_of_cons (s := observablePart s) hcmds]
    exact runWord_observablePart w (inv_of_channels h (cycleInv_of_inv h).out ws)

/-- Settles O60: a step depends on what is left of the state only, and so do OUT and every register. -/
theorem unspecifiedMemoryIsUnobservable : Obligations.UnspecifiedMemoryIsUnobservable := by
  unfold Obligations.UnspecifiedMemoryIsUnobservable
  intro s t hs ht heq
  obtain ⟨s', hs', -⟩ := step_inv hs
  obtain ⟨t', ht', -⟩ := step_inv ht
  have hmap : mapNext observablePart (step s) = mapNext observablePart (step t) := by
    rw [← step_observablePart hs, ← step_observablePart ht, heq]
  rw [hs', ht'] at hmap
  have hleft : observablePart s' = observablePart t' := Host.Outcome.next.inj hmap
  have hout : (observablePart s').out = (observablePart t').out := congrArg State.out hleft
  have hregs : ∀ a, readRegister s' a = readRegister t' a :=
    fun a => by rw [← readRegister_observablePart s', ← readRegister_observablePart t', hleft]
  exact ⟨s', t', hs', ht', hleft, hout, hregs⟩

end Sys2Proof.Machine
end

section
/-! Proofs: everything a command can do to the state when its cycle answers, said once (10_state R17, 44_control R104,
60_exceptions R121), in any state, and what that means for CMD_DONE and the command channel. -/

namespace Sys2Proof.Machine

variable {s t : State}

/-! ### What each rule does at its last line -/

/-- `Effect s i t`: the rule of `i`, run in `s` to its last line, leaves `t`. The memories that a rule writes, the
answer of a query and the bytes that a stream emits are left open. -/
inductive Effect (s : State) : Instr → State → Prop
  | nop : Effect s .nop s
  | clear : Effect s .clear (clear s)
  | apush (byte : Byte) (alpha : Memory Byte) :
    Effect s (.apush byte) (invalidate { s with alpha := alpha, alen := s.alen + 1 })
  | kpush (byte : Byte) (key : Memory Byte) :
    Effect s (.kpush byte) (invalidate { s with key := key, klen := s.klen + 1 })
  | setpad (byte : Byte) : Effect s (.setpad byte) (invalidate { s with pad := byte })
  | build (codec : Memory CodecEntry) (enc dec : Memory TableEntry) (k b : Nat) :
    Effect s .build { s with codec := codec, enc := enc, dec := dec, k := k, b := b, tv := true }
  | start (mode : Mode) : Effect s (.start mode)
    { s with mode := mode, pend := none, carry := [], inCount := 0, outCount := 0, procState := .stream }
  | data (byte : Byte) (pend : Option Nat) (carry emitted : List Byte) : Effect s (.data byte)
    { s with
      pend := pend, carry := carry, out := s.out ++ emitted.map dataToken,
      outCount := s.outCount + BitVec.ofNat 32 emitted.length, inCount := s.inCount + 1 }
  | endStream (emitted : List Byte) : Effect s .endStream
    { s with
      pend := none, carry := [], out := s.out ++ (emitted.map dataToken ++ [eosMarker]),
      outCount := s.outCount + BitVec.ofNat 32 emitted.length, procState := .idle }
  | abort : Effect s .abort (abortStream s)
  | query {i : Instr} (result : BitVec 32) (hi : i.opcode ∈ [.pack, .unpack, .encb, .decb]) :
    Effect s i { s with result := result }
  | errack : Effect s .errack (if s.procState = .error then leaveError s else s)

theorem apush_ok {byte : Byte} (h : apush byte s = .ok t) : Effect s (.apush byte) t := by
  unfold apush at h
  split at h
  · cases h
  · cases hw : memWrite .alpha (nmaxOf s.params) unlistedByte s.alpha s.alen byte with
    | error stop => rw [hw] at h; cases h
    | ok alpha => rw [hw] at h; cases h; exact .apush byte alpha

theorem kpush_ok {byte : Byte} (h : kpush byte s = .ok t) : Effect s (.kpush byte) t := by
  unfold kpush at h
  split at h
  · cases h
  · cases hw : memWrite .key (2 * nmaxOf s.params) unlistedByte s.key s.klen byte with
    | error stop => rw [hw] at h; cases h
    | ok key => rw [hw] at h; cases h; exact .kpush byte key

theorem unpackQuery_ok {c : Nat} (h : unpackQuery c s = .ok t) : Effect s (.unpack c) t := by
  unfold unpackQuery at h
  cases hc : checkCode 1 c s with
  | error stop => rw [hc] at h; cases h
  | ok _ =>
    cases hv : unpackCode c s with
    | error stop => rw [hc, hv] at h; cases h
    | ok v => rw [hc, hv] at h; cases h; exact .query _ (by simp [Instr.opcode])

theorem bigramQuery_ok {i : Instr} (hi : i.opcode ∈ [.pack, .unpack, .encb, .decb]) {m : Mode} {c1 c2 : Nat}
    (h : bigramQuery m c1 c2 s = .ok t) : Effect s i t := by
  obtain ⟨-, -, o, -, rfl⟩ := (bigramQuery_ok_iff m c1 c2 s t).1 h
  exact .query _ hi

/-- A resolution emits bytes, and leaves nothing pending and nothing carried (R92). -/
theorem resolve_ok {c1 c2 : Nat} (h : resolve c1 c2 s = .ok t) : ∃ emitted : List Byte, t =
    { s with
      pend := none, carry := [], out := s.out ++ emitted.map dataToken,
      outCount := s.outCount + BitVec.ofNat 32 emitted.length } := by
  obtain ⟨o, x1, x2, -, -, -, rfl⟩ := (resolve_ok_iff c1 c2 s t).1 h
  refine ⟨x1 :: (s.carry ++ [x2]), ?_⟩
  simp [emitBigram_eq]

theorem dataByte_ok {byte : Byte} (h : dataByte byte s = .ok t) : Effect s (.data byte) t := by
  obtain ⟨u, rfl, hu⟩ := (dataByte_ok_iff byte s t).1 h
  rcases hu with ⟨-, -, rfl⟩ | ⟨-, c1, -, hresolve⟩ | ⟨-, -, rfl⟩ | ⟨-, -, -, rfl⟩
  · simpa using Effect.data (s := s) byte (some (packByte byte s).code) s.carry []
  · obtain ⟨emitted, rfl⟩ := resolve_ok hresolve
    exact .data byte none [] emitted
  · exact .data byte s.pend s.carry [byte]
  · simpa using Effect.data (s := s) byte s.pend (s.carry ++ [byte]) []

theorem endOfStream_ok (h : endOfStream s = .ok t) : Effect s .endStream t := by
  obtain ⟨u, rfl, hu⟩ := (endOfStream_ok_iff s t).1 h
  rcases hu with ⟨c1, -, hresolve⟩ | ⟨hpend, hcarry, rfl⟩
  · obtain ⟨emitted, rfl⟩ := resolve_ok hresolve
    simpa [emit] using Effect.endStream (s := s) emitted
  · cases u
    cases hpend
    cases hcarry
    simpa [emit] using Effect.endStream []

/-- A rule that ends at its last line has its effect. -/
theorem rule_done {i : Instr} (h : rule i s = .done t) : Effect s i t := by
  cases i with
  | nop => cases h; exact .nop
  | clear => cases h; exact .clear
  | apush byte => exact apush_ok ((precise_done_iff _ _ _).1 h)
  | kpush byte => exact kpush_ok ((precise_done_iff _ _ _).1 h)
  | setpad byte => cases h; exact .setpad byte
  | build =>
    obtain ⟨-, -, -, dec, -, rfl⟩ := (build_done_iff s t).1 h
    exact .build _ _ _ _ _
  | start mode => cases h; exact .start mode
  | data byte => exact dataByte_ok ((precise_done_iff _ _ _).1 h)
  | endStream => exact endOfStream_ok ((precise_done_iff _ _ _).1 h)
  | abort => cases h; exact .abort
  | encb c1 c2 => exact bigramQuery_ok (by simp [Instr.opcode]) ((precise_done_iff _ _ _).1 h)
  | decb c1 c2 => exact bigramQuery_ok (by simp [Instr.opcode]) ((precise_done_iff _ _ _).1 h)
  | pack byte => cases h; exact .query _ (by simp [Instr.opcode])
  | unpack c => exact unpackQuery_ok ((precise_done_iff _ _ _).1 h)
  | errack => cases h; exact .errack

/-! ### What a raise leaves -/

theorem stopAt_raised {e : ErrorReport} {stop : Stop} (h : stopAt s stop = .raised e t) : t = s := by
  cases stop <;> cases h
  rfl

/-- BUILD raises without tables, with CODEC, ENC and DEC as far as it wrote them (R76). -/
theorem build_raised {e : ErrorReport} (h : build s = .raised e t) :
    ∃ codec enc dec, t = invalidate { s with codec := codec, enc := enc, dec := dec } := by
  have hcodec : ∀ {stop}, stopAt (withCodec s) stop = .raised e t →
      ∃ codec enc dec, t = invalidate { s with codec := codec, enc := enc, dec := dec } :=
    fun hstop => ⟨_, _, _, stopAt_raised hstop⟩
  unfold build at h
  dsimp only at h
  split at h
  · exact ⟨_, _, _, stopAt_raised h⟩
  split at h
  · exact hcodec h
  split at h
  · exact hcodec h
  change buildTables (withCodec s) = _ at h
  rcases hinvert : invert (builtEnc s) (clog2 s.alen) Memory.blank with ⟨dec, _ | i⟩
  · rw [(buildTables_done_iff s _).2 ⟨dec, hinvert, rfl⟩] at h
    cases h
  · rw [buildTables_of_collision hinvert] at h
    cases h
    exact ⟨_, _, _, rfl⟩

/-- Every command other than BUILD raises before it writes (R121). -/
theorem rule_raised {i : Instr} {e : ErrorReport} (h : rule i s = .raised e t) : t = s ∨ i = .build := by
  cases i with
  | build => exact .inr rfl
  | apush | kpush | data | endStream | encb | decb | unpack => exact .inl ((precise_raised_iff _ _ _ _).1 h).2.symm
  | nop | clear | setpad | start | abort | pack | errack => cases h

/-! ### How a command's cycle can end -/

/-- `Ending i s t`: a way for the cycle of `i` from `s` to answer `t` (R104). -/
inductive Ending (i : Instr) (s : State) : State → Prop
  | discarded (hst : s.procState = .error) : Ending i s (retire (beginCycle s))
  | raised (e : ErrorReport) : Ending i s (retire (errorEntry e (encode i) (beginCycle s)))
  | buildRaised (e : ErrorReport) (codec : Memory CodecEntry) (enc dec : Memory TableEntry) (hi : i = .build) :
    Ending i s (retire (errorEntry e (encode i)
      (invalidate { beginCycle s with codec := codec, enc := enc, dec := dec })))
  | ran (hr : Runs i.opcode s) {t : State} (he : Effect (beginCycle s) i t) : Ending i s (retire t)

theorem exec_ending {i : Instr} (h : exec i s = .next t) : Ending i s t := by
  rw [exec_eq_runCommand] at h
  rcases runCommand_next h with ⟨hst, -, rfl⟩ | ⟨-, -, rfl⟩ | ⟨hr, ⟨u, hu, rfl⟩ | ⟨e, u, hu, rfl⟩⟩
  · exact .discarded hst
  · exact .raised _
  · exact .ran hr (rule_done hu)
  · rcases rule_raised hu with rfl | rfl
    · exact .raised e
    · obtain ⟨codec, enc, dec, rfl⟩ := build_raised hu
      exact .buildRaised e codec enc dec rfl

/-- CLEAR runs in every state (R104, R105). -/
theorem exec_clear (s : State) : exec .clear s = .next (retire (clear (beginCycle s))) := by
  rw [exec_eq_runCommand]
  by_cases hst : s.procState = .error
  · exact runCommand_in_error _ hst rfl
  · refine runCommand_of_allowed _ hst ?_
    cases hp : s.procState with
    | idle | stream => rfl
    | error => exact absurd hp hst

/-! ### CMD_DONE and the command channel -/

theorem Effect.cmds {i : Instr} (h : Effect s i t) : t.cmds = s.cmds ∧ t.cmdDone = s.cmdDone := by
  cases h with
  | clear => rw [clear_eq]; exact ⟨rfl, rfl⟩
  | abort => rw [abortStream_eq]; exact ⟨rfl, rfl⟩
  | errack => rw [errack_eq]; exact ⟨rfl, rfl⟩
  | nop | apush | kpush | setpad | build | start | data | endStream | query => exact ⟨rfl, rfl⟩

/-- A command is counted, and takes no word from the channel by itself (R34, R104). -/
theorem exec_cmds {i : Instr} (h : exec i s = .next t) : t.cmds = s.cmds ∧ t.cmdDone = s.cmdDone + 1 := by
  cases exec_ending h with
  | discarded => exact ⟨rfl, rfl⟩
  | raised e => rw [errorEntry_eq]; exact ⟨rfl, rfl⟩
  | buildRaised e codec enc dec hi => rw [errorEntry_eq]; exact ⟨rfl, rfl⟩
  | ran hr he =>
    obtain ⟨hcmds, hdone⟩ := he.cmds
    exact ⟨hcmds, congrArg (· + 1) hdone⟩

theorem runWord_cmds {w : Word} (h : runWord w s = .next t) : t.cmds = s.cmds ∧ t.cmdDone = s.cmdDone + 1 := by
  unfold runWord at h
  split at h
  · exact exec_cmds h
  · rw [runIllegal_eq] at h
    cases h
    split
    · exact ⟨rfl, rfl⟩
    · rw [errorEntry_eq]
      exact ⟨rfl, rfl⟩

/-- A step consumes the oldest word and counts it (R34, R104). -/
theorem step_cmds {w : Word} {ws : List Word} (hcmds : s.cmds = w :: ws) (h : step s = .next t) :
    t.cmds = ws ∧ t.cmdDone = s.cmdDone + 1 := by
  rw [step_of_cons hcmds] at h
  exact runWord_cmds h

end Sys2Proof.Machine
end

section
/-! Proofs: what the commands may write: RESULT, MODE, the validity of the tables and the stream counts (10_state R19,
R21, R30, R33). -/

namespace Sys2Proof.Machine

variable {s t : State} {i : Instr}

/-- ERROR state discards the queries (R104). -/
theorem queries_discarded : ∀ o ∈ [Opcode.pack, .unpack, .encb, .decb], runsInError o = false := by decide

/-- Settles O45: of the rules, only CLEAR's and the queries' write RESULT, and a query runs outside ERROR state. -/
theorem resultWrittenOnlyByQueries : Obligations.ResultWrittenOnlyByQueries := by
  unfold Obligations.ResultWrittenOnlyByQueries
  intro i s t h hne
  cases exec_ending h with
  | discarded => exact absurd rfl hne
  | raised e => rw [errorEntry_eq] at hne; exact absurd rfl hne
  | buildRaised => rw [errorEntry_eq] at hne; exact absurd rfl hne
  | ran hr he =>
    cases he with
    | clear => exact .inl rfl
    | query result hi =>
      refine .inr ⟨hi, fun herr => ?_⟩
      rcases hr with ⟨-, hruns⟩ | ⟨hst, -⟩
      · exact Bool.false_ne_true ((queries_discarded _ hi).symm.trans hruns)
      · exact hst herr
    | abort => rw [abortStream_eq] at hne; exact absurd rfl hne
    | errack => rw [errack_eq] at hne; exact absurd rfl hne
    | nop | apush | kpush | setpad | build | start | data | endStream => exact absurd rfl hne

/-- Settles O46: of the rules, only START's and CLEAR's write MODE. -/
theorem modeWrittenOnlyByStartAndClear : Obligations.ModeWrittenOnlyByStartAndClear := by
  unfold Obligations.ModeWrittenOnlyByStartAndClear
  intro i s t h hne
  cases exec_ending h with
  | discarded => exact absurd rfl hne
  | raised e => rw [errorEntry_eq] at hne; exact absurd rfl hne
  | buildRaised => rw [errorEntry_eq] at hne; exact absurd rfl hne
  | ran hr he =>
    cases he with
    | clear => exact .inr ⟨rfl, rfl⟩
    | start mode => exact .inl rfl
    | abort => rw [abortStream_eq] at hne; exact absurd rfl hne
    | errack => rw [errack_eq] at hne; exact absurd rfl hne
    | nop | apush | kpush | setpad | build | query | data | endStream => exact absurd rfl hne

/-! ### TV, K and B -/

/-- The commands that may change TV, K and B (R19). -/
abbrev ChangesTables (i : Instr) : Prop := i.opcode ∈ [.build, .apush, .kpush, .setpad, .clear]

/-- Every other command keeps TV, K and B, whatever its outcome. -/
theorem exec_keeps_tables (h : exec i s = .next t) (hi : ¬ChangesTables i) :
    t.tv = s.tv ∧ t.k = s.k ∧ t.b = s.b := by
  cases exec_ending h with
  | discarded => exact ⟨rfl, rfl, rfl⟩
  | raised e => rw [errorEntry_eq]; exact ⟨rfl, rfl, rfl⟩
  | buildRaised e codec enc dec hbuild => subst hbuild; exact absurd (by decide) hi
  | ran hr he =>
    cases he with
    | abort => rw [abortStream_eq]; exact ⟨rfl, rfl, rfl⟩
    | errack => rw [errack_eq]; exact ⟨rfl, rfl, rfl⟩
    | clear | apush | kpush | setpad | build => exact absurd (by simp [ChangesTables, Instr.opcode]) hi
    | nop | start | data | endStream | query => exact ⟨rfl, rfl, rfl⟩

/-- No command but BUILD sets TV (R19). -/
theorem exec_sets_tv (h : exec i s = .next t) (hs : s.tv = false) (ht : t.tv = true) : i = .build := by
  have hchanged : s.tv ≠ t.tv := by simp [hs, ht]
  cases exec_ending h with
  | discarded => exact absurd rfl hchanged
  | raised e => rw [errorEntry_eq] at hchanged; exact absurd rfl hchanged
  | buildRaised e codec enc dec hi => exact hi
  | ran hr he =>
    cases he with
    | build => rfl
    | clear | apush | kpush | setpad => cases ht
    | abort => rw [abortStream_eq] at hchanged; exact absurd rfl hchanged
    | errack => rw [errack_eq] at hchanged; exact absurd rfl hchanged
    | nop | start | data | endStream | query => exact absurd rfl hchanged

/-- Settles O47. -/
theorem tablesValidChangesOnlyWith : Obligations.TablesValidChangesOnlyWith := by
  unfold Obligations.TablesValidChangesOnlyWith
  intro i s t h
  refine ⟨exec_sets_tv h, fun hs ht => ?_, fun hne => ?_⟩
  all_goals
    by_contra hi
    obtain ⟨htv, hk, hb⟩ := exec_keeps_tables h hi
  · simp [htv, hs] at ht
  · exact hne.elim (· hk) (· hb)

/-! ### The stream counts -/

/-- What `t` has in OUT beyond `s` is data tokens and then markers, and OUT_COUNT has risen by the number of data
tokens. -/
def Emits (s t : State) : Prop :=
  ∃ (emitted : List Byte) (markers : List Token), t.out = s.out ++ (emitted.map dataToken ++ markers) ∧
    (∀ x ∈ markers, isMarker x = true) ∧ t.outCount = s.outCount + BitVec.ofNat 32 emitted.length

theorem Emits.refl (s : State) : Emits s s := ⟨[], [], by simp⟩

theorem isMarker_dataToken (v : Byte) : isMarker (dataToken v) = false := by
  have hv := v.isLt
  have htoken : (dataToken v).toNat = v.toNat := (BitVec.toNat_append 0#1 v).trans (by simp)
  simp only [isMarker, decide_eq_false_iff_not]
  omega

/-- OUT_COUNT rises by the number of tokens that are no marker (R33). -/
theorem Emits.outCount (h : Emits s t) {new : List Token} (hnew : t.out = s.out ++ new) :
    t.outCount = s.outCount + BitVec.ofNat 32 (new.countP (fun x => !isMarker x)) := by
  obtain ⟨emitted, markers, hout, hmarkers, hcount⟩ := h
  obtain rfl : new = emitted.map dataToken ++ markers := List.append_cancel_left (hnew.symm.trans hout)
  have hdata : (emitted.map dataToken).countP (fun x => !isMarker x) = emitted.length := by
    rw [List.countP_map, List.countP_eq_length]
    exact fun v _ => by simp [isMarker_dataToken]
  have hmarker : markers.countP (fun x => !isMarker x) = 0 :=
    List.countP_eq_zero.2 fun x hx => by simp [hmarkers x hx]
  rw [hcount, List.countP_append, hdata, hmarker, Nat.add_zero]

/-- The end of an open stream other than by END emits one marker, which is not counted (R62). -/
theorem emits_abortMarker (hout : t.out = if s.procState = .stream then s.out ++ [abortMarker] else s.out)
    (hcount : t.outCount = s.outCount) : Emits s t := by
  split at hout
  · exact ⟨[], [abortMarker], by simp [hout], by decide, by simp [hcount]⟩
  · exact ⟨[], [], by simp [hout], nofun, by simp [hcount]⟩

/-- The command sets both counts to 0: CLEAR, and START that opens a stream (R33). -/
abbrev ZeroesCounts (i : Instr) (s t : State) : Prop :=
  i = .clear ∨ (i.opcode = .start ∧ s.procState = .idle ∧ t.procState = .stream)

theorem exec_zeroes_counts (h : exec i s = .next t) (hz : ZeroesCounts i s t) : t.inCount = 0 ∧ t.outCount = 0 := by
  rcases hz with rfl | ⟨hi, hs, ht⟩
  · rw [exec_clear] at h
    cases h
    exact ⟨rfl, rfl⟩
  · cases exec_ending h with
    | discarded hst => simp [hst] at hs
    | raised e => cases ht
    | buildRaised => cases ht
    | ran hr he =>
      cases he with
      | start => exact ⟨rfl, rfl⟩
      | query result hq => simp [hi] at hq
      | nop | clear | apush | kpush | setpad | build | data | endStream | abort | errack => cases hi

/-- IN_COUNT rises by 1 exactly for an accepted DATA (R33). -/
theorem exec_inCount (h : exec i s = .next t) (hz : ¬ZeroesCounts i s t) :
    t.inCount = s.inCount +
      (if i.opcode = .data ∧ s.procState = .stream ∧ t.procState = .stream then 1 else 0) := by
  cases exec_ending h with
  | discarded hst => simp [hst]
  | raised e => simp [errorEntry_eq]
  | buildRaised e codec enc dec hi => simp [errorEntry_eq]
  | ran hr he =>
    cases he with
    | clear => exact absurd (.inl rfl) hz
    | start mode => exact absurd (.inr ⟨rfl, hr.idle ⟨rfl, fun _ => rfl⟩, rfl⟩) hz
    | data =>
      have hst : s.procState = .stream := hr.stream ⟨rfl, fun _ => rfl⟩
      simp [Instr.opcode, hst]
    | query result hq =>
      have hi : i.opcode ≠ .data := fun hi => by simp [hi] at hq
      simp [hi]
    | abort => simp [abortStream_eq, Instr.opcode]
    | errack => rw [errack_eq]; simp [Instr.opcode]
    | nop | apush | kpush | setpad | build | endStream => simp [Instr.opcode]

theorem exec_emits (h : exec i s = .next t) (hz : ¬ZeroesCounts i s t) : Emits s t := by
  cases exec_ending h with
  | discarded => exact Emits.refl s
  | raised e => exact emits_abortMarker (by rw [errorEntry_eq]; rfl) (by rw [errorEntry_eq]; rfl)
  | buildRaised => exact emits_abortMarker (by rw [errorEntry_eq]; rfl) (by rw [errorEntry_eq]; rfl)
  | ran hr he =>
    cases he with
    | clear => exact absurd (.inl rfl) hz
    | start mode => exact absurd (.inr ⟨rfl, hr.idle ⟨rfl, fun _ => rfl⟩, rfl⟩) hz
    | data byte pend carry emitted => exact ⟨emitted, [], by simp, nofun, rfl⟩
    | endStream emitted => exact ⟨emitted, [eosMarker], by simp, by decide, rfl⟩
    | abort => exact emits_abortMarker (by rw [abortStream_eq]; rfl) (by rw [abortStream_eq]; rfl)
    | errack => rw [errack_eq]; exact Emits.refl s
    | nop | apush | kpush | setpad | build | query => exact Emits.refl s

/-- Settles O48. -/
theorem streamCountsCountBytes : Obligations.StreamCountsCountBytes := by
  unfold Obligations.StreamCountsCountBytes
  exact fun i s t new h hnew =>
    ⟨exec_zeroes_counts h, fun hz => ⟨exec_inCount h hz, (exec_emits h hz).outCount hnew⟩⟩

end Sys2Proof.Machine
end

section
/-! Proofs: the command channel: words are counted as they are consumed (10_state R34, 20_memory R49), and run in the
order in which the host writes them (10_state R16, 30_encoding R55). -/

namespace Sys2Proof.Machine

variable {s t : State}

/-! ### CMD_DONE and the words written -/

theorem count_succ (c : BitVec 32) (n : Nat) : c + 1 + BitVec.ofNat 32 n = c + BitVec.ofNat 32 (n + 1) := by
  rw [BitVec.add_assoc, Nat.add_comm n, BitVec.ofNat_add]
  rfl

theorem core_run_cmds (k : Nat) (s t : State) (hk : k ≤ s.cmds.length) (h : core.run k s = .next t) :
    t.cmdDone = s.cmdDone + BitVec.ofNat 32 k ∧ t.cmds = s.cmds.drop k := by
  induction k generalizing s with
  | zero => cases h; simp
  | succ k ih =>
    obtain ⟨w, ws, hcmds⟩ := List.exists_cons_of_length_pos (Nat.lt_of_lt_of_le k.succ_pos hk)
    cases hstep : step s with
    | next u =>
      have hrun : core.run k u = .next t := by
        simpa only [Host.Core.run, show core.step s = .next u from hstep] using h
      obtain ⟨hu, hdone⟩ := step_cmds hcmds hstep
      obtain ⟨hcount, hdrop⟩ := ih u (by rw [hcmds] at hk; rw [hu]; exact Nat.le_of_succ_le_succ hk) hrun
      refine ⟨?_, by rw [hdrop, hu, hcmds, List.drop_succ_cons]⟩
      rw [hcount, hdone, count_succ]
    | fault x => simp [Host.Core.run, show core.step s = .fault x from hstep] at h
    | refused r => simp [Host.Core.run, show core.step s = .refused r from hstep] at h

/-- CMD_DONE and the words still waiting make up the `n` words written (R49). -/
structure Accounts (n : Nat) (s : State) : Prop where
  sum : s.cmdDone + BitVec.ofNat 32 s.cmds.length = BitVec.ofNat 32 n
  waiting_le : s.cmds.length ≤ n

theorem step_accounts {n : Nat} (hs : Accounts n s) (h : step s = .next t) : Accounts n t := by
  cases hcmds : s.cmds with
  | nil =>
    rw [step_of_nil hcmds] at h
    cases h
    exact hs
  | cons w ws =>
    obtain ⟨ht, hdone⟩ := step_cmds hcmds h
    obtain ⟨hsum, hle⟩ := hs
    rw [hcmds, List.length_cons] at hsum hle
    refine ⟨?_, ht ▸ Nat.le_of_succ_le hle⟩
    rw [ht, hdone, ← hsum, count_succ]

/-- Every act keeps the account, with the number of words written as it leaves it. -/
theorem event_accounts {n : Nat} {e : Event} (hs : Accounts n s) (h : event e s = .next t) :
    Accounts (writtenSinceReset [e] n) t := by
  obtain ⟨hsum, hle⟩ := hs
  cases e with
  | write w =>
    cases h
    refine ⟨?_, by simpa [writtenSinceReset] using hle⟩
    simp only [hostWrite, List.length_append, List.length_singleton, writtenSinceReset]
    rw [BitVec.ofNat_add, ← BitVec.add_assoc, hsum, ← BitVec.ofNat_add]
  | take =>
    cases h
    cases hout : s.out with
    | nil => simpa [hostTake, hout, writtenSinceReset] using ⟨hsum, hle⟩
    | cons x xs => simpa [hostTake, hout, writtenSinceReset] using ⟨hsum, hle⟩
  | read addr => cases h; exact ⟨hsum, hle⟩
  | reset => cases h; exact ⟨rfl, Nat.le_refl 0⟩
  | command => exact step_accounts ⟨hsum, hle⟩ h

theorem eventAll_accounts {es : List Event} {n : Nat} (hs : Accounts n s) (h : eventAll es s = .next t) :
    Accounts (writtenSinceReset es n) t := by
  induction es generalizing s n with
  | nil => cases h; exact hs
  | cons e es ih =>
    rw [eventAll] at h
    cases hevent : event e s with
    | next u =>
      rw [hevent] at h
      have ht := ih (event_accounts hs hevent) h
      cases e <;> exact ht
    | fault x => rw [hevent] at h; cases h
    | refused r => rw [hevent] at h; cases h

/-- When CMD_DONE is the number of words written, and that number fits it, no word is waiting (R49). -/
theorem Accounts.cmds_eq_nil {n : Nat} (h : Accounts n s) (hn : n < 2 ^ 32) (hdone : s.cmdDone = BitVec.ofNat 32 n) :
    s.cmds = [] := by
  obtain ⟨hsum, hle⟩ := h
  have hzero : BitVec.ofNat 32 s.cmds.length = 0#32 := by
    rw [hdone] at hsum
    simpa using hsum
  have hlen := congrArg BitVec.toNat hzero
  rw [BitVec.toNat_ofNat, Nat.mod_eq_of_lt (by omega)] at hlen
  exact List.length_eq_zero_iff.1 hlen

/-- Settles O11. -/
theorem cmdDoneCountsConsumedWords : Obligations.CmdDoneCountsConsumedWords := by
  unfold Obligations.CmdDoneCountsConsumedWords
  refine ⟨core_run_cmds, fun es s t h => ?_⟩
  have hreset : Accounts 0 (hardwareReset s) := ⟨rfl, Nat.le_refl 0⟩
  have ht := eventAll_accounts hreset h
  exact ⟨ht.sum, ht.cmds_eq_nil⟩

/-! ### No rule looks at the channel -/

/-- `s` with other words waiting. -/
def withCmds (cs : List Word) (s : State) : State := { s with cmds := cs }

theorem withCmds_cycleMap (cs : List Word) : CycleMap (withCmds cs) where
  procState _ := rfl
  tv _ := rfl
  beginCycle _ := rfl
  retire _ := rfl
  errorEntry e w s := by rw [errorEntry_eq, errorEntry_eq]; rfl

section WithCmds

variable (cs : List Word) (s)

theorem apush_withCmds (byte : Byte) : apush byte (withCmds cs s) = withCmds cs <$> apush byte s := by
  unfold apush
  change (if s.alen = nmaxOf s.params then _ else _) = _
  split
  · rfl
  · change (memWrite .alpha (nmaxOf s.params) unlistedByte s.alpha s.alen byte >>= _) = _
    cases memWrite .alpha (nmaxOf s.params) unlistedByte s.alpha s.alen byte <;> rfl

theorem kpush_withCmds (byte : Byte) : kpush byte (withCmds cs s) = withCmds cs <$> kpush byte s := by
  unfold kpush
  change (if s.klen = 2 * nmaxOf s.params then _ else _) = _
  split
  · rfl
  · change (memWrite .key (2 * nmaxOf s.params) unlistedByte s.key s.klen byte >>= _) = _
    cases memWrite .key (2 * nmaxOf s.params) unlistedByte s.key s.klen byte <;> rfl

theorem buildTables_withCmds : buildTables (withCmds cs s) = (buildTables s).mapState (withCmds cs) := by
  have henc : populate (fillTables (withCmds cs s)) = populate (fillTables s) := rfl
  have halen : (withCmds cs s).alen = s.alen := rfl
  rw [buildTables_eq, buildTables_eq, henc, halen]
  rcases invert (populate (fillTables s) (isqrt s.alen) (clog2 s.alen) Memory.blank) (clog2 s.alen)
    Memory.blank with ⟨dec, _ | i⟩ <;> rfl

theorem build_withCmds : build (withCmds cs s) = (build s).mapState (withCmds cs) := by
  rw [build_eq, build_eq]
  have halpha : alphaCheck (invalidate (withCmds cs s)) = alphaCheck (invalidate s) := rfl
  have hpad : padCheck (withCodec (withCmds cs s)) = padCheck (withCodec s) := rfl
  have hkey : keyCheck (withCodec (withCmds cs s)) = keyCheck (withCodec s) := rfl
  rw [halpha, hpad, hkey]
  have hstop : ∀ (u : State) (stop : Stop), stopAt (withCmds cs u) stop = (stopAt u stop).mapState (withCmds cs) :=
    fun u stop => (mapState_id _).symm.trans (stopAt_mapState (f := withCmds cs) (g := id) rfl stop)
  cases alphaCheck (invalidate s) with
  | error stop => exact hstop (invalidate s) stop
  | ok _ =>
    cases padCheck (withCodec s) with
    | error stop => exact hstop (withCodec s) stop
    | ok _ =>
      cases keyCheck (withCodec s) with
      | error stop => exact hstop (withCodec s) stop
      | ok _ => exact buildTables_withCmds (withCodec s) cs

theorem lookup_withCmds (m : Mode) (c1 c2 : Nat) : lookup m c1 c2 (withCmds cs s) = lookup m c1 c2 s := by
  cases m <;> rfl

theorem resolve_withCmds (c1 c2 : Nat) : resolve c1 c2 (withCmds cs s) = withCmds cs <$> resolve c1 c2 s := by
  unfold resolve
  rw [show (withCmds cs s).mode = s.mode from rfl, lookup_withCmds]
  cases lookup s.mode c1 c2 s with
  | error stop => rfl
  | ok o =>
    change (unpackCode o.1 s >>= fun x1 => unpackCode o.2 s >>= fun x2 => _) =
      withCmds cs <$> (unpackCode o.1 s >>= fun x1 => unpackCode o.2 s >>= fun x2 => _)
    cases unpackCode o.1 s with
    | error stop => rfl
    | ok x1 =>
      cases unpackCode o.2 s with
      | error stop => rfl
      | ok x2 =>
        refine congrArg Except.ok ?_
        rw [emitBigram_eq, emitBigram_eq]
        rfl

theorem streamMap_withCmds : StreamMap (withCmds cs) s where
  pack _ := rfl
  pad := rfl
  pend := rfl
  carry := rfl
  params := rfl
  resolve _ _ _ _ := resolve_withCmds s cs _ _
  setPend _ := rfl
  carryByte _ := rfl
  emitByte _ := rfl
  countInput _ := rfl
  close _ := rfl

/-- No rule looks at the words waiting, or touches them. -/
theorem rule_withCmds (i : Instr) : (rule i (withCmds cs s)).mapState id = (rule i s).mapState (withCmds cs) := by
  have hid : ∀ u, id (withCmds cs u) = withCmds cs u := fun _ => rfl
  cases i with
  | nop | setpad | start | pack => rfl
  | clear =>
    refine congrArg Run.done ?_
    rw [clear_eq, clear_eq]
    rfl
  | apush byte => exact precise_map hid (apush_withCmds s cs byte)
  | kpush byte => exact precise_map hid (kpush_withCmds s cs byte)
  | build => exact (mapState_id _).trans (build_withCmds s cs)
  | data byte => exact precise_map hid ((streamMap_withCmds s cs).dataByte byte)
  | endStream => exact precise_map hid (streamMap_withCmds s cs).endOfStream
  | abort =>
    refine congrArg Run.done ?_
    rw [abortStream_eq, abortStream_eq]
    rfl
  | encb c1 c2 => exact precise_map hid (bigramQuery_map (lookup_withCmds s cs .enc) rfl (fun _ => rfl) c1 c2)
  | decb c1 c2 => exact precise_map hid (bigramQuery_map (lookup_withCmds s cs .dec) rfl (fun _ => rfl) c1 c2)
  | unpack c => exact precise_map hid (unpackQuery_map (fun _ => rfl) rfl fun _ => rfl)
  | errack =>
    refine congrArg Run.done ?_
    rw [errack_eq, errack_eq]
    rfl

theorem runWord_withCmds (w : Word) : runWord w (withCmds cs s) = mapNext (withCmds cs) (runWord w s) := by
  have hmap := withCmds_cycleMap cs
  unfold runWord
  split
  · rename_i i _
    rw [exec_eq_runCommand, exec_eq_runCommand, ← mapNext_id (runCommand i (rule i) (withCmds cs s))]
    exact runCommand_map hmap .id (fun _ => rfl) fun _ => rule_withCmds (beginCycle s) cs i
  · exact runIllegal_map hmap w _ s

end WithCmds

/-! ### The order of words -/

/-- A word written to an empty channel is the next one taken. -/
theorem takeWord_hostWrite (h : s.cmds = []) (w : Word) : takeWord (hostWrite w s) = some (w, s) := by
  have hcmds : (hostWrite w s).cmds = w :: [] := by simp [h]
  rw [takeWord_some_iff]
  refine ⟨[], hcmds, ?_⟩
  cases s
  cases h
  rfl

/-- A word written while another is waiting is taken after it: writing commutes with the step. -/
theorem step_hostWrite (hne : s.cmds ≠ []) (w : Word) (h : step s = .next t) :
    step (hostWrite w s) = .next (hostWrite w t) := by
  obtain ⟨v, ws, hcmds⟩ := List.exists_cons_of_ne_nil hne
  obtain ⟨ht, -⟩ := step_cmds hcmds h
  have hwritten : (hostWrite w s).cmds = v :: (ws ++ [w]) := by rw [hostWrite_cmds, hcmds]; rfl
  rw [step_of_cons hcmds] at h
  calc step (hostWrite w s)
      = runWord v (withCmds (ws ++ [w]) { s with cmds := ws }) := step_of_cons hwritten
    _ = mapNext (withCmds (ws ++ [w])) (runWord v { s with cmds := ws }) := runWord_withCmds _ _ v
    _ = .next (withCmds (ws ++ [w]) t) := by rw [h]; rfl
    _ = .next (hostWrite w t) := by rw [← ht]; rfl

/-- Settles O12. -/
theorem wordsRunInTheOrderWritten : Obligations.WordsRunInTheOrderWritten := by
  unfold Obligations.WordsRunInTheOrderWritten
  exact fun s w => ⟨fun h => takeWord_hostWrite h w, fun t hne h => step_hostWrite hne w h⟩

end Sys2Proof.Machine
end

section
/-! Proofs: the register port: the fields of each word are where 10_state R23 to R34 place them, and no bound of R18 is
cut off by its field's width. -/

namespace Sys2Proof.Machine

variable {s : State}

/-- Settles O51: the twelve listed addresses are those below 0x0C. -/
theorem unlistedRegistersReadZero : Obligations.UnlistedRegistersReadZero := by
  unfold Obligations.UnlistedRegistersReadZero
  intro s a ha
  unfold readRegister
  split
  iterate 12 omega
  rfl

/-! ### Fields side by side -/

/-- A field beside another one, as a number: the left one is shifted by the right one's width. -/
theorem toNat_fields {m n : Nat} (x : BitVec m) (y : BitVec n) : (x ++ y).toNat = x.toNat * 2 ^ n + y.toNat := by
  rw [BitVec.toNat_append, Nat.shiftLeft_eq, Nat.mul_comm, Nat.two_pow_add_eq_or_of_lt y.isLt]

theorem regError_eq (s : State) :
    regError s = BitVec.ofNat 32 (s.errCode.toNat + s.errSub.toNat * 2 ^ 8 + s.errArg.toNat * 2 ^ 16) := by
  have hcode := s.errCode.isLt
  have hsub := s.errSub.isLt
  have harg := s.errArg.isLt
  apply BitVec.eq_of_toNat_eq
  rw [regError, toNat_fields, toNat_fields, BitVec.toNat_ofNat]
  omega

/-- A flag counts as its bit's weight. -/
theorem flagBit_weight (f : Bool) (weight : Nat) : (if f then weight else 0) = (flagBit f).toNat * weight := by
  cases f <;> simp [flagBit]

theorem regStatus_eq (s : State) :
    regStatus s = BitVec.ofNat 32
      ((match s.procState with | .idle => 0 | .stream => 1 | .error => 2) + (if s.tv then 4 else 0) +
        (if s.busy then 8 else 0) + (match s.mode with | .enc => 0 | .dec => 16) +
        (if s.pend.isSome then 32 else 0)) := by
  have hstate : (match s.procState with | .idle => 0 | .stream => 1 | .error => 2) = s.procState.number := by
    cases s.procState <;> rfl
  have hnumber : s.procState.number < 4 := by cases s.procState <;> decide
  have hmode : (match s.mode with | .enc => 0 | .dec => 16) = s.mode.bit.toNat * 16 := by cases s.mode <;> rfl
  have htv := (flagBit s.tv).isLt
  have hbusy := (flagBit s.busy).isLt
  have hpend := (flagBit s.pend.isSome).isLt
  have hbit := s.mode.bit.isLt
  rw [hstate, hmode, flagBit_weight, flagBit_weight, flagBit_weight]
  apply BitVec.eq_of_toNat_eq
  simp only [regStatus, toNat_fields, BitVec.toNat_ofNat]
  omega

/-! ### The bounds of the configuration (R18 items 5 and 7) -/

theorem nmaxOf_le (h : s.params.Legal) : nmaxOf s.params ≤ 121 := by
  obtain ⟨-, hk, -⟩ := h
  exact Nat.mul_le_mul hk hk

theorem alen_le_of_inv (h : Inv s) : s.alen ≤ 121 :=
  have hs := (cycleInv_of_inv h).config
  hs.alen_le.trans (nmaxOf_le hs.legal)

theorem klen_le_of_inv (h : Inv s) : s.klen ≤ 242 :=
  have hs := (cycleInv_of_inv h).config
  hs.klen_le.trans (Nat.mul_le_mul_left 2 (nmaxOf_le hs.legal))

/-- K is at most 11 and B at most 7, so that each fits its 4 bits (R29). -/
theorem k_b_le_of_inv (h : Inv s) : s.k ≤ 11 ∧ s.b ≤ 7 := by
  have hs := (cycleInv_of_inv h).config
  cases htv : s.tv with
  | false =>
    obtain ⟨hk, hb⟩ := hs.noSizes htv
    omega
  | true =>
    obtain ⟨hchecks, -, -, -, hk, hb, -⟩ := (build_eq_done_self_iff s).1 (hs.built htv)
    have halen := alen_le_of_inv h
    have hsq := hchecks.side_mul_side
    rw [hk, hb]
    exact ⟨by nlinarith, clog2_le_of_le_two_pow _ 7 (halen.trans (by norm_num))⟩

theorem carryDepth_le_of_inv (h : Inv s) : s.params.carryDepth ≤ 65535 := by
  obtain ⟨-, -, -, hcarry⟩ := (cycleInv_of_inv h).config.legal
  exact hcarry

theorem regPending_eq (h : Inv s) :
    regPending s = BitVec.ofNat 32 (match s.pend with | none => 0 | some c => 0x100 + c) := by
  unfold regPending
  cases hpend : s.pend with
  | none => rfl
  | some c =>
    have hc := (cycleInv_of_inv h).stream.pend_lt hpend
    have halen := alen_le_of_inv h
    apply BitVec.eq_of_toNat_eq
    rw [toNat_fields, toNat_fields]
    simp only [flagBit, codeByte, Option.isSome_some, Option.getD_some, if_true, BitVec.toNat_ofNat]
    omega

theorem regCarryLen_eq (h : Inv s) : regCarryLen s = BitVec.ofNat 32 s.carry.length := by
  have hlen := (cycleInv_of_inv h).stream.carry_le
  have hdepth := carryDepth_le_of_inv h
  apply BitVec.eq_of_toNat_eq
  rw [regCarryLen, toNat_fields]
  simp only [BitVec.toNat_ofNat]
  omega

/-- Settles O52. -/
theorem statusAndStreamRegisterFields : Obligations.StatusAndStreamRegisterFields := by
  unfold Obligations.StatusAndStreamRegisterFields
  exact fun s => ⟨rfl, rfl, rfl, rfl, rfl, rfl, fun h => ⟨regStatus_eq s, regError_eq s, regPending_eq h,
    regCarryLen_eq h⟩⟩

/-- CONFIG shows K and B as they are: without tables they are 0 (R18 item 6, R29). -/
theorem toNat_regConfig (h : Inv s) :
    (regConfig s).toNat = s.alen + s.klen * 2 ^ 8 + s.pad.toNat * 2 ^ 16 + s.k * 2 ^ 24 + s.b * 2 ^ 28 := by
  have halen := alen_le_of_inv h
  have hklen := klen_le_of_inv h
  obtain ⟨hk, hb⟩ := k_b_le_of_inv h
  have hshown : (if s.tv then s.k else 0) = s.k ∧ (if s.tv then s.b else 0) = s.b := by
    cases htv : s.tv with
    | false =>
      obtain ⟨hk, hb⟩ := (cycleInv_of_inv h).config.noSizes htv
      exact ⟨hk.symm, hb.symm⟩
    | true => exact ⟨rfl, rfl⟩
  rw [regConfig, hshown.1, hshown.2]
  simp only [toNat_fields, BitVec.toNat_ofNat]
  omega

theorem toNat_regParams (h : Inv s) :
    (regParams s).toNat =
      s.params.kmax + s.params.kmax * s.params.kmax * 2 ^ 8 + s.params.carryDepth * 2 ^ 16 := by
  have hdepth := carryDepth_le_of_inv h
  obtain ⟨-, hkmax, -⟩ := (cycleInv_of_inv h).config.legal
  have hnmax : s.params.kmax * s.params.kmax ≤ 121 := nmaxOf_le (cycleInv_of_inv h).config.legal
  simp only [regParams, nmaxOf, toNat_fields, BitVec.toNat_ofNat]
  omega

/-- Settles O53. -/
theorem configAndParamsRegisterFields : Obligations.ConfigAndParamsRegisterFields := by
  unfold Obligations.ConfigAndParamsRegisterFields
  exact fun s h => ⟨toNat_regConfig h, toNat_regParams h⟩

end Sys2Proof.Machine
end

section
/-! Proofs: which command writes each memory (20_memory R37, 44_control R107). -/

namespace Sys2Proof.Machine

variable {s t : State} {i : Instr}

/-- The internal memories, the lengths of ALPHA and KEY, and PAD (R37). -/
structure Memories where
  alpha : Memory Byte
  key : Memory Byte
  codec : Memory CodecEntry
  enc : Memory TableEntry
  dec : Memory TableEntry
  alen : Nat
  klen : Nat
  pad : Byte

/-- The memories of a state. -/
def memories (s : State) : Memories :=
  { alpha := s.alpha, key := s.key, codec := s.codec, enc := s.enc, dec := s.dec, alen := s.alen, klen := s.klen,
    pad := s.pad }

/-- `MemoryEffect m i m'`: a cycle of `i` from the memories `m` may leave the memories `m'`, whatever its outcome. What
the writing commands put into the memories is left open. -/
inductive MemoryEffect (m : Memories) : Instr → Memories → Prop
  | unchanged (i : Instr) : MemoryEffect m i m
  | apush (byte : Byte) (alpha : Memory Byte) :
    MemoryEffect m (.apush byte) { m with alpha := alpha, alen := m.alen + 1 }
  | kpush (byte : Byte) (key : Memory Byte) :
    MemoryEffect m (.kpush byte) { m with key := key, klen := m.klen + 1 }
  | setpad (byte : Byte) : MemoryEffect m (.setpad byte) { m with pad := byte }
  | build (codec : Memory CodecEntry) (enc dec : Memory TableEntry) :
    MemoryEffect m .build { m with codec := codec, enc := enc, dec := dec }
  | clear : MemoryEffect m .clear { m with alen := 0, klen := 0, pad := 0x20 }

theorem Effect.memoryEffect (h : Effect s i t) : MemoryEffect (memories s) i (memories t) := by
  cases h with
  | clear => rw [clear_eq]; exact .clear
  | apush byte alpha => exact .apush byte alpha
  | kpush byte key => exact .kpush byte key
  | setpad byte => exact .setpad byte
  | build codec enc dec => exact .build codec enc dec
  | abort => rw [abortStream_eq]; exact .unchanged _
  | errack => rw [errack_eq]; exact .unchanged _
  | nop | start | data | endStream | query => exact .unchanged _

/-- A raise leaves the memories, except that BUILD may have written CODEC, ENC and DEC before it (R76, R121). -/
theorem exec_memoryEffect (h : exec i s = .next t) : MemoryEffect (memories s) i (memories t) := by
  cases exec_ending h with
  | discarded => exact .unchanged i
  | raised e => rw [errorEntry_eq]; exact .unchanged i
  | buildRaised e codec enc dec hbuild => subst hbuild; rw [errorEntry_eq]; exact .build codec enc dec
  | ran hr he => exact he.memoryEffect

/-- Only the owners of a memory change it. -/
theorem MemoryEffect.owners {m m' : Memories} (h : MemoryEffect m i m') :
    (m'.alpha ≠ m.alpha → i.opcode = .apush) ∧ (m'.key ≠ m.key → i.opcode = .kpush) ∧
    (m'.codec ≠ m.codec → i = .build) ∧ (m'.enc ≠ m.enc → i = .build) ∧ (m'.dec ≠ m.dec → i = .build) ∧
    (m'.alen ≠ m.alen → i.opcode = .apush ∨ i = .clear) ∧ (m'.klen ≠ m.klen → i.opcode = .kpush ∨ i = .clear) ∧
    (m'.pad ≠ m.pad → i.opcode = .setpad ∨ i = .clear) := by
  cases h with
  | unchanged => simp
  | apush | kpush | setpad => simp [Instr.opcode]
  | build | clear => simp

/-- Settles O44: the memories after a command are one of the six kinds of `MemoryEffect`. -/
theorem memoriesWrittenOnlyByTheirCommands : Obligations.MemoriesWrittenOnlyByTheirCommands := by
  unfold Obligations.MemoriesWrittenOnlyByTheirCommands
  exact fun i s t h => (exec_memoryEffect h).owners

end Sys2Proof.Machine
end

section
/-! Proofs: no command looks at the tokens waiting in OUT, or touches them (20_memory R53, R54). -/

namespace Sys2Proof.Machine

/-- `s` with one more token at the front of OUT. -/
def withToken (x : Token) (s : State) : State := { s with out := x :: s.out }

/-- The token taken stood at the front (R53). -/
theorem eq_withToken_of_hostTake {s s' : State} {x : Token} (h : hostTake s = some (x, s')) : s = withToken x s' := by
  unfold hostTake at h
  split at h
  · cases h
  · rename_i hout
    cases h
    rw [withToken, ← hout]

section WithToken

variable (x : Token) (s : State)

/-! ### The ends of a stream -/

theorem abortOpenStream_withToken : abortOpenStream (withToken x s) = withToken x (abortOpenStream s) := by
  simp only [abortOpenStream, apply_ite (withToken x)]
  rfl

theorem abortStream_withToken : abortStream (withToken x s) = withToken x (abortStream s) := by
  simp only [abortStream, abortOpenStream_withToken, apply_ite (withToken x)]
  rfl

theorem clear_withToken : clear (withToken x s) = withToken x (clear s) := by
  simp only [clear, abortOpenStream_withToken]
  rfl

theorem errorEntry_withToken (e : ErrorReport) (w : Word) :
    errorEntry e w (withToken x s) = withToken x (errorEntry e w s) := by
  rw [errorEntry, abortOpenStream_withToken]
  rfl

theorem withToken_cycleMap : CycleMap (withToken x) where
  procState _ := rfl
  tv _ := rfl
  beginCycle _ := rfl
  retire _ := rfl
  errorEntry e w s := (errorEntry_withToken x s e w).symm

/-! ### The configuration and the tables -/

theorem apush_withToken (byte : Byte) : apush byte (withToken x s) = withToken x <$> apush byte s := by
  simp only [apush, apply_ite (withToken x <$> ·), map_bind]
  rfl

theorem kpush_withToken (byte : Byte) : kpush byte (withToken x s) = withToken x <$> kpush byte s := by
  simp only [kpush, apply_ite (withToken x <$> ·), map_bind]
  rfl

theorem stopAt_withToken (stop : Stop) : stopAt (withToken x s) stop = (stopAt s stop).mapState (withToken x) := by
  cases stop <;> rfl

theorem buildTables_withToken : buildTables (withToken x s) = (buildTables s).mapState (withToken x) := by
  have henc : populate (fillTables (withToken x s)) = populate (fillTables s) := rfl
  have halen : (withToken x s).alen = s.alen := rfl
  rw [buildTables_eq, buildTables_eq, henc, halen]
  rcases invert (populate (fillTables s) (isqrt s.alen) (clog2 s.alen) Memory.blank) (clog2 s.alen)
    Memory.blank with ⟨dec, _ | i⟩ <;> rfl

theorem build_withToken : build (withToken x s) = (build s).mapState (withToken x) := by
  have halpha : alphaCheck (invalidate (withToken x s)) = alphaCheck (invalidate s) := rfl
  have hpad : padCheck (withCodec (withToken x s)) = padCheck (withCodec s) := rfl
  have hkey : keyCheck (withCodec (withToken x s)) = keyCheck (withCodec s) := rfl
  rw [build_eq, build_eq, halpha, hpad, hkey]
  rcases alphaCheck (invalidate s) with stop | _
  · exact stopAt_withToken x (invalidate s) stop
  rcases padCheck (withCodec s) with stop | _
  · exact stopAt_withToken x (withCodec s) stop
  rcases keyCheck (withCodec s) with stop | _
  · exact stopAt_withToken x (withCodec s) stop
  · exact buildTables_withToken x (withCodec s)

/-! ### The engine and the stream -/

theorem lookup_withToken (m : Mode) (c1 c2 : Nat) : lookup m c1 c2 (withToken x s) = lookup m c1 c2 s := by
  cases m <;> rfl

theorem resolve_withToken (c1 c2 : Nat) : resolve c1 c2 (withToken x s) = withToken x <$> resolve c1 c2 s := by
  simp only [resolve, emitBigram_eq, map_bind, lookup_withToken]
  rfl

theorem streamMap_withToken : StreamMap (withToken x) s where
  pack _ := rfl
  pad := rfl
  pend := rfl
  carry := rfl
  params := rfl
  resolve _ _ _ _ := resolve_withToken x s _ _
  setPend _ := rfl
  carryByte _ := rfl
  emitByte _ := rfl
  countInput _ := rfl
  close _ := rfl

/-! ### The step -/

/-- Every rule appends to OUT what it appends when the token is not there. -/
theorem rule_withToken (i : Instr) : (rule i (withToken x s)).mapState id = (rule i s).mapState (withToken x) := by
  have hid : ∀ u, id (withToken x u) = withToken x u := fun _ => rfl
  cases i with
  | nop | setpad | start | pack => rfl
  | clear => exact congrArg Run.done (clear_withToken x s)
  | apush byte => exact precise_map hid (apush_withToken x s byte)
  | kpush byte => exact precise_map hid (kpush_withToken x s byte)
  | build => exact (mapState_id _).trans (build_withToken x s)
  | data byte => exact precise_map hid ((streamMap_withToken x s).dataByte byte)
  | endStream => exact precise_map hid (streamMap_withToken x s).endOfStream
  | abort => exact congrArg Run.done (abortStream_withToken x s)
  | encb c1 c2 => exact precise_map hid (bigramQuery_map (lookup_withToken x s .enc) rfl (fun _ => rfl) c1 c2)
  | decb c1 c2 => exact precise_map hid (bigramQuery_map (lookup_withToken x s .dec) rfl (fun _ => rfl) c1 c2)
  | unpack c => exact precise_map hid (unpackQuery_map (fun _ => rfl) rfl fun _ => rfl)
  | errack => exact congrArg Run.done (apply_ite (withToken x) (s.procState = .error) (leaveError s) s).symm

theorem runWord_withToken (w : Word) : runWord w (withToken x s) = mapNext (withToken x) (runWord w s) := by
  unfold runWord
  split
  · rename_i i _
    rw [exec_eq_runCommand, exec_eq_runCommand, ← mapNext_id (runCommand i (rule i) (withToken x s))]
    exact runCommand_map (withToken_cycleMap x) .id (fun _ => rfl) fun _ => rule_withToken x (beginCycle s) i
  · exact runIllegal_map (withToken_cycleMap x) w _ s

theorem step_withToken : step (withToken x s) = mapNext (withToken x) (step s) := by
  cases hcmds : s.cmds with
  | nil => rw [step_of_nil hcmds, step_of_nil (s := withToken x s) hcmds]; rfl
  | cons w ws =>
    rw [step_of_cons hcmds, step_of_cons (s := withToken x s) hcmds]
    exact runWord_withToken x { s with cmds := ws } w

end WithToken

/-- Settles O56: the state with the token steps to the next state of the one without, with the token. -/
theorem takingATokenCommutesWithAStep : Obligations.TakingATokenCommutesWithAStep := by
  unfold Obligations.TakingATokenCommutesWithAStep
  intro s t s' x htake hstep
  rw [eq_withToken_of_hostTake htake, step_withToken] at hstep
  cases hnext : step s' with
  | next t' =>
    rw [hnext] at hstep
    cases hstep
    exact ⟨t', rfl, rfl⟩
  | fault f => rw [hnext] at hstep; cases hstep
  | refused r => rw [hnext] at hstep; cases hstep

end Sys2Proof.Machine
end

section
/-! Proofs: what a register read that overlaps a command returns (20_memory R45). -/

namespace Sys2Proof.Machine

variable {s : State}

/-- Among the fields of STATUS, BUSY is bit 3 (R26). -/
theorem statusFields_busy : ∀ (pend mode tv : BitVec 1) (state : BitVec 2),
    (0#26 ++ (pend ++ (mode ++ (flagBit true ++ (tv ++ state)))) : Word) =
      (0#26 ++ (pend ++ (mode ++ (flagBit false ++ (tv ++ state))))) ||| 0x00000008 := by decide

theorem regStatus_beginCycle (h : s.busy = false) : regStatus (beginCycle s) = regStatus s ||| 0x00000008 := by
  rw [regStatus, regStatus, h]
  exact statusFields_busy _ _ _ _

/-- No register but STATUS shows BUSY (R23). -/
theorem readRegister_beginCycle {a : BitVec 8} (ha : a ≠ 0x02) : readRegister (beginCycle s) a = readRegister s a := by
  unfold readRegister
  split
  case h_3 hstatus => exact absurd (BitVec.eq_of_toNat_eq hstatus) ha
  all_goals rfl

/-- Settles O54: the read sees the state in which the cycle has begun. -/
theorem readDuringCommandIsTheOldState : Obligations.ReadDuringCommandIsTheOldState := by
  unfold Obligations.ReadDuringCommandIsTheOldState
  refine fun s a hbusy => ⟨readRegister_beginCycle, ?_⟩
  rintro rfl
  exact regStatus_beginCycle hbusy

end Sys2Proof.Machine
end

section
/-! Proofs: the decoder and the encoder are inverse to each other, word for word and row for row of the opcode map
(30_encoding R56 to R60). -/

namespace Sys2Proof

open Laws

variable {w : Word} {o : Opcode} {i : Instr}

/-! ### The opcode map in numbers -/

/-- The OPC of a row (R58). -/
def Opcode.opc : Opcode → Nat
  | .nop => 0x0
  | .clear => 0x1
  | .apush => 0x2
  | .kpush => 0x3
  | .setpad => 0x4
  | .build => 0x5
  | .start => 0x6
  | .data => 0x7
  | .endStream => 0x8
  | .abort => 0x9
  | .encb => 0xA
  | .decb => 0xB
  | .pack => 0xC
  | .unpack => 0xD
  | .errack => 0xE

/-- How many low bits of a row's words hold operands; those between them and OPC are reserved (R56). -/
def Opcode.operandBits : Opcode → Nat
  | .nop | .clear | .build | .endStream | .abort | .errack => 0
  | .start => 1
  | .apush | .kpush | .setpad | .data | .pack | .unpack => 8
  | .encb | .decb => 16

theorem operandBits_le (o : Opcode) : o.operandBits ≤ 16 := by cases o <;> decide

theorem opcodeRow_mask (o : Opcode) : (opcodeRow o).mask.toNat = 2 ^ 32 - 2 ^ o.operandBits := by cases o <;> rfl

theorem opcodeRow_pattern (o : Opcode) : (opcodeRow o).pattern.toNat = o.opc * 2 ^ 28 := by cases o <;> rfl

/-- The mask test of a row (R58). -/
abbrev MatchesRow (o : Opcode) (w : Word) : Prop := w &&& (opcodeRow o).mask = (opcodeRow o).pattern

/-- A word matches a row when above its operand bits it is the row's OPC with no reserved bit set. -/
theorem matchesRow_iff (o : Opcode) (w : Word) :
    MatchesRow o w ↔ w.toNat / 2 ^ o.operandBits = o.opc * 2 ^ (28 - o.operandBits) := by
  have hbits := operandBits_le o
  have hpow : 2 ^ 28 = 2 ^ (28 - o.operandBits) * 2 ^ o.operandBits := by rw [← Nat.pow_add]; congr 1; omega
  have hpattern : (opcodeRow o).pattern.toNat = o.opc * 2 ^ (28 - o.operandBits) * 2 ^ o.operandBits := by
    rw [opcodeRow_pattern, hpow, Nat.mul_assoc]
  rw [MatchesRow, mask_test_iff w _ _ o.operandBits (by omega) (opcodeRow_mask o) (by simp [hpattern]), hpattern,
    Nat.mul_div_cancel _ (Nat.two_pow_pos _)]

theorem opcodeOf_eq_some_iff (o : Opcode) : ∀ opc : BitVec 4, opcodeOf opc = some o ↔ opc.toNat = o.opc := by
  cases o <;> decide

theorem opcodeOf_eq_none_iff : ∀ opc : BitVec 4, opcodeOf opc = none ↔ opc = 0xF#4 := by decide

/-- The part of a word above its operand bits, cut again at OPC. -/
theorem toNat_opcField_eq_div (o : Opcode) (w : Word) :
    (opcField w).toNat = w.toNat / 2 ^ o.operandBits / 2 ^ (28 - o.operandBits) := by
  have hbits := operandBits_le o
  rw [toNat_opcField, Nat.div_div_eq_div_mul, ← Nat.pow_add]
  congr 2
  omega

/-- A word that matches a row has the row's OPC. -/
theorem opcodeOf_of_matchesRow (h : MatchesRow o w) : opcodeOf (opcField w) = some o := by
  rw [opcodeOf_eq_some_iff, toNat_opcField_eq_div o, (matchesRow_iff o w).1 h, Nat.mul_div_cancel _ (Nat.two_pow_pos _)]

/-- A word with a row's OPC matches the row exactly when no reserved bit is set (R56, R58). -/
theorem matchesRow_iff_reserved (h : opcodeOf (opcField w) = some o) :
    MatchesRow o w ↔ w.extractLsb' o.operandBits (28 - o.operandBits) = 0 := by
  rw [opcodeOf_eq_some_iff, toNat_opcField_eq_div o] at h
  rw [matchesRow_iff, ← BitVec.toNat_inj, BitVec.extractLsb'_toNat, Nat.shiftRight_eq_div_pow, ← h]
  have hsplit := Nat.div_add_mod' (w.toNat / 2 ^ o.operandBits) (2 ^ (28 - o.operandBits))
  change _ ↔ _ = (0#_).toNat
  rw [BitVec.toNat_zero]
  omega

/-! ### What the decoder answers -/

/-- A word decodes exactly when it matches a row, and then to that row's command with the word's operands. -/
theorem decode_ok_iff : decode w = .ok i ↔ ∃ o, MatchesRow o w ∧ i = assembleOperands o w := by
  constructor
  · intro h
    unfold decode at h
    split at h
    · cases h
    · rename_i o _
      split at h
      · rename_i hrow
        cases h
        exact ⟨o, hrow, rfl⟩
      · cases h
  · rintro ⟨o, hrow, rfl⟩
    simp only [decode, opcodeOf_of_matchesRow hrow, if_pos hrow]

theorem decode_reservedOpcode_iff : decode w = .error .reservedOpcode ↔ opcodeOf (opcField w) = none := by
  unfold decode
  split
  · simp_all
  · split <;> simp_all

theorem decode_reservedBits_iff (h : opcodeOf (opcField w) = some o) :
    decode w = .error .reservedBits ↔ ¬MatchesRow o w := by
  simp only [decode, h]
  split <;> simp_all

@[simp] theorem opcode_assembleOperands (o : Opcode) (w : Word) : (assembleOperands o w).opcode = o := by
  cases o <;> rfl

/-- A word is command X exactly when X's row matches it (R58). -/
theorem decodes_to_opcode_iff (o : Opcode) (w : Word) :
    (∃ i, decode w = .ok i ∧ i.opcode = o) ↔ MatchesRow o w := by
  constructor
  · rintro ⟨i, hi, rfl⟩
    obtain ⟨o, hrow, rfl⟩ := decode_ok_iff.1 hi
    simpa using hrow
  · exact fun hrow => ⟨_, decode_ok_iff.2 ⟨o, hrow, rfl⟩, opcode_assembleOperands o w⟩

/-! ### Decoding an encoding -/

theorem lowField_encodeBY (opc : BitVec 4) (b : Byte) : lowField (encodeBY opc b) = b := by
  have hb := b.isLt
  rw [← BitVec.toNat_inj, toNat_lowField, toNat_encodeBY]
  omega

theorem lowField_encodeCC (opc : BitVec 4) (p q : Byte) : lowField (encodeCC opc p q) = q := by
  have hq := q.isLt
  rw [← BitVec.toNat_inj, toNat_lowField, toNat_encodeCC]
  omega

theorem highField_encodeCC (opc : BitVec 4) (p q : Byte) : highField (encodeCC opc p q) = p := by
  have hp := p.isLt
  have hq := q.isLt
  rw [← BitVec.toNat_inj, toNat_highField, toNat_encodeCC]
  omega

theorem modeField_encodeM (opc : BitVec 4) (m : Mode) : modeField (encodeM opc m.bit) = m := by
  rw [modeField_eq, toNat_encodeM]
  cases m <;> simp [Mode.bit] <;> omega

theorem encode_matchesRow (i : Instr) : MatchesRow i.opcode (encode i) := by
  cases i with
  | nop => exact EncodesItsRow.nop.2
  | clear => exact EncodesItsRow.clear.2
  | apush b => exact (EncodesItsRow.apush b).2
  | kpush b => exact (EncodesItsRow.kpush b).2
  | setpad b => exact (EncodesItsRow.setpad b).2
  | build => exact EncodesItsRow.build.2
  | start m => exact (EncodesItsRow.start m).2
  | data b => exact (EncodesItsRow.data b).2
  | endStream => exact EncodesItsRow.endStream.2
  | abort => exact EncodesItsRow.abort.2
  | encb c1 c2 => exact (EncodesItsRow.encb c1 c2).2
  | decb c1 c2 => exact (EncodesItsRow.decb c1 c2).2
  | pack b => exact (EncodesItsRow.pack b).2
  | unpack c => exact (EncodesItsRow.unpack c).2
  | errack => exact EncodesItsRow.errack.2

/-- A code that fits its field is read back from it (R57). -/
theorem toNat_ofNat_of_codeFits {c : Nat} (h : codeFits c = true) : (BitVec.ofNat 8 c).toNat = c := by
  rw [BitVec.toNat_ofNat, Nat.mod_eq_of_lt (of_decide_eq_true h)]

/-- The operands of a well-formed command are read back from its word (R57). -/
theorem assembleOperands_encode (hi : WellFormed i) : assembleOperands i.opcode (encode i) = i := by
  cases i with
  | nop | clear | build | endStream | abort | errack => rfl
  | apush b => exact congrArg Instr.apush (lowField_encodeBY _ b)
  | kpush b => exact congrArg Instr.kpush (lowField_encodeBY _ b)
  | setpad b => exact congrArg Instr.setpad (lowField_encodeBY _ b)
  | data b => exact congrArg Instr.data (lowField_encodeBY _ b)
  | pack b => exact congrArg Instr.pack (lowField_encodeBY _ b)
  | start m => exact congrArg Instr.start (modeField_encodeM _ m)
  | encb c1 c2 | decb c1 c2 =>
    obtain ⟨h1, h2⟩ := Bool.and_eq_true_iff.1 hi
    simp [assembleOperands, Instr.opcode, encode, highField_encodeCC, lowField_encodeCC, toNat_ofNat_of_codeFits, h1,
      h2, -BitVec.toNat_ofNat]
  | unpack c =>
    have hc : codeFits c = true := hi
    simp [assembleOperands, Instr.opcode, encode, lowField_encodeBY, toNat_ofNat_of_codeFits, hc, -BitVec.toNat_ofNat]

/-- Settles O1: the word of a command matches the command's own row, and its fields hold the operands. -/
theorem decodeUndoesEncode : Obligations.DecodeUndoesEncode := by
  unfold Obligations.DecodeUndoesEncode
  exact fun i hi => decode_ok_iff.2 ⟨i.opcode, encode_matchesRow i, (assembleOperands_encode hi).symm⟩

/-! ### Encoding what a word decodes to -/

theorem encodeZ_of_toNat {opc : BitVec 4} (h : w.toNat = opc.toNat * 2 ^ 28) : encodeZ opc = w := by
  rw [← BitVec.toNat_inj, toNat_encodeZ, h]

theorem encodeBY_lowField {opc : BitVec 4} (h : w.toNat / 2 ^ 8 = opc.toNat * 2 ^ 20) :
    encodeBY opc (lowField w) = w := by
  rw [← BitVec.toNat_inj, toNat_encodeBY, toNat_lowField]
  omega

theorem toNat_modeField_bit (w : Word) : (modeField w).bit.toNat = w.toNat % 2 := by
  rw [modeField_eq]
  split <;> simp [Mode.bit] <;> omega

theorem encodeM_modeField {opc : BitVec 4} (h : w.toNat / 2 ^ 1 = opc.toNat * 2 ^ 27) :
    encodeM opc (modeField w).bit = w := by
  rw [← BitVec.toNat_inj, toNat_encodeM, toNat_modeField_bit]
  omega

theorem encodeCC_fields {opc : BitVec 4} (h : w.toNat / 2 ^ 16 = opc.toNat * 2 ^ 12) :
    encodeCC opc (BitVec.ofNat 8 (highField w).toNat) (BitVec.ofNat 8 (lowField w).toNat) = w := by
  rw [BitVec.ofNat_toNat, BitVec.ofNat_toNat, BitVec.setWidth_eq, BitVec.setWidth_eq, ← BitVec.toNat_inj,
    toNat_encodeCC, toNat_highField, toNat_lowField]
  omega

/-- A word that matches a row is the encoding of that row's command with the word's operands: the row fixes every bit
that no operand holds. -/
theorem encode_assembleOperands (h : MatchesRow o w) : encode (assembleOperands o w) = w := by
  rw [matchesRow_iff] at h
  cases o with
  | nop | clear | build | endStream | abort | errack => exact encodeZ_of_toNat ((Nat.div_one _).symm.trans h)
  | apush | kpush | setpad | data | pack => exact encodeBY_lowField h
  | start => exact encodeM_modeField h
  | encb | decb => exact encodeCC_fields h
  | unpack =>
    change encodeBY _ (BitVec.ofNat 8 (lowField w).toNat) = w
    rw [BitVec.ofNat_toNat, BitVec.setWidth_eq]
    exact encodeBY_lowField h

/-- Every code that the decoder reads fits its field (R57). -/
theorem wellFormed_assembleOperands (o : Opcode) (w : Word) : WellFormed (assembleOperands o w) := by
  have hhigh : codeFits (highField w).toNat = true := decide_eq_true (highField w).isLt
  have hlow : codeFits (lowField w).toNat = true := decide_eq_true (lowField w).isLt
  cases o with
  | encb | decb => exact Bool.and_eq_true_iff.2 ⟨hhigh, hlow⟩
  | unpack => exact hlow
  | nop | clear | apush | kpush | setpad | build | start | data | endStream | abort | pack | errack => rfl

/-- Settles O2: the word fixes the command by O1. -/
theorem encodeUndoesDecode : Obligations.EncodeUndoesDecode := by
  unfold Obligations.EncodeUndoesDecode
  intro w i h
  have hunique : ∀ j, WellFormed j → encode j = w → j = i := by
    rintro j hj rfl
    exact Except.ok.inj ((decodeUndoesEncode j hj).symm.trans h)
  obtain ⟨o, hrow, rfl⟩ := decode_ok_iff.1 h
  exact ⟨wellFormed_assembleOperands o w, encode_assembleOperands hrow, hunique⟩

/-! ### Rows, operands and illegal words -/

/-- Settles O3: `decodes_to_opcode_iff` at each row. -/
theorem commandExactlyWhenRowMatches : Obligations.CommandExactlyWhenRowMatches := by
  unfold Obligations.CommandExactlyWhenRowMatches
  have hrow := decodes_to_opcode_iff
  exact fun w => ⟨hrow .nop w, hrow .clear w, hrow .apush w, hrow .kpush w, hrow .setpad w, hrow .build w,
    hrow .start w, hrow .data w, hrow .endStream w, hrow .abort w, hrow .encb w, hrow .decb w, hrow .pack w,
    hrow .unpack w, hrow .errack w⟩

theorem modeField_eq_getLsbD (w : Word) : modeField w = if w.getLsbD 0 then .dec else .enc := by
  rw [modeField_eq, ← BitVec.testBit_toNat, Nat.testBit_zero]
  simp

/-- Settles O4. -/
theorem operandsAreTheWordsFields : Obligations.OperandsAreTheWordsFields := by
  unfold Obligations.OperandsAreTheWordsFields
  intro w i h
  obtain ⟨o, -, rfl⟩ := decode_ok_iff.1 h
  cases o with
  | nop | clear | build | endStream | abort | errack => trivial
  | apush | kpush | setpad | data | pack | unpack => rfl
  | start => exact modeField_eq_getLsbD w
  | encb | decb => exact ⟨rfl, rfl⟩

/-- A word with a row's OPC is illegal exactly when it has a reserved bit of the row's format set (R60). -/
theorem decode_reservedBits_iff_reserved (h : opcodeOf (opcField w) = some o) :
    decode w = .error .reservedBits ↔ w.extractLsb' o.operandBits (28 - o.operandBits) ≠ 0 := by
  rw [decode_reservedBits_iff h, matchesRow_iff_reserved h]

theorem opcField_of_opcodeOf (h : opcodeOf (opcField w) = some o) : w.extractLsb' 28 4 = BitVec.ofNat 4 o.opc := by
  rw [← (opcodeOf_eq_some_iff o _).1 h, BitVec.ofNat_toNat, BitVec.setWidth_eq, opcField]

/-- Settles O5: an OPC is reserved or names one row, whose reserved bits are those of its format. -/
theorem illegalWordsAndSubcodes : Obligations.IllegalWordsAndSubcodes := by
  unfold Obligations.IllegalWordsAndSubcodes
  intro w
  refine ⟨decode_reservedOpcode_iff.trans (opcodeOf_eq_none_iff _), ?_⟩
  cases h : opcodeOf (opcField w) with
  | none =>
    have hopc : w.extractLsb' 28 4 = 0xF#4 := (opcodeOf_eq_none_iff _).1 h
    rw [decode_reservedOpcode_iff.2 h, hopc]
    simp
  | some o =>
    rw [decode_reservedBits_iff_reserved h, opcField_of_opcodeOf h]
    cases o <;> simp [Opcode.opc, Opcode.operandBits]

/-- Settles O6, by evaluation. -/
theorem specWordsDecodeAsListed : Obligations.SpecWordsDecodeAsListed := by
  unfold Obligations.SpecWordsDecodeAsListed
  decide

end Sys2Proof
end

section
/-! Proofs: the assembler assembles the forms of 30_encoding R63 and R64, exactly and no other, and what it makes is
command words. -/

namespace Sys2Proof.Machine

variable {is : List Instr} {ops : List AsmToken} {line : List Char}

/-! ### The mnemonics -/

/-- How a mnemonic is written (R63, R64). -/
def AsmMnemonic.spelling : AsmMnemonic → List Char
  | .nop => ['N', 'O', 'P']
  | .clear => ['C', 'L', 'E', 'A', 'R']
  | .apush => ['A', 'P', 'U', 'S', 'H']
  | .kpush => ['K', 'P', 'U', 'S', 'H']
  | .setpad => ['S', 'E', 'T', 'P', 'A', 'D']
  | .build => ['B', 'U', 'I', 'L', 'D']
  | .start => ['S', 'T', 'A', 'R', 'T']
  | .data => ['D', 'A', 'T', 'A']
  | .endStream => ['E', 'N', 'D']
  | .abort => ['A', 'B', 'O', 'R', 'T']
  | .encb => ['E', 'N', 'C', 'B']
  | .decb => ['D', 'E', 'C', 'B']
  | .pack => ['P', 'A', 'C', 'K']
  | .unpack => ['U', 'N', 'P', 'A', 'C', 'K']
  | .errack => ['E', 'R', 'R', 'A', 'C', 'K']
  | .alphabet => ['A', 'L', 'P', 'H', 'A', 'B', 'E', 'T']
  | .key => ['K', 'E', 'Y']
  | .text => ['T', 'E', 'X', 'T']
  | .stream => ['S', 'T', 'R', 'E', 'A', 'M']
  | .configure => ['C', 'O', 'N', 'F', 'I', 'G', 'U', 'R', 'E']

theorem asmNames_spelling : ∀ e ∈ asmNames, e.1 = e.2.spelling := by decide

theorem asmNames_listed : asmNames.map Prod.fst = listedMnemonics := by decide

/-- A name writes the one mnemonic that it spells (R63). -/
theorem asmMnemonic_some_iff {m : List Char} {a : AsmMnemonic} : asmMnemonic m = some a ↔ m = a.spelling := by
  constructor
  · exact fun h => asmNames_spelling _ (mem_asmNames h)
  · rintro rfl
    cases a <;> decide

/-- A name that is not listed writes no mnemonic (R63). -/
theorem asmMnemonic_eq_none {m : List Char} (h : m ∉ listedMnemonics) : asmMnemonic m = none := by
  rw [Option.eq_none_iff_forall_ne_some]
  exact fun a ha => h (asmNames_listed ▸ List.mem_map_of_mem (mem_asmNames ha))

/-! ### The operands of each form -/

theorem asmPlain_some_iff {i : Instr} : asmPlain i ops = some is ↔ ops = [] ∧ is = [i] := by
  simp [asmPlain, eq_comm]

theorem asmByte_some_iff {mk : Byte → Instr} :
    asmByte mk ops = some is ↔ ∃ o b, ops = [o] ∧ WritesByte o b ∧ is = [mk b] := by
  unfold asmByte
  split
  · simp [byteOperand_some_iff, @eq_comm _ _ is]
  · rename_i hshape
    exact ⟨nofun, fun ⟨o, b, hops, _⟩ => absurd hops (hshape o)⟩

theorem asmCodes_some_iff {mk : Nat → Nat → Instr} :
    asmCodes mk ops = some is ↔
      ∃ c1 c2, ops = [.number c1, .number c2] ∧ WellFormed (mk c1 c2) ∧ is = [mk c1 c2] := by
  unfold asmCodes
  split
  · simp [fitting_some_iff]
  · rename_i hshape
    exact ⟨nofun, fun ⟨c1, c2, hops, _⟩ => absurd hops (hshape c1 c2)⟩

theorem asmUnpack_some_iff :
    asmUnpack ops = some is ↔ ∃ c, ops = [.number c] ∧ WellFormed (.unpack c) ∧ is = [.unpack c] := by
  unfold asmUnpack
  split
  · simp [fitting_some_iff]
  · rename_i hshape
    exact ⟨nofun, fun ⟨c, hops, _⟩ => absurd hops (hshape c)⟩

theorem asmStart_some_iff : asmStart ops = some is ↔ ∃ m, ops = [modeToken m] ∧ is = [.start m] := by
  unfold asmStart
  split
  · simp [modeOperand_some_iff, @eq_comm _ _ is]
  · rename_i hshape
    exact ⟨nofun, fun ⟨m, hops, _⟩ => absurd hops (hshape _)⟩

theorem asmText_some_iff {expand : List Byte → List Instr} :
    asmText expand ops = some is ↔ ∃ s, ops = [.text s] ∧ is = expand s := by
  unfold asmText
  split
  · simp [eq_comm]
  · rename_i hshape
    exact ⟨nofun, fun ⟨s, hops, _⟩ => absurd hops (hshape s)⟩

theorem asmStream_some_iff :
    asmStream ops = some is ↔ ∃ m s, ops = [modeToken m, .text s] ∧ is = expandStream m s := by
  unfold asmStream
  split
  · simp [modeOperand_some_iff, @eq_comm _ _ is]
  · rename_i hshape
    exact ⟨nofun, fun ⟨m, s, hops, _⟩ => absurd hops (hshape _ s)⟩

theorem asmConfigure_some_iff :
    asmConfigure ops = some is ↔
      ∃ a k o p, ops = [.text a, .text k, o] ∧ WritesByte o p ∧ is = expandConfigure a k p := by
  unfold asmConfigure
  split
  · simp [byteOperand_some_iff, @eq_comm _ _ is]
  · rename_i hshape
    exact ⟨nofun, fun ⟨a, k, o, p, hops, _⟩ => absurd hops (hshape a k o)⟩

/-! ### The forms -/

/-- Two code operands make a well-formed command when each fits its field (R57). -/
theorem codesFit_iff {c1 c2 : Nat} : (codeFits c1 && codeFits c2) = true ↔ c1 < 256 ∧ c2 < 256 := by
  simp [codeFits]

/-- What a mnemonic's operands assemble to is its form's commands. -/
theorem asmForm_of_asmCommands {a : AsmMnemonic} (h : asmCommands a ops = some is) : AsmForm a.spelling ops is := by
  cases a with
  | nop => obtain ⟨rfl, rfl⟩ := asmPlain_some_iff.1 h; exact .nop
  | clear => obtain ⟨rfl, rfl⟩ := asmPlain_some_iff.1 h; exact .clear
  | build => obtain ⟨rfl, rfl⟩ := asmPlain_some_iff.1 h; exact .build
  | endStream => obtain ⟨rfl, rfl⟩ := asmPlain_some_iff.1 h; exact .endStream
  | abort => obtain ⟨rfl, rfl⟩ := asmPlain_some_iff.1 h; exact .abort
  | errack => obtain ⟨rfl, rfl⟩ := asmPlain_some_iff.1 h; exact .errack
  | apush => obtain ⟨o, b, rfl, hb, rfl⟩ := asmByte_some_iff.1 h; exact .apush hb
  | kpush => obtain ⟨o, b, rfl, hb, rfl⟩ := asmByte_some_iff.1 h; exact .kpush hb
  | setpad => obtain ⟨o, b, rfl, hb, rfl⟩ := asmByte_some_iff.1 h; exact .setpad hb
  | data => obtain ⟨o, b, rfl, hb, rfl⟩ := asmByte_some_iff.1 h; exact .data hb
  | pack => obtain ⟨o, b, rfl, hb, rfl⟩ := asmByte_some_iff.1 h; exact .pack hb
  | start => obtain ⟨m, rfl, rfl⟩ := asmStart_some_iff.1 h; exact .start m
  | encb =>
    obtain ⟨c1, c2, rfl, hfit, rfl⟩ := asmCodes_some_iff.1 h
    obtain ⟨h1, h2⟩ := codesFit_iff.1 hfit
    exact .encb h1 h2
  | decb =>
    obtain ⟨c1, c2, rfl, hfit, rfl⟩ := asmCodes_some_iff.1 h
    obtain ⟨h1, h2⟩ := codesFit_iff.1 hfit
    exact .decb h1 h2
  | unpack => obtain ⟨c, rfl, hfit, rfl⟩ := asmUnpack_some_iff.1 h; exact .unpack (of_decide_eq_true hfit)
  | alphabet => obtain ⟨s, rfl, rfl⟩ := asmText_some_iff.1 h; exact .alphabet s
  | key => obtain ⟨s, rfl, rfl⟩ := asmText_some_iff.1 h; exact .key s
  | text => obtain ⟨s, rfl, rfl⟩ := asmText_some_iff.1 h; exact .text s
  | stream => obtain ⟨m, s, rfl, rfl⟩ := asmStream_some_iff.1 h; exact .stream m s
  | configure => obtain ⟨a, k, o, p, rfl, hp, rfl⟩ := asmConfigure_some_iff.1 h; exact .configure a k hp

/-- Every form is a mnemonic with operands that assemble to the form's commands. -/
theorem asmCommands_of_asmForm {m : List Char} (h : AsmForm m ops is) :
    ∃ a : AsmMnemonic, m = a.spelling ∧ asmCommands a ops = some is := by
  cases h with
  | nop => exact ⟨.nop, rfl, rfl⟩
  | clear => exact ⟨.clear, rfl, rfl⟩
  | build => exact ⟨.build, rfl, rfl⟩
  | endStream => exact ⟨.endStream, rfl, rfl⟩
  | abort => exact ⟨.abort, rfl, rfl⟩
  | errack => exact ⟨.errack, rfl, rfl⟩
  | apush hb => exact ⟨.apush, rfl, asmByte_some_iff.2 ⟨_, _, rfl, hb, rfl⟩⟩
  | kpush hb => exact ⟨.kpush, rfl, asmByte_some_iff.2 ⟨_, _, rfl, hb, rfl⟩⟩
  | setpad hb => exact ⟨.setpad, rfl, asmByte_some_iff.2 ⟨_, _, rfl, hb, rfl⟩⟩
  | data hb => exact ⟨.data, rfl, asmByte_some_iff.2 ⟨_, _, rfl, hb, rfl⟩⟩
  | pack hb => exact ⟨.pack, rfl, asmByte_some_iff.2 ⟨_, _, rfl, hb, rfl⟩⟩
  | start m => exact ⟨.start, rfl, asmStart_some_iff.2 ⟨m, rfl, rfl⟩⟩
  | encb h1 h2 => exact ⟨.encb, rfl, (asmCodes_some_iff (mk := .encb)).2 ⟨_, _, rfl, codesFit_iff.2 ⟨h1, h2⟩, rfl⟩⟩
  | decb h1 h2 => exact ⟨.decb, rfl, (asmCodes_some_iff (mk := .decb)).2 ⟨_, _, rfl, codesFit_iff.2 ⟨h1, h2⟩, rfl⟩⟩
  | unpack hc => exact ⟨.unpack, rfl, asmUnpack_some_iff.2 ⟨_, rfl, decide_eq_true hc, rfl⟩⟩
  | alphabet s => exact ⟨.alphabet, rfl, rfl⟩
  | key s => exact ⟨.key, rfl, rfl⟩
  | text s => exact ⟨.text, rfl, rfl⟩
  | stream m s => exact ⟨.stream, rfl, asmStream_some_iff.2 ⟨m, s, rfl, rfl⟩⟩
  | configure a k hp => exact ⟨.configure, rfl, asmConfigure_some_iff.2 ⟨a, k, _, _, rfl, hp, rfl⟩⟩

/-! ### Lines -/

section Line

variable {m : List Char} {ts : List AsmToken} (ht : asmTokens (line.length + 1) line = some (.name m :: ts))
  (ho : asmOperands ts = some ops)

include ht ho

/-- A line of a mnemonic and operands assembles exactly as its form says (R63, R64). -/
theorem assembleLine_some_iff : assembleLine line = some is ↔ AsmForm m ops is := by
  rw [assembleLine_of_tokens ht ho, Option.bind_eq_some_iff]
  constructor
  · rintro ⟨a, ha, h⟩
    rw [asmMnemonic_some_iff.1 ha]
    exact asmForm_of_asmCommands h
  · intro h
    obtain ⟨a, ha, h⟩ := asmCommands_of_asmForm h
    exact ⟨a, asmMnemonic_some_iff.2 ha, h⟩

theorem assembleLine_unlisted (hm : m ∉ listedMnemonics) : assembleLine line = none := by
  rw [assembleLine_of_tokens ht ho, asmMnemonic_eq_none hm, Option.bind_none]

theorem assembleLine_number {n : Nat} (hn : .number n ∈ ops) (h : 256 ≤ n) : assembleLine line = none := by
  rw [assembleLine_of_tokens ht ho, Option.bind_eq_none_iff]
  exact fun a _ => asmCommands_number hn h

/-- START takes no operand other than `ENC` and `DEC` (R63). -/
theorem assembleLine_start {o : AsmToken} (hm : m = ['S', 'T', 'A', 'R', 'T']) (hops : ops = [o])
    (henc : o ≠ .name ['E', 'N', 'C']) (hdec : o ≠ .name ['D', 'E', 'C']) : assembleLine line = none := by
  subst hm hops
  rw [Option.eq_none_iff_forall_ne_some]
  intro is h
  cases (assembleLine_some_iff ht ho).1 h with
  | start mode =>
    cases mode with
    | enc => exact henc rfl
    | dec => exact hdec rfl

end Line

/-- A line has no command, or is a mnemonic with operands. -/
theorem assembleLine_cases (h : assembleLine line = some is) :
    is = [] ∨ ∃ a ops, asmCommands a ops = some is := by
  simp only [assembleLine, Option.bind_eq_bind, Option.bind_eq_some_iff] at h
  obtain ⟨ts, -, h⟩ := h
  split at h
  · exact .inl (Option.some.inj h).symm
  · simp only [Option.bind_eq_some_iff] at h
    obtain ⟨ops, -, a, -, h⟩ := h
    exact .inr ⟨a, ops, h⟩
  · cases h

/-- The commands of a line are well-formed (R63). -/
theorem assembleLine_wellFormed (h : assembleLine line = some is) : ∀ i ∈ is, WellFormed i := by
  rcases assembleLine_cases h with rfl | ⟨a, ops, h⟩
  · exact nofun
  · exact asmCommands_wellFormed h

/-! ### Programs -/

/-- The commands of a program's lines are well-formed (R63). -/
theorem assembleLines_wellFormed {lines : List (List Char)} {iss : List (List Instr)}
    (h : lines.mapM assembleLine = some iss) : ∀ i ∈ iss.flatten, WellFormed i := by
  induction lines generalizing iss with
  | nil => cases h; exact nofun
  | cons line lines ih =>
    simp only [List.mapM_cons, Option.bind_eq_bind, Option.bind_eq_some_iff] at h
    obtain ⟨is, hline, rest, hrest, h⟩ := h
    cases h
    intro i hi
    rw [List.flatten_cons, List.mem_append] at hi
    exact hi.elim (assembleLine_wellFormed hline i) (ih hrest i)

/-- The words of a program are the encodings of its lines' commands. -/
theorem assembleWords_some {lines : List (List Char)} {ws : List Word} (h : assembleWords lines = some ws) :
    ∃ iss, lines.mapM assembleLine = some iss ∧ ws = iss.flatten.map encode ∧ ∀ i ∈ iss.flatten, WellFormed i := by
  obtain ⟨iss, hlines, rfl⟩ := Option.map_eq_some_iff.1 h
  exact ⟨iss, hlines, rfl, assembleLines_wellFormed hlines⟩

/-- Settles O7: the forms are `assembleLine_some_iff`, and a program's words decode by O1; the listed lines are
evaluated. -/
theorem assemblerNeverProducesIllegalWord : Obligations.AssemblerNeverProducesIllegalWord := by
  unfold Obligations.AssemblerNeverProducesIllegalWord
  refine ⟨fun lines ws h => ⟨assembleWords_some h, ?_⟩, fun line m ts ops ht ho =>
    ⟨fun _ => assembleLine_some_iff ht ho, assembleLine_unlisted ht ho, fun _ => assembleLine_number ht ho,
      fun _ => assembleLine_start ht ho⟩, ?_⟩
  · obtain ⟨iss, -, rfl, hwf⟩ := assembleWords_some h
    intro w hw
    obtain ⟨i, hi, rfl⟩ := List.mem_map.1 hw
    exact ⟨i, decodeUndoesEncode i (hwf i hi)⟩
  · decide +kernel

end Sys2Proof.Machine
end

section
/-! Proofs: a stream ends with one marker, after its data tokens (30_encoding R62, 20_memory R53). -/

namespace Sys2Proof.Machine

variable {s t : State} {i : Instr}

/-- The markers that a command may append: one when it leaves STREAM, EOS for END's way to IDLE (R62). -/
def endMarkers (i : Instr) (s t : State) : List Token :=
  if s.procState = .stream ∧ t.procState ≠ .stream then
    (if i = .endStream ∧ t.procState = .idle then [eosMarker] else [abortMarker])
  else []

/-- What `t` has in OUT beyond `s` is data tokens and then the markers of `i`. -/
def AppendsToOut (i : Instr) (s t : State) : Prop :=
  ∃ emitted : List Byte, t.out = s.out ++ (emitted.map dataToken ++ endMarkers i s t)

/-- A command that does not leave STREAM and emits bytes only appends no marker. -/
theorem AppendsToOut.of_stays (emitted : List Byte) (hst : s.procState = .stream → t.procState = .stream)
    (hout : t.out = s.out ++ emitted.map dataToken) : AppendsToOut i s t := by
  have hstays : ¬(s.procState = .stream ∧ t.procState ≠ .stream) := fun h => h.2 (hst h.1)
  exact ⟨emitted, by rw [endMarkers, if_neg hstays, List.append_nil, hout]⟩

/-- A command that goes to IDLE or ERROR and ends an open stream otherwise than by END appends ABORT exactly when there
is one. -/
theorem AppendsToOut.of_abort (hout : t.out = if s.procState = .stream then s.out ++ [abortMarker] else s.out)
    (hst : t.procState ≠ .stream) (hi : ¬(i = .endStream ∧ t.procState = .idle)) : AppendsToOut i s t := by
  refine ⟨[], ?_⟩
  rw [endMarkers, if_neg hi, hout]
  by_cases hs : s.procState = .stream
  · simp [hs, hst]
  · simp [hs]

/-- A command appends data tokens and then its markers: only START opens a stream, and only END, ABORT, CLEAR and error
entry close one (R62). -/
theorem exec_appendsToOut (h : exec i s = .next t) : AppendsToOut i s t := by
  cases exec_ending h with
  | discarded => exact .of_stays [] id (by simp)
  | raised e => exact .of_abort (by rw [errorEntry_eq]; rfl) nofun nofun
  | buildRaised => exact .of_abort (by rw [errorEntry_eq]; rfl) nofun nofun
  | ran hr he =>
    cases he with
    | clear => exact .of_abort (by rw [clear_eq]; rfl) nofun nofun
    | start mode => exact .of_stays [] (fun _ => rfl) (by simp)
    | data byte pend carry emitted => exact .of_stays emitted id rfl
    | endStream emitted =>
      have hst : s.procState = .stream := hr.stream ⟨rfl, fun _ => rfl⟩
      exact ⟨emitted, by simp [endMarkers, hst]⟩
    | abort =>
      by_cases hst : s.procState = .stream
      · exact .of_abort (by rw [abortStream_eq]; rfl) (by simp [abortStream_eq, hst]) nofun
      · exact .of_stays [] (absurd · hst) (by simp [abortStream_eq, hst])
    | errack => rw [errack_eq]; exact .of_stays [] (fun hs => by simp [hs]) (by simp)
    | nop | apush | kpush | setpad | build | query => exact .of_stays [] id (by simp)

/-- A data token is no marker (R62). -/
theorem dataToken_lt (v : Byte) : (dataToken v).toNat < 0x100 := by
  simpa [isMarker] using isMarker_dataToken v

/-- Settles O49. -/
theorem streamEndsWithExactlyOneMarker : Obligations.StreamEndsWithExactlyOneMarker := by
  unfold Obligations.StreamEndsWithExactlyOneMarker
  intro i s t h
  obtain ⟨emitted, hout⟩ := exec_appendsToOut h
  refine ⟨emitted.map dataToken, endMarkers i s t, hout, fun x hx => ?_, rfl⟩
  obtain ⟨v, -, rfl⟩ := List.mem_map.1 hx
  exact dataToken_lt v

end Sys2Proof.Machine
end

section
/-! Proofs: the whole next state of a command's cycle: its rule run to the last line, its rule's raise before any write,
and the state check of R105 (44_control R104, 60_exceptions R121). -/

namespace Sys2Proof.Machine

variable {s t : State} {i : Instr}

/-- Error entry within a cycle leaves what `erred` says (R104, R121). -/
theorem retire_errorEntry_beginCycle (e : ErrorReport) (w : Word) (s : State) :
    retire (errorEntry e w (beginCycle s)) = erred s e.code.bits.toNat e.sub e.arg w := by
  have hcode : BitVec.ofNat 8 e.code.bits.toNat = e.code.bits := BitVec.eq_of_toNat_eq (by simp)
  rw [errorEntry_eq, erred, hcode]
  rfl

/-- A command that runs to its last line answers what its rule leaves, counted. -/
theorem exec_of_done (hst : s.procState ≠ .error) (ha : allowed i.opcode s.procState s.tv = true)
    (h : rule i (beginCycle s) = .done t) : exec i s = .next (retire t) := by
  rw [exec_eq_runCommand, runCommand_of_allowed _ hst ha, h]
  rfl

/-- A command that raises before it writes changes nothing else (R121). -/
theorem exec_of_raised {e : ErrorReport} (hst : s.procState ≠ .error)
    (ha : allowed i.opcode s.procState s.tv = true) (h : rule i (beginCycle s) = .raised e (beginCycle s)) :
    exec i s = .next (erred s e.code.bits.toNat e.sub e.arg (encode i)) := by
  rw [exec_eq_runCommand, runCommand_of_allowed _ hst ha, h, ← retire_errorEntry_beginCycle]
  rfl

/-- A command that the state does not allow raises BAD_STATE with STATE and TV in its subcode (R104, R105). -/
theorem exec_of_refused (hst : s.procState ≠ .error) (ha : allowed i.opcode s.procState s.tv = false) :
    exec i s = .next (erred s 2 (badState s.procState s.tv).sub 0 (encode i)) := by
  rw [exec_eq_runCommand, runCommand_refused _ hst ha, retire_errorEntry_beginCycle]
  rfl

/-! ### The rows of R105 that commands share -/

/-- The commands that load the configuration run in IDLE (R105). -/
theorem loading_allowed (hi : i.opcode ∈ [.apush, .kpush, .setpad, .build]) (hst : s.procState = .idle) :
    allowed i.opcode s.procState s.tv = true := by
  have hrow : ∀ tv, ∀ o ∈ [Opcode.apush, .kpush, .setpad, .build], allowed o .idle tv = true := by decide
  rw [hst]
  exact hrow _ _ hi

/-- No command that loads the configuration, nor START, runs in STREAM (R105, R111). -/
theorem exec_loading_in_stream (hi : i.opcode ∈ [.apush, .kpush, .setpad, .build, .start])
    (hst : s.procState = .stream) (htv : s.tv = true) : exec i s = .next (erred s 2 5 0 (encode i)) := by
  have hrow : ∀ o ∈ [Opcode.apush, .kpush, .setpad, .build, .start], allowed o .stream true = false := by decide
  have hrefused : allowed i.opcode s.procState s.tv = false := by rw [hst, htv]; exact hrow _ hi
  rw [exec_of_refused (by simp [hst]) hrefused, hst, htv]
  rfl

/-- With tables, the queries run in IDLE and in STREAM (R105). -/
theorem query_allowed (hi : i.opcode ∈ [.pack, .unpack, .encb, .decb]) (hst : s.procState ≠ .error)
    (htv : s.tv = true) : allowed i.opcode s.procState s.tv = true := by
  have hidle : ∀ o ∈ [Opcode.pack, .unpack, .encb, .decb], allowed o .idle true = true := by decide
  have hstream : ∀ o ∈ [Opcode.pack, .unpack, .encb, .decb], allowed o .stream true = true := by decide
  rw [htv]
  cases hp : s.procState with
  | idle => exact hidle _ hi
  | stream => exact hstream _ hi
  | error => exact absurd hp hst

/-- Without tables, no query runs in IDLE (R105, R111). -/
theorem exec_query_without_tables (hi : i.opcode ∈ [.pack, .unpack, .encb, .decb]) (hst : s.procState = .idle)
    (htv : s.tv = false) : exec i s = .next (erred s 2 0 0 (encode i)) := by
  have hrow : ∀ o ∈ [Opcode.pack, .unpack, .encb, .decb], allowed o .idle false = false := by decide
  have hrefused : allowed i.opcode s.procState s.tv = false := by rw [hst, htv]; exact hrow _ hi
  rw [exec_of_refused (by simp [hst]) hrefused, hst, htv]
  rfl

end Sys2Proof.Machine
end

section
/-! Proofs: the alphabet codec: loading the alphabet and PAD, the two directions of the code, and their queries
(40_codec). -/

namespace Sys2Proof.Machine

variable {s : State}

/-! ### Loading -/

/-- APUSH to a full ALPHA raises (R71). -/
theorem apush_of_full (hfull : s.alen = nmaxOf s.params) (byte : Byte) :
    apush byte s = raise .invalidAlphabet 5 s.alen := if_pos hfull

/-- Settles O20: the rule in IDLE is `apush_of_lt` with room and `apush_of_full` without. -/
theorem apushAppendsSymbol : Obligations.ApushAppendsSymbol := by
  unfold Obligations.ApushAppendsSymbol
  intro s v hwf
  have hne : s.procState = .idle → s.procState ≠ .error := fun hst => by simp [hst]
  have hallowed := loading_allowed (s := s) (i := .apush v) (by simp [Instr.opcode])
  refine ⟨fun hst hroom => ?_, fun hst hfull => ?_, exec_loading_in_stream (by simp [Instr.opcode])⟩
  · have hrule := apush_of_lt (s := beginCycle s) hroom v
    exact ⟨_, exec_of_done (hne hst) (hallowed hst) ((precise_done_iff _ _ _).2 hrule),
      fun i => read_write hwf s.alen i v⟩
  · have hrule := apush_of_full (s := beginCycle s) hfull v
    exact exec_of_raised (hne hst) (hallowed hst) ((precise_raised_iff _ _ _ _).2 ⟨hrule, rfl⟩)

/-- Settles O22. -/
theorem setpadWritesPad : Obligations.SetpadWritesPad := by
  unfold Obligations.SetpadWritesPad
  intro s v
  refine ⟨fun hst => ?_, exec_loading_in_stream (by simp [Instr.opcode])⟩
  have hallowed := loading_allowed (i := .setpad v) (by simp [Instr.opcode]) hst
  exact exec_of_done (by simp [hst]) hallowed rfl

/-! ### The two directions of the code, with tables -/

/-- With tables, CODEC holds the current alphabet (R38). -/
theorem codecHoldsAlphabet_of_built (h : build s = .done s) : CodecHoldsAlphabet s s := by
  obtain ⟨hchecks, hcodec, -⟩ := (build_eq_done_self_iff s).1 h
  simp only [CodecHoldsAlphabet, packByte, hcodec]
  exact ⟨fun i hi => codecBuild_read_symbol s.alpha s.alen i hi hchecks.symbolAt_inj,
    codecBuild_read_other s.alpha s.alen⟩

/-- A byte with a valid entry is an alphabet symbol (R38). -/
theorem exists_symbol_of_valid (h : CodecHoldsAlphabet s s) {v : Byte} (hv : (packByte v s).valid = true) :
    ∃ i < s.alen, symbolAt s i = v := by
  obtain ⟨-, hother⟩ := h
  by_contra hnone
  push Not at hnone
  rw [hother v hnone] at hv
  exact Bool.false_ne_true hv

/-- Settles O27: both ways round, the byte is the symbol that `unpack` answers for a code below N. -/
theorem packAndUnpackAreInverse : Obligations.PackAndUnpackAreInverse := by
  unfold Obligations.PackAndUnpackAreInverse
  intro s hinv htv
  have hconfig := (cycleInv_of_inv hinv).config
  have hcodec := codecHoldsAlphabet_of_built (hconfig.built htv)
  have ⟨hsymbol, _⟩ := hcodec
  have hunpack : ∀ c < s.alen, unpackCode c s = .ok (symbolAt s c) := fun _ => unpackCode_of_lt hconfig.toStorageInv
  refine ⟨fun c hc => ⟨symbolAt s c, hunpack c hc, hsymbol c hc⟩, fun v hv => ?_⟩
  obtain ⟨i, hi, rfl⟩ := exists_symbol_of_valid hcodec hv
  rw [hsymbol i hi]
  exact hunpack i hi

/-! ### The queries -/

/-- RESULT's fields in numbers: RVALID has weight 2^16, RHI 2^8 (R30). -/
theorem resultWord_eq (rhi rlo : Byte) :
    resultWord rhi rlo = BitVec.ofNat 32 (0x10000 + rhi.toNat * 0x100 + rlo.toNat) := by
  have hhi := rhi.isLt
  have hlo := rlo.isLt
  refine BitVec.eq_of_toNat_eq ?_
  simp only [resultWord, toNat_fields, BitVec.toNat_ofNat]
  omega

/-- RESULT of a query that answers one byte (R73, R74). -/
theorem resultWord_zero (rlo : Byte) : resultWord 0x00 rlo = BitVec.ofNat 32 (0x10000 + rlo.toNat) :=
  resultWord_eq 0x00 rlo

theorem toNat_codeByte {c : Nat} (hc : c < 256) : (codeByte c).toNat = c := by
  rw [codeByte, BitVec.toNat_ofNat, Nat.mod_eq_of_lt hc]

/-- PACK, where the state lets it run, writes RESULT only (R73). -/
theorem exec_pack (v : Byte) (hst : s.procState ≠ .error) (htv : s.tv = true) :
    exec (.pack v) s = .next { counted s with result := packResult (packByte v s) } :=
  exec_of_done hst (query_allowed (i := .pack v) (by simp [Instr.opcode]) hst htv) rfl

/-- Settles O31: `exec_pack` with the entry that CODEC holds for the byte (R38). -/
theorem packQueriesTheCodec : Obligations.PackQueriesTheCodec := by
  unfold Obligations.PackQueriesTheCodec
  intro s v hinv
  have hcodec : s.tv = true → CodecHoldsAlphabet s s := fun htv =>
    codecHoldsAlphabet_of_built ((cycleInv_of_inv hinv).config.built htv)
  refine ⟨fun hst htv i hi hv => ?_, fun hst htv hv => ?_, exec_query_without_tables (by simp [Instr.opcode])⟩
  · obtain ⟨hsymbol, -⟩ := hcodec htv
    have hcode : i < 256 := by have := alen_le_of_inv hinv; omega
    subst hv
    rw [exec_pack _ hst htv, hsymbol i hi, packResult, if_pos rfl, resultWord_zero, toNat_codeByte hcode]
  · obtain ⟨-, hother⟩ := hcodec htv
    rw [exec_pack _ hst htv, hother v hv]
    rfl

/-- UNPACK of a code below N answers its symbol (R74). -/
theorem unpackQuery_of_lt (hle : s.alen ≤ nmaxOf s.params) {c : Nat} (hc : c < s.alen) :
    unpackQuery c s = .ok { s with result := resultWord 0x00 (symbolAt s c) } := by
  have hunpack : unpackCode c s = .ok (symbolAt s c) := (unpackCode_ok_iff c s _).2 ⟨lt_of_lt_of_le hc hle, rfl⟩
  rw [unpackQuery, (checkCode_ok_iff 1 c s).2 hc, hunpack]
  rfl

/-- UNPACK of a code of N or more raises BAD_CODE (R74, R115). -/
theorem unpackQuery_of_le {c : Nat} (hc : s.alen ≤ c) : unpackQuery c s = raise .badCode 1 c := by
  rw [unpackQuery, checkCode_of_le hc]
  rfl

/-- Settles O32: the rule is `unpackQuery_of_lt` below N and `unpackQuery_of_le` from N on. -/
theorem unpackQueriesTheAlphabet : Obligations.UnpackQueriesTheAlphabet := by
  unfold Obligations.UnpackQueriesTheAlphabet
  intro s c hle
  have hallowed := query_allowed (s := s) (i := .unpack c) (by simp [Instr.opcode])
  refine ⟨fun hst htv hc => ?_, fun hst htv hc => ?_, exec_query_without_tables (by simp [Instr.opcode])⟩
  · have hrule := unpackQuery_of_lt (s := beginCycle s) hle hc
    rw [exec_of_done hst (hallowed hst htv) ((precise_done_iff _ _ _).2 hrule), resultWord_zero]
    rfl
  · have hrule := unpackQuery_of_le (s := beginCycle s) hc
    exact exec_of_raised hst (hallowed hst htv) ((precise_raised_iff _ _ _ _).2 ⟨hrule, rfl⟩)

end Sys2Proof.Machine
end

section
/-! Proofs: loading the key, and the checks that BUILD makes before it writes the tables, each raising at the first
failure (41_table_builder R75, R77 to R79). -/

namespace Sys2Proof.Machine

variable {s t : State} {k : Nat}

/-! ### KPUSH -/

/-- KPUSH to a full KEY raises (R75). -/
theorem kpush_of_full (hfull : s.klen = 2 * nmaxOf s.params) (byte : Byte) :
    kpush byte s = raise .invalidKey 1 s.klen := if_pos hfull

/-- Settles O21: the rule in IDLE is `kpush_of_lt` with room and `kpush_of_full` without. -/
theorem kpushAppendsSymbol : Obligations.KpushAppendsSymbol := by
  unfold Obligations.KpushAppendsSymbol
  intro s v hwf
  have hne : s.procState = .idle → s.procState ≠ .error := fun hst => by simp [hst]
  have hallowed := loading_allowed (s := s) (i := .kpush v) (by simp [Instr.opcode])
  refine ⟨fun hst hroom => ?_, fun hst hfull => ?_, exec_loading_in_stream (by simp [Instr.opcode])⟩
  · have hrule := kpush_of_lt (s := beginCycle s) hroom v
    exact ⟨_, exec_of_done (hne hst) (hallowed hst) ((precise_done_iff _ _ _).2 hrule),
      fun i => read_write hwf s.klen i v⟩
  · have hrule := kpush_of_full (s := beginCycle s) hfull v
    exact exec_of_raised (hne hst) (hallowed hst) ((precise_raised_iff _ _ _ _).2 ⟨hrule, rfl⟩)

/-! ### How a BUILD that raises ends -/

/-- BUILD that raises leaves no tables, what it wrote of CODEC, ENC and DEC, and the error (R76, R121). -/
theorem exec_build_of_raised (hst : s.procState = .idle) {e : ErrorReport} {codec : Memory CodecEntry}
    {enc dec : Memory TableEntry}
    (h : build (beginCycle s) =
      .raised e (invalidate { beginCycle s with codec := codec, enc := enc, dec := dec })) :
    exec .build s = .next { erred s e.code.bits.toNat e.sub e.arg 0x50000000 with
      tv := false, k := 0, b := 0, codec := codec, enc := enc, dec := dec } := by
  have hcode : BitVec.ofNat 8 e.code.bits.toNat = e.code.bits := BitVec.eq_of_toNat_eq (by simp)
  have hallowed := loading_allowed (i := .build) (by simp [Instr.opcode]) hst
  rw [exec_eq_runCommand, runCommand_of_allowed _ (by simp [hst]) hallowed, rule, h, endCycle, errorEntry_eq, erred,
    hcode]
  rfl

/-- BUILD whose alphabet checks raise writes nothing but the error (R76, R77). -/
theorem exec_build_of_alphaCheck (hst : s.procState = .idle) {code : ErrCode} {sub arg : Nat}
    (h : alphaCheck (invalidate (beginCycle s)) = raise code sub arg) :
    exec .build s = .next { erred s code.bits.toNat sub arg 0x50000000 with tv := false, k := 0, b := 0 } := by
  have hbuild : build (beginCycle s) = .raised ⟨code, sub, arg⟩ (invalidate (beginCycle s)) := by
    rw [build_eq, h]
    rfl
  exact exec_build_of_raised hst hbuild

/-! ### The alphabet checks -/

theorem alphaCheck_of_empty (h : s.alen = 0) : alphaCheck s = raise .invalidAlphabet 1 0 := if_pos h

theorem alphaCheck_of_not_square (h0 : s.alen ≠ 0) (hsq : ∀ k, k * k ≠ s.alen) :
    alphaCheck s = raise .invalidAlphabet 2 s.alen := by
  rw [alphaCheck, if_neg h0, if_pos (hsq _)]

theorem isqrt_mul_isqrt {n : Nat} (h : n = k * k) : isqrt n * isqrt n = n := by rw [h, isqrt_mul_self]

/-- The first symbol of 0x80 or more raises (R77). -/
theorem alphaCheck_of_high {i : Nat} (hsq : s.alen = k * k) (hle : s.alen ≤ nmaxOf s.params) (hi : i < s.alen)
    (hhigh : 0x80 ≤ (symbolAt s i).toNat) (hfirst : ∀ j < i, (symbolAt s j).toNat < 0x80) :
    alphaCheck s = raise .invalidAlphabet 3 i := by
  have hfind : (List.range s.alen).find? (fun i => decide (0x80 ≤ (symbolAt s i).toNat)) = some i :=
    List.find?_range_eq_some.2 ⟨by simpa using hhigh, by simpa using hi, by simpa using hfirst⟩
  rw [alphaCheck, if_neg (by omega), if_neg (not_not.2 (isqrt_mul_isqrt hsq)), if_neg (not_lt.2 hle), hfind]

theorem duplicateAt_iff (s : State) (i : Nat) : duplicateAt s i = true ↔ ∃ j < i, symbolAt s j = symbolAt s i := by
  simp [duplicateAt]

/-- With all symbols representable, the first that occurs at a lower index raises (R77). -/
theorem alphaCheck_of_duplicate {i : Nat} (hsq : s.alen = k * k) (hle : s.alen ≤ nmaxOf s.params) (hi : i < s.alen)
    (hlow : ∀ j < s.alen, (symbolAt s j).toNat < 0x80) (hdup : ∃ j < i, symbolAt s j = symbolAt s i)
    (hfirst : ∀ a < i, ∀ j < a, symbolAt s j ≠ symbolAt s a) :
    alphaCheck s = raise .invalidAlphabet 4 i := by
  have hnone : (List.range s.alen).find? (fun i => decide (0x80 ≤ (symbolAt s i).toNat)) = none := by
    simpa using hlow
  have hfind : (List.range s.alen).find? (fun i => duplicateAt s i) = some i :=
    List.find?_range_eq_some.2 ⟨(duplicateAt_iff s i).2 hdup, by simpa using hi, fun a ha => by
      simpa [duplicateAt] using hfirst a ha⟩
  rw [alphaCheck, if_neg (by omega), if_neg (not_not.2 (isqrt_mul_isqrt hsq)), if_neg (not_lt.2 hle), hnone, hfind]

/-- Settles O24, check by check. -/
theorem buildChecksTheAlphabet : Obligations.BuildChecksTheAlphabet := by
  unfold Obligations.BuildChecksTheAlphabet
  intro s hst
  refine ⟨fun h0 => ?_, fun h0 hsq => ?_, fun k i hsq hle hi hhigh hfirst => ?_,
    fun k i hsq hle hi hlow hdup hfirst => ?_⟩
  · exact exec_build_of_alphaCheck hst (alphaCheck_of_empty h0)
  · exact exec_build_of_alphaCheck hst (alphaCheck_of_not_square h0 hsq)
  · exact exec_build_of_alphaCheck hst (alphaCheck_of_high hsq hle hi hhigh hfirst)
  · exact exec_build_of_alphaCheck hst (alphaCheck_of_duplicate hsq hle hi hlow hdup hfirst)

theorem alphaCheck_of_legal (h : LegalAlphabet s k) : alphaCheck s = .ok () := by
  obtain ⟨hpos, hsq, hle, hlow, hinj⟩ := h
  refine (alphaCheck_ok_iff s).2 ⟨by omega, isqrt_mul_isqrt hsq, hle, hlow, fun i hi j hj heq => ?_⟩
  exact hj.ne (hinj j (hj.trans hi) i hi heq)

/-! ### The codec of a legal alphabet, PAD and the key -/

/-- The codec built from an alphabet without duplicates holds it (R38, R68). -/
theorem codecHoldsAlphabet_of_codec (hinj : ∀ i < s.alen, ∀ j < s.alen, symbolAt s i = symbolAt s j → i = j)
    (hcodec : t.codec = codecBuild s.alpha s.alen) : CodecHoldsAlphabet s t := by
  simp only [CodecHoldsAlphabet, packByte, hcodec]
  exact ⟨fun i hi => codecBuild_read_symbol s.alpha s.alen i hi hinj, codecBuild_read_other s.alpha s.alen⟩

/-- CODEC's valid entries are those of the symbols (R38). -/
theorem packByte_valid_iff (h : CodecHoldsAlphabet s t) (v : Byte) :
    (packByte v t).valid = true ↔ ∃ i < s.alen, symbolAt s i = v := by
  obtain ⟨hsymbol, hother⟩ := h
  constructor
  · intro hv
    by_contra hnone
    push Not at hnone
    rw [hother v hnone] at hv
    exact Bool.false_ne_true hv
  · rintro ⟨i, hi, rfl⟩
    rw [hsymbol i hi]

theorem codecHoldsAlphabet_withCodec (h : LegalAlphabet s k) : CodecHoldsAlphabet s (withCodec s) := by
  obtain ⟨-, -, -, -, hinj⟩ := h
  exact codecHoldsAlphabet_of_codec hinj rfl

/-- A PAD that is no symbol raises (R78). -/
theorem padCheck_of_foreign (h : LegalAlphabet s k) (hpad : ¬PadInAlphabet s) :
    padCheck (withCodec s) = raise .invalidPad 1 s.pad.toNat :=
  if_neg (mt (packByte_valid_iff (codecHoldsAlphabet_withCodec h) s.pad).1 hpad)

theorem padCheck_of_member (h : LegalAlphabet s k) (hpad : PadInAlphabet s) : padCheck (withCodec s) = .ok () :=
  (padCheck_ok_iff _).2 ((packByte_valid_iff (codecHoldsAlphabet_withCodec h) s.pad).2 hpad)

/-- A key that is not 2N symbols long raises (R79). -/
theorem keyCheck_of_length (hlen : s.klen ≠ 2 * s.alen) : keyCheck s = raise .invalidKey 2 s.klen := if_pos hlen

/-- The first key symbol without a code raises (R79). -/
theorem keyCheck_of_invalid (hlen : s.klen = 2 * s.alen) {i : Nat} (hi : i < 2 * s.alen)
    (hinvalid : (packByte (keyAt s i) s).valid = false) (hfirst : ∀ a < i, (packByte (keyAt s a) s).valid = true) :
    keyCheck s = raise .invalidKey 3 i := by
  have hfind : (List.range (2 * s.alen)).find? (fun i => !(packByte (keyAt s i) s).valid) = some i :=
    List.find?_range_eq_some.2 ⟨by simpa using hinvalid, by simpa using hi, by simpa using hfirst⟩
  rw [keyCheck, if_neg (not_not.2 hlen), hfind]

/-- The first key symbol that is not in the alphabet raises (R79). -/
theorem keyCheck_of_foreign (h : LegalAlphabet s k) (hlen : s.klen = 2 * s.alen) {i : Nat} (hi : i < 2 * s.alen)
    (hforeign : ∀ j < s.alen, symbolAt s j ≠ keyAt s i) (hfirst : ∀ a < i, ∃ j < s.alen, symbolAt s j = keyAt s a) :
    keyCheck (withCodec s) = raise .invalidKey 3 i := by
  have hvalid := packByte_valid_iff (codecHoldsAlphabet_withCodec h)
  refine keyCheck_of_invalid (s := withCodec s) hlen hi (Bool.eq_false_iff.2 ?_) fun a ha => (hvalid _).2 (hfirst a ha)
  rw [ne_eq, hvalid]
  exact fun ⟨j, hj, heq⟩ => hforeign j hj heq

theorem keyCheck_of_members (h : LegalAlphabet s k) (hkey : KeyFromAlphabet s) : keyCheck (withCodec s) = .ok () := by
  obtain ⟨hlen, hmember⟩ := hkey
  have hvalid := packByte_valid_iff (codecHoldsAlphabet_withCodec h)
  exact (keyCheck_ok_iff _).2 ⟨hlen, fun i hi => (hvalid _).2 (hmember i hi)⟩

/-- BUILD whose pad check raises has written CODEC (R76, R78). -/
theorem build_of_padCheck (h : LegalAlphabet s k) {code : ErrCode} {sub arg : Nat}
    (hpad : padCheck (withCodec s) = raise code sub arg) : build s = .raised ⟨code, sub, arg⟩ (withCodec s) := by
  rw [build_eq, alphaCheck_of_legal (s := invalidate s) h, hpad]
  rfl

/-- BUILD whose key checks raise has written CODEC (R76, R79). -/
theorem build_of_keyCheck (h : LegalAlphabet s k) (hpad : PadInAlphabet s) {code : ErrCode} {sub arg : Nat}
    (hkey : keyCheck (withCodec s) = raise code sub arg) : build s = .raised ⟨code, sub, arg⟩ (withCodec s) := by
  rw [build_eq, alphaCheck_of_legal (s := invalidate s) h, padCheck_of_member h hpad, hkey]
  rfl

/-- What a BUILD that raises after `codec_build` and before `fill` leaves. -/
theorem exec_build_of_raised_withCodec (hst : s.procState = .idle) (h : LegalAlphabet s k) {code : ErrCode}
    {sub arg : Nat} (hbuild : build (beginCycle s) = .raised ⟨code, sub, arg⟩ (withCodec (beginCycle s))) :
    ∃ t, exec .build s = .next t ∧
      t = { erred s code.bits.toNat sub arg 0x50000000 with tv := false, k := 0, b := 0, codec := t.codec } ∧
        CodecHoldsAlphabet s t := by
  obtain ⟨-, -, -, -, hinj⟩ := h
  exact ⟨_, exec_build_of_raised hst hbuild, rfl, codecHoldsAlphabet_of_codec hinj rfl⟩

/-- Settles O25, check by check. -/
theorem buildChecksPadAndKey : Obligations.BuildChecksPadAndKey := by
  unfold Obligations.BuildChecksPadAndKey
  intro s k hst h
  have h' : LegalAlphabet (beginCycle s) k := h
  refine ⟨fun hpad => ?_, fun hpad hlen => ?_, fun i hpad hlen hi hforeign hfirst => ?_⟩
  · exact exec_build_of_raised_withCodec hst h (build_of_padCheck h' (padCheck_of_foreign h' hpad))
  · exact exec_build_of_raised_withCodec hst h (build_of_keyCheck h' hpad
      (keyCheck_of_length (s := withCodec (beginCycle s)) hlen))
  · exact exec_build_of_raised_withCodec hst h (build_of_keyCheck h' hpad
      (keyCheck_of_foreign h' hlen hi hforeign hfirst))

end Sys2Proof.Machine
end

section
/-! Proofs: the four-square rule as a permutation of positions: the inversion finds no collision exactly when each half
of the key is a permutation of the alphabet (41_table_builder R81, R82, R85). -/

namespace Sys2Proof.Machine

variable {s t : State} {k : Nat}

/-! ### The exchange of columns -/

/-- The positions in KeyA and KeyB that the pair of two plaintext codes comes from: the first's row with the second's
column, and the second's row with the first's column (R81). -/
def crossed (k p1 p2 : Nat) : Nat × Nat := (square0 k (p1 / k) (p2 % k), square0 k (p2 / k) (p1 % k))

theorem square0_row_column {y x : Nat} (hx : x < k) : square0 k y x / k = y ∧ square0 k y x % k = x := by
  have hk : 0 < k := by omega
  rw [square0, Nat.mul_comm, Nat.mul_add_div hk, Nat.mul_add_mod, Nat.div_eq_of_lt hx, Nat.mod_eq_of_lt hx]
  exact ⟨rfl, rfl⟩

/-- Exchanging the columns twice gives the two codes back (R85). -/
theorem crossed_crossed (hk : 0 < k) (p1 p2 : Nat) :
    crossed k (crossed k p1 p2).1 (crossed k p1 p2).2 = (p1, p2) := by
  obtain ⟨hrow1, hcol1⟩ := square0_row_column (y := p1 / k) (Nat.mod_lt p2 hk)
  obtain ⟨hrow2, hcol2⟩ := square0_row_column (y := p2 / k) (Nat.mod_lt p1 hk)
  simp only [crossed, hrow1, hcol1, hrow2, hcol2, square0_div_mod]

theorem crossed_inj (hk : 0 < k) {p1 p2 q1 q2 : Nat} (h : crossed k p1 p2 = crossed k q1 q2) :
    p1 = q1 ∧ p2 = q2 := by
  have hback := crossed_crossed hk p1 p2
  rw [h, crossed_crossed hk] at hback
  exact (Prod.mk.inj hback).imp Eq.symm Eq.symm

theorem crossed_lt {p1 p2 : Nat} (h1 : p1 < k * k) (h2 : p2 < k * k) :
    (crossed k p1 p2).1 < k * k ∧ (crossed k p1 p2).2 < k * k := by
  have hk : 0 < k := Nat.pos_of_mul_pos_left (Nat.zero_lt_of_lt h1)
  exact ⟨square0_lt (Nat.div_lt_of_lt_mul h1) (Nat.mod_lt p2 hk),
    square0_lt (Nat.div_lt_of_lt_mul h2) (Nat.mod_lt p1 hk)⟩

/-- The closed form reads the key's codes at the crossed positions (R86). -/
theorem encClosed_eq_crossed (s : State) (p1 p2 : Nat) :
    encClosed s p1 p2 = (keyCode s (crossed s.k p1 p2).1, keyCode s (s.alen + (crossed s.k p1 p2).2)) := rfl

/-- `populate` pairs the codes of the key symbols at the crossed positions (R81). -/
theorem builtPair_eq_crossed (s : State) (p1 p2 : Nat) :
    builtPair s p1 p2 =
      ((packByte (keyAt s (crossed (isqrt s.alen) p1 p2).1) (withCodec s)).code,
        (packByte (keyAt s (s.alen + (crossed (isqrt s.alen) p1 p2).2)) (withCodec s)).code) := by
  rw [crossed, square0, square0, ← Nat.add_assoc]
  rfl

/-- What `populate` pairs with two plaintext codes is the closed form, in every state with the same configuration and
BUILD's CODEC and K (R81, R86). -/
theorem encClosed_eq_builtPair (halen : t.alen = s.alen) (hkey : t.key = s.key)
    (hcodec : t.codec = codecBuild s.alpha s.alen) (hk : t.k = isqrt s.alen) (p1 p2 : Nat) :
    encClosed t p1 p2 = builtPair s p1 p2 := by
  have hcode : ∀ i, keyCode t i = (packByte (keyAt s i) (withCodec s)).code := fun i => by
    rw [keyCode, keyAt, packByte, hcodec, hkey]
    rfl
  rw [encClosed_eq_crossed, builtPair_eq_crossed, hcode, hcode, hk, halen]

namespace ChecksPass

/-! ### Codes and symbols of the key -/

theorem crossed_lt_alen (h : ChecksPass s) {p1 p2 : Nat} (h1 : p1 < s.alen) (h2 : p2 < s.alen) :
    (crossed (isqrt s.alen) p1 p2).1 < s.alen ∧ (crossed (isqrt s.alen) p1 p2).2 < s.alen := by
  have hsq := h.side_mul_side
  have hlt := crossed_lt (hsq.symm ▸ h1) (hsq.symm ▸ h2)
  rwa [hsq] at hlt

/-- Key symbols with one code are one symbol (R38, R79). -/
theorem keyAt_eq_of_code (h : ChecksPass s) {i j : Nat} (hi : i < 2 * s.alen) (hj : j < 2 * s.alen)
    (heq : (packByte (keyAt s i) (withCodec s)).code = (packByte (keyAt s j) (withCodec s)).code) :
    keyAt s i = keyAt s j := by
  have hsymbol : ∀ i < 2 * s.alen, symbolAt s (packByte (keyAt s i) (withCodec s)).code = keyAt s i := by
    intro i hi
    obtain ⟨c, -, hc, hread⟩ :=
      codecBuild_valid s.alpha s.alen _ h.symbolAt_inj (((keyCheck_ok_iff _).1 h.key).2 i hi)
    have hpack : packByte (keyAt s i) (withCodec s) = { valid := true, code := c } := hread
    rw [hpack]
    exact hc
  rw [← hsymbol i hi, heq, hsymbol j hj]

/-- Two bigrams have one pair exactly when KeyA and KeyB hold the same symbols at their crossed positions (R85). -/
theorem builtPair_eq_iff (h : ChecksPass s) {p1 p2 q1 q2 : Nat} (hp1 : p1 < s.alen) (hp2 : p2 < s.alen)
    (hq1 : q1 < s.alen) (hq2 : q2 < s.alen) :
    builtPair s p1 p2 = builtPair s q1 q2 ↔
      keyAt s (crossed (isqrt s.alen) p1 p2).1 = keyAt s (crossed (isqrt s.alen) q1 q2).1 ∧
        keyAt s (s.alen + (crossed (isqrt s.alen) p1 p2).2) = keyAt s (s.alen + (crossed (isqrt s.alen) q1 q2).2) := by
  obtain ⟨hpA, hpB⟩ := h.crossed_lt_alen hp1 hp2
  obtain ⟨hqA, hqB⟩ := h.crossed_lt_alen hq1 hq2
  rw [builtPair_eq_crossed, builtPair_eq_crossed, Prod.mk.injEq]
  constructor
  · rintro ⟨hA, hB⟩
    exact ⟨h.keyAt_eq_of_code (by omega) (by omega) hA, h.keyAt_eq_of_code (by omega) (by omega) hB⟩
  · rintro ⟨hA, hB⟩
    rw [hA, hB]
    exact ⟨rfl, rfl⟩

/-! ### The bijection check -/

/-- Without a collision, no half of the key holds a symbol twice: a repeated symbol would give two bigrams one pair
(R85). -/
theorem halvesPermutations (h : ChecksPass s) {dec : Memory TableEntry}
    (hdec : invert (builtEnc s) (clog2 s.alen) Memory.blank = (dec, none)) : HalvesPermutations s := by
  have hk := h.side_pos
  have hinj : ∀ {a b c d}, a < s.alen → b < s.alen → c < s.alen → d < s.alen → keyAt s a = keyAt s c →
      keyAt s (s.alen + b) = keyAt s (s.alen + d) → a = c ∧ b = d := by
    intro a b c d ha hb hc hd hA hB
    obtain ⟨hp1, hp2⟩ := h.crossed_lt_alen ha hb
    obtain ⟨hq1, hq2⟩ := h.crossed_lt_alen hc hd
    have hpair := (h.builtPair_eq_iff hp1 hp2 hq1 hq2).2
      (by rw [crossed_crossed hk, crossed_crossed hk]; exact ⟨hA, hB⟩)
    obtain ⟨h1, h2⟩ := h.builtPair_inj hdec hp1 hp2 hq1 hq2 hpair
    exact crossed_inj hk (Prod.ext h1 h2)
  have h0 := h.alen_pos
  exact ⟨fun i hi j hj heq => (hinj hi h0 hj h0 heq rfl).1, fun i hi j hj heq => (hinj h0 hi h0 hj rfl heq).2⟩

/-- With halves that hold no symbol twice, different bigrams have different pairs (R85). -/
theorem builtPair_inj_of_halves (h : ChecksPass s) (hhalves : HalvesPermutations s) {p1 p2 q1 q2 : Nat}
    (hp1 : p1 < s.alen) (hp2 : p2 < s.alen) (hq1 : q1 < s.alen) (hq2 : q2 < s.alen)
    (heq : builtPair s p1 p2 = builtPair s q1 q2) : p1 = q1 ∧ p2 = q2 := by
  obtain ⟨hinjA, hinjB⟩ := hhalves
  obtain ⟨hA, hB⟩ := (h.builtPair_eq_iff hp1 hp2 hq1 hq2).1 heq
  obtain ⟨hpA, hpB⟩ := h.crossed_lt_alen hp1 hp2
  obtain ⟨hqA, hqB⟩ := h.crossed_lt_alen hq1 hq2
  exact crossed_inj h.side_pos (Prod.ext (hinjA _ hpA _ hqA hA) (hinjB _ hpB _ hqB hB))

/-- The inversion finds no collision exactly when each half of the key is a permutation of the alphabet (R85). -/
theorem invert_eq_none_iff (h : ChecksPass s) :
    (invert (builtEnc s) (clog2 s.alen) Memory.blank).2 = none ↔ HalvesPermutations s := by
  refine ⟨fun hnone => h.halvesPermutations (Prod.ext rfl hnone), fun hhalves => ?_⟩
  refine invertOver_succeeds (size := tdepthOf s.params) List.nodup_range (wf_blank _ _)
    (fun _ _ => h.builtEnc_value_lt) (fun _ _ _ => rfl) fun i _ j _ hi hj heq => ?_
  obtain ⟨p1, p2, hp1, hp2, rfl⟩ := h.builtEnc_valid hi
  obtain ⟨q1, q2, hq1, hq2, rfl⟩ := h.builtEnc_valid hj
  rw [h.builtEnc_read hp1 hp2, h.builtEnc_read hq1 hq2] at heq
  have hpair := (pack2_inj (lt_two_pow_of_lt_alen (h.builtPair_lt hp1 hp2).2)
    (lt_two_pow_of_lt_alen (h.builtPair_lt hq1 hq2).2)).1 heq
  obtain ⟨rfl, rfl⟩ := h.builtPair_inj_of_halves hhalves hp1 hp2 hq1 hq2 (Prod.ext hpair.1 hpair.2)
  rfl

/-! ### The entries at invalid indices -/

/-- The built ENC holds the sentinel at every index that is no bigram's (R41, R84). -/
theorem builtEnc_read_other (h : ChecksPass s) {v : Nat}
    (hv : ¬((unpack2 (clog2 s.alen) v).1 < s.alen ∧ (unpack2 (clog2 s.alen) v).2 < s.alen)) :
    Memory.read sentinel (builtEnc s) v = sentinel :=
  populate_read_other _ h.side_mul_side_le h.index_space_le (wf_blank _ _) (h.side_mul_side.symm ▸ hv)

/-- DEC holds the sentinel at every index that is no bigram's: every value of ENC is a bigram's index (R84). -/
theorem dec_read_other (h : ChecksPass s) {dec : Memory TableEntry}
    (hdec : invert (builtEnc s) (clog2 s.alen) Memory.blank = (dec, none)) {v : Nat}
    (hv : ¬((unpack2 (clog2 s.alen) v).1 < s.alen ∧ (unpack2 (clog2 s.alen) v).2 < s.alen)) :
    Memory.read sentinel dec v = sentinel := by
  obtain ⟨-, -, -, hother⟩ := invertOver_none (size := tdepthOf s.params) List.nodup_range (wf_blank _ _)
    (fun _ _ => h.builtEnc_value_lt) hdec
  refine hother v fun i _ hi heq => hv ?_
  obtain ⟨p1, p2, h1, h2, rfl⟩ := h.builtEnc_valid hi
  have hlt := h.builtPair_lt h1 h2
  rw [h.builtEnc_read h1 h2] at heq
  subst heq
  rwa [unpack2_pack2 (lt_two_pow_of_lt_alen hlt.2)]

end ChecksPass

/-! ### The index at which the inversion stops -/

/-- A collision ends the inversion, whatever indices follow (R82). -/
theorem invertOver_append_of_some {enc : Memory TableEntry} {is : List Nat} {dec dec' : Memory TableEntry} {a : Nat}
    (h : invertOver enc is dec = (dec', some a)) (js : List Nat) :
    invertOver enc (is ++ js) dec = (dec', some a) := by
  induction is generalizing dec with
  | nil => cases h
  | cons i is ih =>
    rw [List.cons_append, invertOver]
    rw [invertOver] at h
    split at h
    · rename_i hv
      rw [if_pos hv]
      split at h
      · rename_i htaken
        rw [if_pos htaken, h]
      · rename_i hfree
        rw [if_neg hfree, ih h]
    · rename_i hv
      rw [if_neg hv, ih h]

theorem eq_range_of_range_eq_append {n a : Nat} {before after : List Nat} (h : List.range n = before ++ a :: after) :
    before = List.range a := by
  rw [List.range_eq_range', List.range'_eq_append_iff] at h
  obtain ⟨m, -, hbefore, hafter⟩ := h
  obtain ⟨ha, -⟩ := List.range'_eq_cons_iff.1 hafter.symm
  obtain rfl : m = a := by omega
  rw [hbefore, List.range_eq_range']

/-- The inversion stops at the smallest index whose value an earlier index already produced (R82). -/
theorem invertOver_range_some {enc : Memory TableEntry} {size n a : Nat} {dec : Memory TableEntry}
    (hval : ∀ i, (Memory.read sentinel enc i).valid = true → (Memory.read sentinel enc i).value < size)
    (h : invertOver enc (List.range n) Memory.blank = (dec, some a)) :
    collidesAt enc a ∧ ∀ j < a, ¬collidesAt enc j := by
  have hwf := wf_blank sentinel size
  obtain ⟨before, after, hrange, hav, hcase⟩ := invertOver_some hwf (fun i _ => hval i) h
  obtain rfl := eq_range_of_range_eq_append hrange
  constructor
  · obtain hblank | ⟨i, hi, hiv, heq⟩ := hcase
    · cases hblank
    · exact ⟨hav, i, List.mem_range.1 hi, hiv, heq⟩
  · rcases hbefore : invertOver enc (List.range a) Memory.blank with ⟨dec₀, _ | b⟩
    · obtain ⟨-, -, hinj, -⟩ := invertOver_none List.nodup_range hwf (fun i _ => hval i) hbefore
      rintro j hj ⟨hjv, i, hij, hiv, heq⟩
      exact hij.ne (hinj i (List.mem_range.2 (hij.trans hj)) j (List.mem_range.2 hj) hiv hjv heq)
    · obtain ⟨_, _, hsplit, -⟩ := invertOver_some hwf (fun i _ => hval i) hbefore
      rw [hrange, invertOver_append_of_some hbefore] at h
      cases h
      have hmem : a ∈ List.range a := hsplit ▸ by simp
      exact absurd hmem List.not_mem_range_self

end Sys2Proof.Machine
end

section
/-! Proofs: ENC and DEC while there are tables: the closed form of the four-square rule and its inverse
(41_table_builder R84, R86). -/

namespace Sys2Proof.Machine

variable {s : State}

/-- The valid indices are those of the bigrams of codes below N (R41). -/
theorem validIndex_iff (hb : s.b = clog2 s.alen) (v : Nat) :
    validIndex s v ↔ ∃ p1 < s.alen, ∃ p2 < s.alen, v = pack2 s.b p1 p2 := by
  constructor
  · rintro ⟨h1, h2⟩
    exact ⟨_, h1, _, h2, (pack2_unpack2 _ _).symm⟩
  · rintro ⟨p1, h1, p2, h2, rfl⟩
    rw [validIndex, hb, unpack2_pack2 (ChecksPass.lt_two_pow_of_lt_alen h2)]
    exact ⟨h1, h2⟩

/-! ### What a successful BUILD makes of the tables -/

section Built

theorem b_of_built (h : build s = .done s) : s.b = clog2 s.alen := by
  obtain ⟨-, -, -, -, -, hb, -⟩ := (build_eq_done_self_iff s).1 h
  exact hb

/-- N is K squared (R18 item 5). -/
theorem alen_of_built (h : build s = .done s) : s.k * s.k = s.alen := by
  obtain ⟨hchecks, -, -, -, hk, -⟩ := (build_eq_done_self_iff s).1 h
  rw [hk, hchecks.side_mul_side]

theorem encClosed_of_built (h : build s = .done s) (p1 p2 : Nat) : encClosed s p1 p2 = builtPair s p1 p2 := by
  obtain ⟨-, hcodec, -, -, hk, -⟩ := (build_eq_done_self_iff s).1 h
  exact encClosed_eq_builtPair rfl rfl hcodec hk p1 p2

theorem halvesPermutations_of_built (h : build s = .done s) : HalvesPermutations s := by
  obtain ⟨hchecks, -, -, hdec, -⟩ := (build_eq_done_self_iff s).1 h
  exact hchecks.halvesPermutations hdec

/-- Key symbols with one code are one symbol (R38). -/
theorem keyAt_eq_of_keyCode (h : build s = .done s) {i j : Nat} (hi : i < 2 * s.alen) (hj : j < 2 * s.alen)
    (heq : keyCode s i = keyCode s j) : keyAt s i = keyAt s j := by
  obtain ⟨hchecks, hcodec, -⟩ := (build_eq_done_self_iff s).1 h
  rw [keyCode, keyCode, packByte, packByte, hcodec] at heq
  exact hchecks.keyAt_eq_of_code hi hj heq

/-- KA and KB hold no code twice (R85). -/
theorem keyCode_inj (h : build s = .done s) {i j : Nat} (hi : i < s.alen) (hj : j < s.alen) :
    (keyCode s i = keyCode s j → i = j) ∧ (keyCode s (s.alen + i) = keyCode s (s.alen + j) → i = j) := by
  obtain ⟨hinjA, hinjB⟩ := halvesPermutations_of_built h
  exact ⟨fun heq => hinjA i hi j hj (keyAt_eq_of_keyCode h (by omega) (by omega) heq),
    fun heq => hinjB i hi j hj (keyAt_eq_of_keyCode h (by omega) (by omega) heq)⟩

variable {p1 p2 q1 q2 : Nat}

theorem encClosed_lt (h : build s = .done s) (h1 : p1 < s.alen) (h2 : p2 < s.alen) :
    (encClosed s p1 p2).1 < s.alen ∧ (encClosed s p1 p2).2 < s.alen := by
  obtain ⟨hchecks, -⟩ := (build_eq_done_self_iff s).1 h
  rw [encClosed_of_built h]
  exact hchecks.builtPair_lt h1 h2

theorem encClosed_inj (h : build s = .done s) (hp1 : p1 < s.alen) (hp2 : p2 < s.alen) (hq1 : q1 < s.alen)
    (hq2 : q2 < s.alen) (heq : encClosed s p1 p2 = encClosed s q1 q2) : p1 = q1 ∧ p2 = q2 := by
  obtain ⟨hchecks, -, -, hdec, -⟩ := (build_eq_done_self_iff s).1 h
  rw [encClosed_of_built h, encClosed_of_built h] at heq
  exact hchecks.builtPair_inj hdec hp1 hp2 hq1 hq2 heq

theorem encClosed_surj (h : build s = .done s) {c1 c2 : Nat} (h1 : c1 < s.alen) (h2 : c2 < s.alen) :
    ∃ p1 < s.alen, ∃ p2 < s.alen, encClosed s p1 p2 = (c1, c2) := by
  obtain ⟨hchecks, -, -, hdec, -⟩ := (build_eq_done_self_iff s).1 h
  obtain ⟨p1, p2, hp1, hp2, hpair⟩ := hchecks.builtPair_surj hdec h1 h2
  exact ⟨p1, hp1, p2, hp2, (encClosed_of_built h p1 p2).trans hpair⟩

/-- A code below N fits the packed-code width B. -/
theorem lt_two_pow_b (h : build s = .done s) {c : Nat} (hc : c < s.alen) : c < 2 ^ s.b :=
  b_of_built h ▸ ChecksPass.lt_two_pow_of_lt_alen hc

/-- ENC at two codes is their closed form (R86). -/
theorem enc_read_of_built (h : build s = .done s) (h1 : p1 < s.alen) (h2 : p2 < s.alen) :
    Memory.read sentinel s.enc (pack2 s.b p1 p2) =
      { valid := true, value := pack2 s.b (encClosed s p1 p2).1 (encClosed s p1 p2).2 } := by
  obtain ⟨hchecks, -, henc, -⟩ := (build_eq_done_self_iff s).1 h
  rw [encClosed_of_built h, b_of_built h, henc]
  exact hchecks.builtEnc_read h1 h2

/-- DEC at the closed form of two codes is the two codes (R84, R86). -/
theorem dec_read_of_built (h : build s = .done s) (h1 : p1 < s.alen) (h2 : p2 < s.alen) :
    Memory.read sentinel s.dec (pack2 s.b (encClosed s p1 p2).1 (encClosed s p1 p2).2) =
      { valid := true, value := pack2 s.b p1 p2 } := by
  obtain ⟨hchecks, -, -, hdec, -⟩ := (build_eq_done_self_iff s).1 h
  rw [encClosed_of_built h, b_of_built h]
  exact hchecks.dec_read_builtPair hdec h1 h2

/-- Both tables hold the sentinel outside the valid indices (R84). -/
theorem read_of_not_validIndex (h : build s = .done s) {v : Nat} (hv : ¬validIndex s v) :
    Memory.read sentinel s.enc v = sentinel ∧ Memory.read sentinel s.dec v = sentinel := by
  obtain ⟨hchecks, -, henc, hdec, -⟩ := (build_eq_done_self_iff s).1 h
  rw [validIndex, b_of_built h] at hv
  rw [henc]
  exact ⟨hchecks.builtEnc_read_other hv, hchecks.dec_read_other hdec hv⟩

end Built

/-! ### The statements on the tables while TV = 1 -/

/-- Settles O28: on the bigrams' indices ENC is the closed form, which is one to one and onto, and DEC reads it back. -/
theorem tablesAreInverseBijections : Obligations.TablesAreInverseBijections := by
  unfold Obligations.TablesAreInverseBijections
  intro s hinv htv
  have h := (cycleInv_of_inv hinv).config.built htv
  have hvalid := validIndex_iff (b_of_built h)
  refine ⟨fun v hv => ?_, fun v hv => ?_, fun u hu => ?_, fun v hv => ?_, fun u hu => ?_, fun u hu => ?_⟩
  · obtain ⟨p1, h1, p2, h2, rfl⟩ := (hvalid v).1 hv
    obtain ⟨ho1, ho2⟩ := encClosed_lt h h1 h2
    rw [enc_read_of_built h h1 h2]
    exact ⟨rfl, (hvalid _).2 ⟨_, ho1, _, ho2, rfl⟩⟩
  · rw [(read_of_not_validIndex h hv).1]
    rfl
  · obtain ⟨c1, hc1, c2, hc2, rfl⟩ := (hvalid u).1 hu
    obtain ⟨p1, h1, p2, h2, hpair⟩ := encClosed_surj h hc1 hc2
    refine ⟨pack2 s.b p1 p2, ⟨(hvalid _).2 ⟨p1, h1, p2, h2, rfl⟩, ?_⟩, fun w hw heq => ?_⟩
    · rw [enc_read_of_built h h1 h2, hpair]
    · obtain ⟨q1, hq1, q2, hq2, rfl⟩ := (hvalid w).1 hw
      rw [enc_read_of_built h hq1 hq2] at heq
      obtain ⟨ho1, ho2⟩ := (pack2_inj (lt_two_pow_b h (encClosed_lt h hq1 hq2).2) (lt_two_pow_b h hc2)).1 heq
      obtain ⟨rfl, rfl⟩ := encClosed_inj h hq1 hq2 h1 h2 (hpair ▸ Prod.ext ho1 ho2)
      rfl
  · obtain ⟨p1, h1, p2, h2, rfl⟩ := (hvalid v).1 hv
    rw [enc_read_of_built h h1 h2, dec_read_of_built h h1 h2]
  · obtain ⟨c1, hc1, c2, hc2, rfl⟩ := (hvalid u).1 hu
    obtain ⟨p1, h1, p2, h2, hpair⟩ := encClosed_surj h hc1 hc2
    have hdec := dec_read_of_built h h1 h2
    rw [hpair] at hdec
    rw [hdec, enc_read_of_built h h1 h2, hpair]
    exact ⟨rfl, rfl⟩
  · rw [(read_of_not_validIndex h hu).2]
    rfl

/-- Settles O30: the two codes that DEC answers are a preimage of the closed form, whose rows and columns are the places
of the given codes in KeyA and KeyB, and KeyA and KeyB hold no code twice. -/
theorem tablesHoldTheClosedForm : Obligations.TablesHoldTheClosedForm := by
  unfold Obligations.TablesHoldTheClosedForm
  intro s hinv htv
  have h := (cycleInv_of_inv hinv).config.built htv
  have hsq := alen_of_built h
  refine ⟨fun p1 h1 p2 h2 => ?_, fun t1 ht1 t2 ht2 => ?_⟩
  · rw [enc_read_of_built h h1 h2, unpack2_pack2 (lt_two_pow_b h (encClosed_lt h h1 h2).2)]
  · obtain ⟨p1, h1, p2, h2, hpair⟩ := encClosed_surj h ht1 ht2
    have hdec := dec_read_of_built h h1 h2
    obtain ⟨hA, hB⟩ := Prod.mk.inj hpair
    have hk : 0 < s.k := Nat.pos_of_mul_pos_left (hsq.symm ▸ Nat.zero_lt_of_lt h1)
    have hr1 : p1 / s.k < s.k := Nat.div_lt_of_lt_mul (hsq.symm ▸ h1)
    have hr2 : p2 / s.k < s.k := Nat.div_lt_of_lt_mul (hsq.symm ▸ h2)
    have hq1 := Nat.mod_lt p1 hk
    have hq2 := Nat.mod_lt p2 hk
    have hcell : ∀ {y x}, y < s.k → x < s.k → y * s.k + x < s.alen := fun hy hx => hsq ▸ square0_lt hy hx
    refine ⟨p1 / s.k, hr1, p1 % s.k, hq1, p2 / s.k, hr2, p2 % s.k, hq2, ?_, hA, hB, fun y hy x hx => ⟨?_, ?_⟩⟩
    · rw [hpair] at hdec
      rw [hdec, unpack2_pack2 (lt_two_pow_b h h2), Nat.div_add_mod', Nat.div_add_mod']
    · exact fun heq => square0_inj hx hq2 ((keyCode_inj h (hcell hy hx) (hcell hr1 hq2)).1 (heq.trans hA.symm))
    · exact fun heq => square0_inj hx hq1 ((keyCode_inj h (hcell hy hx) (hcell hr2 hq1)).2 (heq.trans hB.symm))

end Sys2Proof.Machine
end

section
/-! Proofs: BUILD of a configuration that passes its checks: the tables of a legal key, and the collision of a key with
a half that is no permutation (41_table_builder R76, R82, R83, R85). -/

namespace Sys2Proof.Machine

variable {s : State} {k : Nat}

theorem checksPass_of_legal (h : LegalAlphabet s k) (hpad : PadInAlphabet s) (hkey : KeyFromAlphabet s) :
    ChecksPass s :=
  ⟨alphaCheck_of_legal (s := invalidate s) h, padCheck_of_member h hpad, keyCheck_of_members h hkey⟩

/-- The built ENC at the index of a plaintext bigram, in numbers (R40, R81). -/
theorem ChecksPass.builtEnc_read_add (h : ChecksPass s) {p1 p2 o1 o2 : Nat} (h1 : p1 < s.alen) (h2 : p2 < s.alen)
    (hpair : builtPair s p1 p2 = (o1, o2)) :
    o1 < s.alen ∧ o2 < s.alen ∧
      Memory.read sentinel (builtEnc s) (p1 * 2 ^ clog2 s.alen + p2) =
        { valid := true, value := o1 * 2 ^ clog2 s.alen + o2 } := by
  have hlt := h.builtPair_lt h1 h2
  have henc := h.builtEnc_read h1 h2
  rw [hpair] at hlt henc
  obtain ⟨ho1, ho2⟩ := hlt
  rw [pack2_eq_add (lt_two_pow_of_lt_alen h2), pack2_eq_add (lt_two_pow_of_lt_alen ho2)] at henc
  exact ⟨ho1, ho2, henc⟩

/-- After its checks, BUILD of a key of two permutations leaves its tables (R83, R85). -/
theorem build_of_permutations (hchecks : ChecksPass s) (hhalves : HalvesPermutations s) :
    ∃ dec, build s = .done (builtState s dec) :=
  ⟨_, (build_done_iff s _).2
    ⟨hchecks.alpha, hchecks.pad, hchecks.key, _, Prod.ext rfl (hchecks.invert_eq_none_iff.2 hhalves), rfl⟩⟩

/-- After its checks, BUILD of any other key stops at the first index whose value an earlier one produced (R82, R85). -/
theorem build_of_not_permutations (hchecks : ChecksPass s) (hhalves : ¬HalvesPermutations s) :
    ∃ dec a,
      build s = .raised ⟨.invalidKey, 4, a⟩
        (invalidate { s with codec := codecBuild s.alpha s.alen, enc := builtEnc s, dec := dec }) ∧
      collidesAt (builtEnc s) a ∧ ∀ j < a, ¬collidesAt (builtEnc s) j := by
  rcases hinvert : invert (builtEnc s) (clog2 s.alen) Memory.blank with ⟨dec, _ | a⟩
  · exact absurd (hchecks.halvesPermutations hinvert) hhalves
  · refine ⟨dec, a, ?_, invertOver_range_some (fun _ => hchecks.builtEnc_value_lt) hinvert⟩
    rw [build_eq, hchecks.alpha, hchecks.pad, hchecks.key, ← buildTables_of_collision hinvert]

/-- The tables that a BUILD leaves, at a bigram's indices in numbers (R40, R86). -/
theorem tables_read_add (h : build s = .done s) {p1 p2 o1 o2 : Nat} (h1 : p1 < s.alen) (h2 : p2 < s.alen)
    (hpair : encClosed s p1 p2 = (o1, o2)) :
    o1 < s.alen ∧ o2 < s.alen ∧
      Memory.read sentinel s.enc (p1 * 2 ^ s.b + p2) = { valid := true, value := o1 * 2 ^ s.b + o2 } ∧
      Memory.read sentinel s.dec (o1 * 2 ^ s.b + o2) = { valid := true, value := p1 * 2 ^ s.b + p2 } := by
  have hlt := encClosed_lt h h1 h2
  have henc := enc_read_of_built h h1 h2
  have hdec := dec_read_of_built h h1 h2
  rw [hpair] at hlt henc hdec
  obtain ⟨ho1, ho2⟩ := hlt
  rw [← pack2_eq_add (lt_two_pow_b h h2), ← pack2_eq_add (lt_two_pow_b h ho2)]
  exact ⟨ho1, ho2, henc, hdec⟩

/-- A cycle's end leaves the configuration and the tables as BUILD left them. -/
theorem build_retire (h : build s = .done s) : build (retire s) = .done (retire s) :=
  (build_configPart_iff (retire s)).1 ((build_configPart_iff s).2 h)

/-- Settles O23: the state that BUILD leaves is built, so that its tables hold the closed form. -/
theorem buildOfLegalConfigurationSucceeds : Obligations.BuildOfLegalConfigurationSucceeds := by
  unfold Obligations.BuildOfLegalConfigurationSucceeds
  intro s k hst halpha hpad hkey hhalves
  have hchecks : ChecksPass (beginCycle s) := checksPass_of_legal (k := k) halpha hpad hkey
  obtain ⟨dec, hbuild⟩ := build_of_permutations hchecks hhalves
  obtain ⟨t, ht⟩ : ∃ t, t = retire (builtState (beginCycle s) dec) := ⟨_, rfl⟩
  have hbuilt : build t = .done t := ht ▸ build_retire (build_idempotent hbuild)
  have halen : t.alen = s.alen := by rw [ht]; rfl
  obtain ⟨-, hsq, -, -, hinj⟩ := halpha
  have hside : isqrt s.alen = k := by rw [hsq, isqrt_mul_self]
  have hallowed := loading_allowed (i := .build) (by simp [Instr.opcode]) hst
  obtain ⟨hsymbol, hother⟩ : CodecHoldsAlphabet s t := codecHoldsAlphabet_of_codec hinj (by rw [ht]; rfl)
  refine ⟨t, ht ▸ exec_of_done (by simp [hst]) hallowed hbuild, ?_, hsymbol, hother, ?_,
    fun v hv => read_of_not_validIndex hbuilt hv⟩
  · subst ht hside
    rfl
  · rw [← halen]
    exact fun p1 h1 p2 h2 o1 o2 => tables_read_add hbuilt h1 h2

/-- Settles O26: BUILD stops in `invert`, with CODEC and ENC as `codec_build` and `populate` left them. -/
theorem buildRefusesNonPermutationKey : Obligations.BuildRefusesNonPermutationKey := by
  unfold Obligations.BuildRefusesNonPermutationKey
  intro s k hst halpha hpad hkey hhalves
  have hchecks : ChecksPass (beginCycle s) := checksPass_of_legal (k := k) halpha hpad hkey
  obtain ⟨dec, a, hbuild, hcollides, hfirst⟩ := build_of_not_permutations hchecks hhalves
  obtain ⟨-, hsq, -, -, hinj⟩ := halpha
  have hside : k = isqrt s.alen := by rw [hsq, isqrt_mul_self]
  refine ⟨_, _, a, exec_build_of_raised hst hbuild, rfl, rfl, ?_, ?_, ?_, hcollides, hfirst⟩
  · exact (codecHoldsAlphabet_of_codec hinj rfl).1
  · intro p1 h1 p2 h2 o1 o2 hpair
    have hbuilt : builtPair (beginCycle s) p1 p2 = (o1, o2) := by
      rw [← hpair]
      exact Eq.symm (encClosed_eq_builtPair rfl rfl rfl hside p1 p2)
    exact hchecks.builtEnc_read_add h1 h2 hbuilt
  · exact fun v hv => hchecks.builtEnc_read_other hv

end Sys2Proof.Machine
end

section
/-! Proofs: the bigram engine with tables is the closed form of the four-square rule and its inverse, and its two
queries answer it (42_bigram_engine R88 to R91, 41_table_builder R86). -/

namespace Sys2Proof.Machine

variable {s : State} {m : Mode} {c1 c2 o1 o2 : Nat}

/-! ### The lookup as the closed form -/

/-- With tables, each direction takes every bigram of codes to some bigram of codes (R85, R86). -/
theorem exists_transforms (h : build s = .done s) (m : Mode) (h1 : c1 < s.alen) (h2 : c2 < s.alen) :
    ∃ o1 o2, transforms s m c1 c2 o1 o2 := by
  cases m with
  | enc =>
    obtain ⟨ho1, ho2⟩ := encClosed_lt h h1 h2
    exact ⟨_, _, ho1, ho2, rfl⟩
  | dec =>
    obtain ⟨p1, hp1, p2, hp2, hpair⟩ := encClosed_surj h h1 h2
    exact ⟨p1, p2, hp1, hp2, hpair⟩

/-- What one direction makes of a bigram of codes, the other takes back. -/
theorem transforms_opposite (ht : transforms s m c1 c2 o1 o2) (h1 : c1 < s.alen) (h2 : c2 < s.alen) :
    transforms s (opposite m) o1 o2 c1 c2 := by
  obtain ⟨-, -, hpair⟩ := ht
  cases m with
  | enc => exact ⟨h1, h2, hpair⟩
  | dec => exact ⟨h1, h2, hpair⟩

/-- With tables, `lookup` answers the closed form in its direction (R86, R88). -/
theorem lookup_of_transforms (h : build s = .done s) (h1 : c1 < s.alen) (h2 : c2 < s.alen)
    (ht : transforms s m c1 c2 o1 o2) : lookup m c1 c2 s = .ok (o1, o2) := by
  obtain ⟨ho1, ho2, hpair⟩ := ht
  cases m with
  | enc =>
    have hlookup := lookup_enc_of_built h h1 h2
    rwa [← encClosed_of_built h, hpair] at hlookup
  | dec =>
    have hlookup := lookup_dec_of_built h ho1 ho2
    rwa [← encClosed_of_built h, hpair] at hlookup

/-- Settles O29: both lookups answer the closed form, whose two directions undo each other. -/
theorem lookupsUndoEachOther : Obligations.LookupsUndoEachOther := by
  unfold Obligations.LookupsUndoEachOther
  intro s m c1 c2 hinv htv h1 h2
  have h := (cycleInv_of_inv hinv).config.built htv
  obtain ⟨o1, o2, ht⟩ := exists_transforms h m h1 h2
  have ⟨ho1, ho2, _⟩ := ht
  exact ⟨o1, o2, lookup_of_transforms h h1 h2 ht, lookup_of_transforms h ho1 ho2 (transforms_opposite ht h1 h2)⟩

/-! ### The rule of the queries -/

/-- A query of two codes below N writes the lookup's answer to RESULT (R90, R91, R30). -/
theorem bigramQuery_of_lookup (h1 : c1 < s.alen) (h2 : c2 < s.alen) (hlookup : lookup m c1 c2 s = .ok (o1, o2))
    (ho1 : o1 < 256) (ho2 : o2 < 256) :
    bigramQuery m c1 c2 s = .ok { s with result := BitVec.ofNat 32 (0x10000 + o1 * 0x100 + o2) } := by
  refine (bigramQuery_ok_iff m c1 c2 s _).2 ⟨h1, h2, (o1, o2), hlookup, ?_⟩
  rw [resultWord_eq, toNat_codeByte ho1, toNat_codeByte ho2]

/-- C1 of N or more raises BAD_CODE subcode 1, whatever C2 is (R90, R91, R115). -/
theorem bigramQuery_of_first_le (h1 : s.alen ≤ c1) : bigramQuery m c1 c2 s = raise .badCode 1 c1 := by
  rw [bigramQuery, checkCode_of_le h1]
  rfl

/-- C2 of N or more raises BAD_CODE subcode 2 when C1 is below N (R90, R91, R115). -/
theorem bigramQuery_of_second_le (h1 : c1 < s.alen) (h2 : s.alen ≤ c2) :
    bigramQuery m c1 c2 s = raise .badCode 2 c2 := by
  rw [bigramQuery, (checkCode_ok_iff 1 c1 s).2 h1, checkCode_of_le h2]
  rfl

/-! ### The cycle of the queries -/

/-- The query of a direction: ENCB and DECB differ in the table they read only (R90, R91). -/
def bigramCommand (m : Mode) (c1 c2 : Nat) : Instr :=
  match m with
  | .enc => .encb c1 c2
  | .dec => .decb c1 c2

theorem rule_bigramCommand (m : Mode) (c1 c2 : Nat) (s : State) :
    rule (bigramCommand m c1 c2) s = precise s (bigramQuery m c1 c2 s) := by cases m <;> rfl

theorem bigramCommand_opcode_mem (m : Mode) (c1 c2 : Nat) :
    (bigramCommand m c1 c2).opcode ∈ [.pack, .unpack, .encb, .decb] := by
  cases m <;> simp [bigramCommand, Instr.opcode]

/-- With tables, a query of two codes below N writes the closed form in its direction to RESULT, and nothing else. -/
theorem exec_bigramCommand_of_transforms (hinv : Inv s) (hst : s.procState ≠ .error) (htv : s.tv = true)
    (h1 : c1 < s.alen) (h2 : c2 < s.alen) (ht : transforms s m c1 c2 o1 o2) :
    exec (bigramCommand m c1 c2) s =
      .next { counted s with result := BitVec.ofNat 32 (0x10000 + o1 * 0x100 + o2) } := by
  have hlookup := lookup_of_transforms ((cycleInv_of_inv hinv).config.built htv) h1 h2 ht
  have hle := alen_le_of_inv hinv
  obtain ⟨ho1, ho2, -⟩ := ht
  have hrule := bigramQuery_of_lookup (s := beginCycle s) h1 h2 hlookup (by omega) (by omega)
  rw [exec_of_done hst (query_allowed (bigramCommand_opcode_mem m c1 c2) hst htv)
    ((rule_bigramCommand m c1 c2 _).trans ((precise_done_iff _ _ _).2 hrule))]
  rfl

/-- With tables, a query whose rule raises BAD_CODE changes nothing else (R121). -/
theorem exec_bigramCommand_of_badCode (hst : s.procState ≠ .error) (htv : s.tv = true) {sub arg : Nat}
    (hrule : bigramQuery m c1 c2 (beginCycle s) = raise .badCode sub arg) :
    exec (bigramCommand m c1 c2) s = .next (erred s 6 sub arg (encode (bigramCommand m c1 c2))) :=
  exec_of_raised hst (query_allowed (bigramCommand_opcode_mem m c1 c2) hst htv)
    ((rule_bigramCommand m c1 c2 _).trans ((precise_raised_iff _ _ _ _).2 ⟨hrule, rfl⟩))

/-- What ENCB and DECB raise: BAD_CODE for C1, else for C2, with tables, and BAD_STATE without (R90, R91, R105). -/
theorem exec_bigramCommand_errors (s : State) (m : Mode) (c1 c2 : Nat) :
    (s.procState ≠ .error → s.tv = true → s.alen ≤ c1 →
      exec (bigramCommand m c1 c2) s = .next (erred s 6 1 c1 (encode (bigramCommand m c1 c2)))) ∧
    (s.procState ≠ .error → s.tv = true → c1 < s.alen → s.alen ≤ c2 →
      exec (bigramCommand m c1 c2) s = .next (erred s 6 2 c2 (encode (bigramCommand m c1 c2)))) ∧
    (s.procState = .idle → s.tv = false →
      exec (bigramCommand m c1 c2) s = .next (erred s 2 0 0 (encode (bigramCommand m c1 c2)))) :=
  ⟨fun hst htv h1 => exec_bigramCommand_of_badCode hst htv (bigramQuery_of_first_le h1),
    fun hst htv h1 h2 => exec_bigramCommand_of_badCode hst htv (bigramQuery_of_second_le h1 h2),
    exec_query_without_tables (bigramCommand_opcode_mem m c1 c2)⟩

/-- Settles O33: ENCB is the query of the direction in which the closed form is read forwards. -/
theorem encbComputesTheFourSquareRule : Obligations.EncbComputesTheFourSquareRule := by
  unfold Obligations.EncbComputesTheFourSquareRule
  intro s c1 c2 hinv
  refine ⟨fun hst htv h1 h2 => ?_, exec_bigramCommand_errors s .enc c1 c2⟩
  obtain ⟨ho1, ho2⟩ := encClosed_lt ((cycleInv_of_inv hinv).config.built htv) h1 h2
  exact exec_bigramCommand_of_transforms (m := .enc) hinv hst htv h1 h2 ⟨ho1, ho2, rfl⟩

/-- Settles O34: DECB is the query of the other direction, and the closed form is onto and one to one. -/
theorem decbInvertsTheFourSquareRule : Obligations.DecbInvertsTheFourSquareRule := by
  unfold Obligations.DecbInvertsTheFourSquareRule
  intro s c1 c2 hinv
  refine ⟨fun hst htv h1 h2 => ?_, exec_bigramCommand_errors s .dec c1 c2⟩
  have h := (cycleInv_of_inv hinv).config.built htv
  obtain ⟨p1, hp1, p2, hp2, hpair⟩ := encClosed_surj h h1 h2
  exact ⟨p1, hp1, p2, hp2, hpair,
    fun q1 hq1 q2 hq2 heq => encClosed_inj h hq1 hq2 hp1 hp2 (heq.trans hpair.symm),
    exec_bigramCommand_of_transforms (m := .dec) hinv hst htv h1 h2 ⟨hp1, hp2, hpair⟩⟩

end Sys2Proof.Machine
end

section
/-! Proofs: the four stream commands: what START, DATA, END and ABORT leave in each state that lets them run, and what
they raise (43_stream_processor R92 to R99). -/

namespace Sys2Proof.Machine

variable {s t : State} {v : Byte} {c1 c2 o1 o2 : Nat}

/-! ### Data tokens and the state check -/

/-- A data token is its byte with bit [8] = 0 (R62). -/
theorem dataToken_eq_setWidth (v : Byte) : dataToken v = v.setWidth 9 := by
  have hv : v.toNat < 2 ^ 9 := by have := v.isLt; omega
  refine BitVec.eq_of_toNat_eq ?_
  rw [dataToken, BitVec.toNat_append, BitVec.toNat_setWidth, Nat.mod_eq_of_lt hv]
  simp

theorem map_dataToken (vs : List Byte) : vs.map dataToken = vs.map (·.setWidth 9) :=
  List.map_congr_left fun v _ => dataToken_eq_setWidth v

/-- In STREAM, DATA and END run (R105). -/
theorem stream_allowed {i : Instr} (hi : i.opcode ∈ [.data, .endStream]) (hst : s.procState = .stream) :
    allowed i.opcode s.procState s.tv = true := by
  have hrow : ∀ tv, ∀ o ∈ [Opcode.data, .endStream], allowed o .stream tv = true := by decide
  rw [hst]
  exact hrow _ _ hi

/-- In STREAM there are tables (R18 items 1 and 5). -/
theorem built_of_stream (h : Inv s) (hst : s.procState = .stream) : build s = .done s :=
  have hs := cycleInv_of_inv h
  hs.config.built (hs.stream.tables hst)

/-! ### Members of the alphabet -/

/-- With tables, CODEC holds the code of each symbol (R38). -/
theorem packByte_symbolAt (h : build s = .done s) {c : Nat} (hc : c < s.alen) :
    packByte (symbolAt s c) s = { valid := true, code := c } :=
  (codecHoldsAlphabet_of_built h).1 c hc

theorem isMember_symbolAt (h : build s = .done s) {c : Nat} (hc : c < s.alen) : isMember s (symbolAt s c) = true := by
  rw [isMember, packByte_symbolAt h hc]

/-- With tables, a byte that is no symbol is no member (R38). -/
theorem isMember_of_foreign (h : build s = .done s) (hv : ∀ i < s.alen, symbolAt s i ≠ v) : isMember s v = false := by
  rw [isMember, (codecHoldsAlphabet_of_built h).2 v hv]

/-- With tables, PAD is a symbol of the alphabet (R78). -/
theorem exists_pad_code (h : build s = .done s) : ∃ p < s.alen, symbolAt s p = s.pad :=
  exists_symbol_of_valid (codecHoldsAlphabet_of_built h) (pad_valid_of_built h)

/-- An update that leaves the configuration and the tables alone leaves them built. -/
theorem built_congr (heq : configPart t = configPart s) (h : build s = .done s) : build t = .done t :=
  (build_configPart_iff t).1 (heq ▸ (build_configPart_iff s).2 h)

theorem built_beginCycle (h : build s = .done s) : build (beginCycle s) = .done (beginCycle s) :=
  built_congr (s := s) rfl h

/-! ### The rules of DATA and END at their last lines -/

/-- With tables, a pair of codes resolves to the emission of the symbols of its closed form, in the stream's direction
(R92, R86). -/
theorem resolve_of_transforms (h : build s = .done s) (h1 : c1 < s.alen) (h2 : c2 < s.alen)
    (ht : transforms s s.mode c1 c2 o1 o2) :
    resolve c1 c2 s = .ok (emitBigram (symbolAt s o1) (symbolAt s o2) s) := by
  have hlookup := lookup_of_transforms h h1 h2 ht
  obtain ⟨ho1, ho2, -⟩ := ht
  obtain ⟨hchecks, -⟩ := (build_eq_done_self_iff s).1 h
  have hunpack : ∀ o < s.alen, unpackCode o s = .ok (symbolAt s o) := fun o ho =>
    (unpackCode_ok_iff o s _).2 ⟨lt_of_lt_of_le ho hchecks.alen_le, rfl⟩
  exact (resolve_ok_iff c1 c2 s _).2 ⟨(o1, o2), _, _, hlookup, hunpack o1 ho1, hunpack o2 ho2, rfl⟩

/-- What a resolution emits, with the tokens as bytes of nine bits (R92, R62). -/
theorem emitBigram_eq_setWidth (x1 x2 : Byte) (s : State) :
    emitBigram x1 x2 s =
      { s with
        out := s.out ++ (x1.setWidth 9 :: (s.carry.map (·.setWidth 9) ++ [x2.setWidth 9])),
        outCount := s.outCount + BitVec.ofNat 32 (s.carry.length + 2), pend := none, carry := [] } := by
  rw [emitBigram_eq, map_dataToken, dataToken_eq_setWidth, dataToken_eq_setWidth]

theorem dataByte_of_member (h : build s = .done s) (h1 : c1 < s.alen) (ht : alphabetByte c1 s = .ok t) :
    dataByte (symbolAt s c1) s = .ok { t with inCount := t.inCount + 1 } := by
  rw [dataByte, packByte_symbolAt h h1, if_pos rfl, ht]
  rfl

theorem dataByte_of_excluded (hv : isMember s v = false) (ht : excludedByte v s = .ok t) :
    dataByte v s = .ok { t with inCount := t.inCount + 1 } := by
  rw [isMember] at hv
  rw [dataByte, hv, if_neg Bool.false_ne_true, ht]
  rfl

/-! ### DATA in STREAM -/

/-- DATA whose rule runs to its last line. -/
theorem exec_data_of_ok (hst : s.procState = .stream) (h : dataByte v (beginCycle s) = .ok t) :
    exec (.data v) s = .next (retire t) :=
  exec_of_done (by simp [hst]) (stream_allowed (by simp [Instr.opcode]) hst) ((precise_done_iff _ _ _).2 h)

/-- An alphabet byte with nothing pending becomes the pending code (R95). -/
theorem exec_data_pends (h : build s = .done s) (hst : s.procState = .stream) (hpend : s.pend = none)
    (h1 : c1 < s.alen) :
    exec (.data (symbolAt s c1)) s = .next { counted s with pend := some c1, inCount := s.inCount + 1 } := by
  have hrule : alphabetByte c1 (beginCycle s) = .ok { beginCycle s with pend := some c1 } := by
    simp [alphabetByte, hpend]
  exact exec_data_of_ok hst (dataByte_of_member (built_beginCycle h) h1 hrule)

/-- An alphabet byte with a code pending emits the transformed pair around the carry (R95, R92). -/
theorem exec_data_resolves (h : build s = .done s) (hst : s.procState = .stream) (hpend : s.pend = some c1)
    (h1 : c1 < s.alen) (h2 : c2 < s.alen) (ht : transforms s s.mode c1 c2 o1 o2) :
    exec (.data (symbolAt s c2)) s = .next { counted s with
      out := s.out ++ ((symbolAt s o1).setWidth 9 :: (s.carry.map (·.setWidth 9) ++ [(symbolAt s o2).setWidth 9])),
      outCount := s.outCount + BitVec.ofNat 32 (s.carry.length + 2),
      pend := none, carry := [], inCount := s.inCount + 1 } := by
  have hb := built_beginCycle h
  have hrule : alphabetByte c2 (beginCycle s) = resolve c1 c2 (beginCycle s) := by simp [alphabetByte, hpend]
  rw [resolve_of_transforms hb h1 h2 ht, emitBigram_eq_setWidth] at hrule
  exact exec_data_of_ok hst (dataByte_of_member hb h2 hrule)

/-- An excluded byte with nothing pending is emitted at once (R96). -/
theorem exec_data_emits (hst : s.procState = .stream) (hv : isMember s v = false) (hpend : s.pend = none) :
    exec (.data v) s = .next { counted s with
      out := s.out ++ [v.setWidth 9], outCount := s.outCount + 1, inCount := s.inCount + 1 } := by
  have hrule : excludedByte v (beginCycle s) = .ok (emitByte v (beginCycle s)) := by simp [excludedByte, hpend]
  rw [exec_data_of_ok hst (dataByte_of_excluded hv hrule), ← dataToken_eq_setWidth]
  rfl

/-- An excluded byte behind a pending code is carried while there is room (R97). -/
theorem exec_data_carries (hst : s.procState = .stream) (hv : isMember s v = false) (hpend : s.pend = some c1)
    (hroom : s.carry.length ≠ s.params.carryDepth) :
    exec (.data v) s = .next { counted s with carry := s.carry ++ [v], inCount := s.inCount + 1 } := by
  have hrule : excludedByte v (beginCycle s) = .ok { beginCycle s with carry := s.carry ++ [v] } := by
    simp [excludedByte, hpend, hroom]
  exact exec_data_of_ok hst (dataByte_of_excluded hv hrule)

/-- An excluded byte behind a pending code and a full carry raises (R97, R116). -/
theorem exec_data_overflows (hst : s.procState = .stream) (hv : isMember s v = false) (hpend : s.pend = some c1)
    (hfull : s.carry.length = s.params.carryDepth) :
    exec (.data v) s = .next (erred s 7 0 s.params.carryDepth (encode (.data v))) := by
  have hpack : (packByte v (beginCycle s)).valid = false := hv
  have hrule : dataByte v (beginCycle s) = raise .carryOverflow 0 s.params.carryDepth := by
    simp [dataByte, hpack, excludedByte, hpend, hfull, raise, bind, Except.bind]
  exact exec_of_raised (i := .data v) (by simp [hst]) (stream_allowed (by simp [Instr.opcode]) hst)
    ((precise_raised_iff _ _ _ _).2 ⟨hrule, rfl⟩)

/-- Settles O36: with a code pending, the pair has a closed form, which `exec_data_resolves` emits. -/
theorem dataOfAlphabetByte : Obligations.DataOfAlphabetByte := by
  unfold Obligations.DataOfAlphabetByte
  intro s c hinv hst hc
  have h := built_of_stream hinv hst
  refine ⟨fun hpend => exec_data_pends h hst hpend hc, fun c1 hpend => ?_⟩
  have h1 := (cycleInv_of_inv hinv).stream.pend_lt hpend
  obtain ⟨o1, o2, ht⟩ := exists_transforms h s.mode h1 hc
  exact ⟨o1, o2, ht, exec_data_resolves h hst hpend h1 hc ht⟩

/-- Settles O37. -/
theorem excludedByteEmittedAtOnce : Obligations.ExcludedByteEmittedAtOnce := by
  unfold Obligations.ExcludedByteEmittedAtOnce
  exact fun s v hinv hst hv => exec_data_emits hst (isMember_of_foreign (built_of_stream hinv hst) hv)

/-- Settles O38: there is room in CARRY or there is none. -/
theorem excludedByteCarried : Obligations.ExcludedByteCarried := by
  unfold Obligations.ExcludedByteCarried
  intro s v c hinv hst hv hpend
  have hexcluded := isMember_of_foreign (built_of_stream hinv hst) hv
  exact ⟨exec_data_carries hst hexcluded hpend, exec_data_overflows hst hexcluded hpend⟩

/-! ### END -/

/-- END whose rule runs to its last line. -/
theorem exec_end_of_ok (hst : s.procState = .stream) (h : endOfStream (beginCycle s) = .ok t) :
    exec .endStream s = .next (retire t) :=
  exec_of_done (by simp [hst]) (stream_allowed (by simp [Instr.opcode]) hst) ((precise_done_iff _ _ _).2 h)

/-- END with nothing pending emits EOS (R98). -/
theorem exec_end_closes (hst : s.procState = .stream) (hpend : s.pend = none) (hcarry : s.carry = []) :
    exec .endStream s = .next { counted s with out := s.out ++ [0x100], procState := .idle } :=
  exec_end_of_ok hst ((endOfStream_ok_iff _ _).2 ⟨_, rfl, .inr ⟨hpend, hcarry, rfl⟩⟩)

/-- END with a code pending pairs it with PAD, and then emits EOS (R98, R92). -/
theorem exec_end_pads (h : build s = .done s) (hst : s.procState = .stream) (hpend : s.pend = some c1)
    (h1 : c1 < s.alen) (h2 : c2 < s.alen) (hpad : symbolAt s c2 = s.pad) (ht : transforms s s.mode c1 c2 o1 o2) :
    exec .endStream s = .next { counted s with
      out := s.out ++
        ((symbolAt s o1).setWidth 9 :: (s.carry.map (·.setWidth 9) ++ [(symbolAt s o2).setWidth 9, 0x100])),
      outCount := s.outCount + BitVec.ofNat 32 (s.carry.length + 2),
      pend := none, carry := [], procState := .idle } := by
  have hb := built_beginCycle h
  have hcode : (packByte (beginCycle s).pad (beginCycle s)).code = c2 := by
    rw [beginCycle_pad, ← hpad]
    exact congrArg CodecEntry.code (packByte_symbolAt hb h2)
  have hresolve := resolve_of_transforms hb h1 h2 ht
  rw [← hcode] at hresolve
  rw [exec_end_of_ok hst ((endOfStream_ok_iff _ _).2 ⟨_, rfl, .inl ⟨c1, hpend, hresolve⟩⟩), emitBigram_eq_setWidth]
  simp [retire, emit, counted, beginCycle, eosMarker, symbolAt]

/-- In IDLE, END raises BAD_STATE (R98, R105). -/
theorem exec_end_in_idle (hst : s.procState = .idle) :
    exec .endStream s = .next (erred s 2 (badState .idle s.tv).sub 0 0x80000000) := by
  rw [exec_of_refused (by simp [hst]) (by simp [hst, allowed, Instr.opcode]), hst]
  rfl

/-- Settles O39: what is pending decides, and PAD has a code. -/
theorem endPadsAndClosesTheStream : Obligations.EndPadsAndClosesTheStream := by
  unfold Obligations.EndPadsAndClosesTheStream
  intro s hinv
  have hstream := (cycleInv_of_inv hinv).stream
  refine ⟨fun hst hpend => exec_end_closes hst hpend (hstream.carry_eq_nil hpend), fun c1 hst hpend => ?_,
    fun hst htv => ?_, fun hst htv => ?_⟩
  · have h := built_of_stream hinv hst
    have h1 := hstream.pend_lt hpend
    obtain ⟨p, hp, hpad⟩ := exists_pad_code h
    obtain ⟨o1, o2, ht⟩ := exists_transforms h s.mode h1 hp
    exact ⟨p, o1, o2, hp, hpad, ht, exec_end_pads h hst hpend h1 hp hpad ht⟩
  · rw [exec_end_in_idle hst, htv]
    rfl
  · rw [exec_end_in_idle hst, htv]
    rfl

/-! ### START and ABORT -/

/-- In IDLE with tables, START opens an empty stream (R93). -/
theorem exec_start (m : Mode) (hst : s.procState = .idle) (htv : s.tv = true) :
    exec (.start m) s = .next { counted s with
      mode := m, pend := none, carry := [], inCount := 0, outCount := 0, procState := .stream } :=
  exec_of_done (s := s) (i := .start m) (by simp [hst]) (by rw [hst, htv]; rfl) rfl

/-- Settles O35. -/
theorem startOpensAStream : Obligations.StartOpensAStream := by
  unfold Obligations.StartOpensAStream
  refine fun s m => ⟨exec_start m, fun hst htv => ?_, exec_loading_in_stream (by simp [Instr.opcode])⟩
  rw [exec_of_refused (by simp [hst]) (by rw [hst, htv]; rfl), hst, htv]
  rfl

/-- Settles O40: outside STREAM, ABORT's rule, where it runs, changes nothing. -/
theorem abortEndsTheStream : Obligations.AbortEndsTheStream := by
  unfold Obligations.AbortEndsTheStream
  intro s
  rw [exec_eq_runCommand]
  cases hst : s.procState with
  | idle =>
    rw [runCommand_of_allowed _ (by simp [hst]) (by rw [hst]; rfl), rule, abortStream_eq]
    simp [hst, endCycle, retire, counted, beginCycle]
  | stream =>
    rw [runCommand_of_allowed _ (by simp [hst]) (by rw [hst]; rfl), rule, abortStream_eq]
    simp [hst, endCycle, retire, counted, beginCycle, abortMarker]
  | error => exact runCommand_discarded _ hst rfl

end Sys2Proof.Machine
end

section
/-! Proofs: the whole-stream function of R100 as a relation between an input, its padding and its output, cut into the
excluded bytes that pass at once and the pairs of alphabet bytes around a carry; and the indices of R100 in that form
(43_stream_processor R100 to R103). -/

namespace Sys2Proof.Machine

variable {s : State} {m : Mode} {v : Byte} {c1 c2 o1 o2 : Nat} {es bytes padded output rest : List Byte}

/-! ### The relation -/

/-- A pair of alphabet bytes, given by their codes, around the excluded bytes `es`, before the rest of a sequence. -/
def pairBlock (s : State) (c1 : Nat) (es : List Byte) (c2 : Nat) (rest : List Byte) : List Byte :=
  symbolAt s c1 :: (es ++ symbolAt s c2 :: rest)

/-- Every byte is excluded. -/
abbrev AllExcluded (s : State) (es : List Byte) : Prop := ∀ v ∈ es, isMember s v = false

/-- `StreamsTo s m bytes padded output`: in direction `m`, the input `bytes` is padded to `padded` (R98) and streams to
`output`: an excluded byte with nothing pending as it is (R96), a pair transformed around its carry (R95, R97), and an
alphabet byte that finds no partner paired with PAD. -/
inductive StreamsTo (s : State) (m : Mode) : List Byte → List Byte → List Byte → Prop where
  | nil : StreamsTo s m [] [] []
  | excluded {v : Byte} {bytes padded output : List Byte} : isMember s v = false → StreamsTo s m bytes padded output →
    StreamsTo s m (v :: bytes) (v :: padded) (v :: output)
  | pair {c1 c2 o1 o2 : Nat} {es bytes padded output : List Byte} : c1 < s.alen → c2 < s.alen →
    transforms s m c1 c2 o1 o2 → AllExcluded s es → StreamsTo s m bytes padded output →
    StreamsTo s m (pairBlock s c1 es c2 bytes) (pairBlock s c1 es c2 padded) (pairBlock s o1 es o2 output)
  | padded {c1 c2 o1 o2 : Nat} {es : List Byte} : c1 < s.alen → c2 < s.alen → symbolAt s c2 = s.pad →
    transforms s m c1 c2 o1 o2 → AllExcluded s es →
    StreamsTo s m (symbolAt s c1 :: es) (pairBlock s c1 es c2 []) (pairBlock s o1 es o2 [])

/-- With tables, every input streams to some output, and so does every input that a pending code and its carry have
begun. -/
theorem exists_streamsTo (h : build s = .done s) (m : Mode) (bytes : List Byte) :
    (∃ padded output, StreamsTo s m bytes padded output) ∧
      ∀ c1 < s.alen, ∀ es, AllExcluded s es →
        ∃ padded output, StreamsTo s m (symbolAt s c1 :: (es ++ bytes)) padded output := by
  induction bytes with
  | nil =>
    refine ⟨⟨[], [], .nil⟩, fun c1 h1 es hes => ?_⟩
    obtain ⟨p, hp, hpad⟩ := exists_pad_code h
    obtain ⟨o1, o2, ht⟩ := exists_transforms h m h1 hp
    rw [List.append_nil]
    exact ⟨_, _, .padded h1 hp hpad ht hes⟩
  | cons v bytes ih =>
    obtain ⟨⟨padded, output, hnone⟩, hpending⟩ := ih
    cases hv : isMember s v with
    | false =>
      refine ⟨⟨_, _, .excluded hv hnone⟩, fun c1 h1 es hes => ?_⟩
      have hes' : AllExcluded s (es ++ [v]) := by
        simpa [AllExcluded, or_imp, forall_and, hv] using hes
      simpa using hpending c1 h1 (es ++ [v]) hes'
    | true =>
      obtain ⟨c, hc, rfl⟩ := exists_symbol_of_valid (codecHoldsAlphabet_of_built h) hv
      refine ⟨hpending c hc [] nofun, fun c1 h1 es hes => ?_⟩
      obtain ⟨o1, o2, ht⟩ := exists_transforms h m h1 hc
      exact ⟨_, _, .pair h1 hc ht hes hnone⟩

/-- Streaming an output in the other direction gives back the padded input, and needs no padding (R103). -/
theorem StreamsTo.opposite (h : StreamsTo s m bytes padded output) :
    StreamsTo s (opposite m) output output padded := by
  induction h with
  | nil => exact .nil
  | excluded hv _ ih => exact .excluded hv ih
  | pair h1 h2 ht hes _ ih => exact .pair ht.1 ht.2.1 (transforms_opposite ht h1 h2) hes ih
  | padded h1 h2 _ ht hes => exact .pair ht.1 ht.2.1 (transforms_opposite ht h1 h2) hes .nil

/-! ### Padding -/

/-- An even number of alphabet bytes in front does not change what is padded. -/
theorem paddedInput_append (s : State) {front : List Byte} (hfront : front.countP (isMember s) % 2 = 0)
    (bytes : List Byte) : paddedInput s (front ++ bytes) = front ++ paddedInput s bytes := by
  have hparity : (front ++ bytes).countP (isMember s) % 2 = bytes.countP (isMember s) % 2 := by
    rw [List.countP_append]
    omega
  rw [paddedInput, paddedInput, hparity]
  split
  · rw [List.append_assoc]
  · rfl

theorem countP_of_allExcluded (hes : AllExcluded s es) : es.countP (isMember s) = 0 :=
  List.countP_eq_zero.2 fun v hv => by simp [hes v hv]

/-- The padded input of the relation is that of R100. -/
theorem StreamsTo.padded_eq (hb : build s = .done s) (h : StreamsTo s m bytes padded output) :
    padded = paddedInput s bytes := by
  induction h with
  | nil => rfl
  | @excluded v bytes _ _ hv _ ih =>
    rw [ih]
    exact (paddedInput_append s (front := [v]) (by simp [hv]) bytes).symm
  | @pair c1 c2 _ _ es bytes _ _ h1 h2 _ hes _ ih =>
    have hfront := paddedInput_append s (front := symbolAt s c1 :: (es ++ [symbolAt s c2]))
      (by simp [isMember_symbolAt hb, h1, h2, countP_of_allExcluded hes]) bytes
    rw [ih]
    simpa [pairBlock] using hfront.symm
  | padded h1 h2 hpad _ hes =>
    simp [paddedInput, pairBlock, isMember_symbolAt hb h1, countP_of_allExcluded hes, hpad]

/-- Padding adds at the end only. -/
theorem getD_paddedInput {i : Nat} (hi : i < bytes.length) : (paddedInput s bytes).getD i 0 = bytes.getD i 0 := by
  rw [paddedInput]
  split
  · exact List.getD_append _ _ _ _ hi
  · rfl

theorem filter_paddedInput (hb : build s = .done s) :
    (paddedInput s bytes).filter (fun v => !isMember s v) = bytes.filter (fun v => !isMember s v) := by
  have hpad : isMember s s.pad = true := pad_valid_of_built hb
  rw [paddedInput]
  split
  · simp [hpad]
  · rfl

/-! ### Excluded bytes keep their places -/

/-- At each place both sequences have an alphabet byte, or both the same excluded byte (R101). -/
abbrev SamePlaces (s : State) : List Byte → List Byte → Prop :=
  List.Forall₂ fun v w => isMember s w = isMember s v ∧ (isMember s v = false → w = v)

theorem samePlaces_pairBlock (hb : build s = .done s) (h1 : c1 < s.alen) (h2 : c2 < s.alen) (ho1 : o1 < s.alen)
    (ho2 : o2 < s.alen) (h : SamePlaces s padded output) :
    SamePlaces s (pairBlock s c1 es c2 padded) (pairBlock s o1 es o2 output) := by
  have hmember : ∀ {c}, c < s.alen → isMember s (symbolAt s c) = true := isMember_symbolAt hb
  have hsymbols : ∀ {c o}, c < s.alen → o < s.alen → isMember s (symbolAt s o) = isMember s (symbolAt s c) ∧
      (isMember s (symbolAt s c) = false → symbolAt s o = symbolAt s c) := fun hc ho => by simp [hmember, hc, ho]
  refine .cons (hsymbols h1 ho1) (List.rel_append ?_ (.cons (hsymbols h2 ho2) h))
  exact List.forall₂_same.2 fun _ _ => ⟨rfl, fun _ => rfl⟩

/-- An output has the excluded bytes of the padded input at their places, and alphabet bytes at the others. -/
theorem StreamsTo.samePlaces (hb : build s = .done s) (h : StreamsTo s m bytes padded output) :
    SamePlaces s padded output := by
  induction h with
  | nil => exact .nil
  | excluded _ _ ih => exact .cons ⟨rfl, fun _ => rfl⟩ ih
  | pair h1 h2 ht _ _ ih => exact samePlaces_pairBlock hb h1 h2 ht.1 ht.2.1 ih
  | padded h1 h2 _ ht _ => exact samePlaces_pairBlock hb h1 h2 ht.1 ht.2.1 .nil

theorem SamePlaces.filter_eq (h : SamePlaces s padded output) :
    output.filter (fun v => !isMember s v) = padded.filter (fun v => !isMember s v) := by
  induction h with
  | nil => rfl
  | @cons v w _ _ hvw _ ih =>
    obtain ⟨hmember, hsame⟩ := hvw
    cases hv : isMember s v with
    | false => simp [hsame hv, hv, ih]
    | true => simp [hmember, hv, ih]

theorem SamePlaces.getD_eq (h : SamePlaces s padded output) {i : Nat} (hi : i < padded.length)
    (hv : isMember s (padded.getD i 0) = false) : output.getD i 0 = padded.getD i 0 := by
  have hi' : i < output.length := h.length_eq ▸ hi
  rw [List.getD_eq_getElem _ _ hi] at hv ⊢
  rw [List.getD_eq_getElem _ _ hi']
  exact ((List.forall₂_iff_get.1 h).2 i hi hi').2 hv

/-! ### The indices of the alphabet bytes -/

theorem memberIndices_nil (s : State) : memberIndices s [] = [] := rfl

theorem memberIndices_cons (s : State) (v : Byte) (bytes : List Byte) :
    memberIndices s (v :: bytes) =
      if isMember s v then 0 :: (memberIndices s bytes).map (· + 1) else (memberIndices s bytes).map (· + 1) := by
  have htail : (List.map Nat.succ (List.range bytes.length)).filter (fun i => isMember s ((v :: bytes).getD i 0)) =
      (memberIndices s bytes).map (· + 1) := by
    rw [List.filter_map]
    rfl
  rw [memberIndices, List.length_cons, List.range_succ_eq_map, List.filter_cons, htail]
  rfl

theorem memberIndices_excluded_append (hes : AllExcluded s es) (rest : List Byte) :
    memberIndices s (es ++ rest) = (memberIndices s rest).map (· + es.length) := by
  induction es with
  | nil => simp
  | cons v es ih =>
    obtain ⟨hv, hes⟩ := List.forall_mem_cons.1 hes
    rw [List.cons_append, memberIndices_cons, hv, ih hes]
    simp

/-- A pair stands at the ends of its block, and the rest follows. -/
theorem memberIndices_pairBlock (hb : build s = .done s) (h1 : c1 < s.alen) (h2 : c2 < s.alen)
    (hes : AllExcluded s es) (rest : List Byte) :
    memberIndices s (pairBlock s c1 es c2 rest) =
      0 :: (es.length + 1) :: (memberIndices s rest).map (· + (es.length + 2)) := by
  rw [pairBlock, memberIndices_cons, if_pos (isMember_symbolAt hb h1), memberIndices_excluded_append hes,
    memberIndices_cons, if_pos (isMember_symbolAt hb h2)]
  simp only [List.map_cons, List.map_map, Nat.zero_add]
  have hshift : ((· + 1) ∘ (· + es.length)) ∘ (· + 1) = (· + (es.length + 2)) := by
    funext i
    simp only [Function.comp]
    omega
  rw [← hshift]
  rfl

theorem SamePlaces.memberIndices_eq (h : SamePlaces s padded output) :
    memberIndices s output = memberIndices s padded := by
  induction h with
  | nil => rfl
  | cons hvw _ ih => rw [memberIndices_cons, memberIndices_cons, hvw.1, ih]

/-- A padded input has an even number of alphabet bytes (R102). -/
theorem StreamsTo.even_length_memberIndices (hb : build s = .done s) (h : StreamsTo s m bytes padded output) :
    (memberIndices s padded).length % 2 = 0 := by
  induction h with
  | nil => rfl
  | excluded hv _ ih => simpa [memberIndices_cons, hv] using ih
  | pair h1 h2 _ hes _ ih =>
    rw [memberIndices_pairBlock hb h1 h2 hes, List.length_cons, List.length_cons, List.length_map]
    omega
  | padded h1 h2 _ _ hes => simp [memberIndices_pairBlock hb h1 h2 hes, memberIndices_nil]

/-! ### Statements about each pair -/

/-- `P` of each pair of R100: the entries of an index list at 2j and 2j + 1. -/
def AllPairs (P : Nat → Nat → Prop) (is : List Nat) : Prop :=
  ∀ j < is.length / 2, P (is.getD (2 * j) 0) (is.getD (2 * j + 1) 0)

section AllPairs

variable {P Q : Nat → Nat → Prop} {is : List Nat}

theorem allPairs_nil : AllPairs P [] := nofun

theorem allPairs_cons_cons {i k : Nat} : AllPairs P (i :: k :: is) ↔ P i k ∧ AllPairs P is := by
  constructor
  · intro h
    exact ⟨h 0 (by simp), fun j hj => h (j + 1) (by simp only [List.length_cons]; omega)⟩
  · rintro ⟨hfirst, hrest⟩ j hj
    cases j with
    | zero => exact hfirst
    | succ j => exact hrest j (by simp only [List.length_cons] at hj; omega)

theorem allPairs_map (f : Nat → Nat) : AllPairs P (is.map f) ↔ AllPairs (fun i k => P (f i) (f k)) is := by
  rw [AllPairs, AllPairs, List.length_map]
  refine forall₂_congr fun j hj => ?_
  have heven : 2 * j < is.length := by omega
  have hodd : 2 * j + 1 < is.length := by omega
  simp [heven, hodd]

end AllPairs

/-- The carry between two alphabet bytes of a pair, at indices `i` and `k`, fits (R100). -/
def PairFits (s : State) (i k : Nat) : Prop := k ≤ i + 1 + s.params.carryDepth

theorem carryFits_iff (s : State) (bytes : List Byte) :
    CarryFits s bytes ↔ AllPairs (PairFits s) (memberIndices s (paddedInput s bytes)) := Iff.rfl

theorem pairFits_add (s : State) (d : Nat) : (fun i k => PairFits s (i + d) (k + d)) = PairFits s := by
  funext i k
  simp only [PairFits, eq_iff_iff]
  omega

theorem allPairs_fit_excluded (hv : isMember s v = false) :
    AllPairs (PairFits s) (memberIndices s (v :: rest)) ↔ AllPairs (PairFits s) (memberIndices s rest) := by
  rw [memberIndices_cons, hv, if_neg Bool.false_ne_true, allPairs_map, pairFits_add]

/-- The carry of a block fits when CARRY can hold its excluded bytes. -/
theorem allPairs_fit_pairBlock (hb : build s = .done s) (h1 : c1 < s.alen) (h2 : c2 < s.alen)
    (hes : AllExcluded s es) :
    AllPairs (PairFits s) (memberIndices s (pairBlock s c1 es c2 rest)) ↔
      es.length ≤ s.params.carryDepth ∧ AllPairs (PairFits s) (memberIndices s rest) := by
  rw [memberIndices_pairBlock hb h1 h2 hes, allPairs_cons_cons, allPairs_map, pairFits_add, PairFits]
  refine and_congr_left fun _ => ?_
  omega

/-- The pair at indices `i` and `k` of a padded input is transformed into the bytes there of the output (R100). -/
def PairTransformed (s : State) (m : Mode) (padded output : List Byte) (i k : Nat) : Prop :=
  ∃ x y, lookup m (packByte (padded.getD i 0) s).code (packByte (padded.getD k 0) s).code s = .ok (x, y) ∧
    output.getD i 0 = symbolAt s x ∧ output.getD k 0 = symbolAt s y

theorem getD_pairBlock_second : (pairBlock s c1 es c2 rest).getD (es.length + 1) 0 = symbolAt s c2 := by
  simp [pairBlock]

theorem getD_pairBlock_rest (i : Nat) : (pairBlock s c1 es c2 rest).getD (i + (es.length + 2)) 0 = rest.getD i 0 := by
  have hi : i + (es.length + 2) = es.length + (i + 1) + 1 := by omega
  rw [hi, pairBlock, List.getD_cons_succ, List.getD_append_right _ _ _ _ (by omega), Nat.add_sub_cancel_left,
    List.getD_cons_succ]

theorem allPairs_transformed_pairBlock (hb : build s = .done s) (h1 : c1 < s.alen) (h2 : c2 < s.alen)
    (ht : transforms s m c1 c2 o1 o2) (hes : AllExcluded s es)
    (h : AllPairs (PairTransformed s m padded output) (memberIndices s padded)) :
    AllPairs (PairTransformed s m (pairBlock s c1 es c2 padded) (pairBlock s o1 es o2 output))
      (memberIndices s (pairBlock s c1 es c2 padded)) := by
  rw [memberIndices_pairBlock hb h1 h2 hes, allPairs_cons_cons, allPairs_map]
  constructor
  · refine ⟨o1, o2, ?_, rfl, getD_pairBlock_second⟩
    have hfirst : (pairBlock s c1 es c2 padded).getD 0 0 = symbolAt s c1 := rfl
    rw [hfirst, getD_pairBlock_second, packByte_symbolAt hb h1, packByte_symbolAt hb h2]
    exact lookup_of_transforms hb h1 h2 ht
  · simp only [PairTransformed, getD_pairBlock_rest]
    exact h

/-- Every pair of a padded input is transformed in its place. -/
theorem StreamsTo.allPairs_transformed (hb : build s = .done s) (h : StreamsTo s m bytes padded output) :
    AllPairs (PairTransformed s m padded output) (memberIndices s padded) := by
  induction h with
  | nil => exact allPairs_nil
  | excluded hv _ ih =>
    rw [memberIndices_cons, hv, if_neg Bool.false_ne_true, allPairs_map]
    exact ih
  | pair h1 h2 ht hes _ ih => exact allPairs_transformed_pairBlock hb h1 h2 ht hes ih
  | padded h1 h2 _ ht hes => exact allPairs_transformed_pairBlock hb h1 h2 ht hes allPairs_nil

/-- The relation gives the output of R100. -/
theorem StreamsTo.streamOutput (hb : build s = .done s) (h : StreamsTo s m bytes padded output) :
    StreamOutput s m bytes output := by
  have hsame := h.samePlaces hb
  have hpairs := h.allPairs_transformed hb
  rw [h.padded_eq hb] at hsame hpairs
  refine ⟨hsame.length_eq.symm, fun i hi hv => ?_, fun j hj => ?_⟩
  · have hi' : i < (paddedInput s bytes).length := by
      rw [paddedInput]
      split
      · exact hi.trans (by simp)
      · exact hi
    rw [← getD_paddedInput hi] at hv ⊢
    exact hsame.getD_eq hi' hv
  · obtain ⟨x, y, hxy⟩ := hpairs j hj
    exact ⟨_, _, x, y, rfl, rfl, hxy⟩

end Sys2Proof.Machine
end

section
/-! Proofs: the commands of a whole stream run to the output of R100, and what follows for its excluded bytes and for
the stream in the other direction (43_stream_processor R100, R101, R103). -/

namespace Sys2Proof.Machine

variable {s t : State} {m : Mode} {v : Byte} {c1 c2 o1 o2 : Nat} {es bytes padded output carry : List Byte}
  {i : Instr} {is : List Instr}

/-! ### The states of a stream -/

/-- A stream that `s` has opened in direction `m`, after `read` bytes of input and the output `emitted`. -/
def inStream (s : State) (m : Mode) (read : Nat) (emitted : List Byte) (pend : Option Nat) (carry : List Byte) :
    State :=
  { s with
    procState := .stream, mode := m, inCount := BitVec.ofNat 32 read, outCount := BitVec.ofNat 32 emitted.length,
    out := s.out ++ emitted.map (·.setWidth 9), pend := pend, carry := carry, busy := false,
    cmdDone := s.cmdDone + BitVec.ofNat 32 (read + 1) }

/-- The state `s` in IDLE after a whole stream in direction `m`, of `read` bytes of input and the output `emitted`. -/
def afterStream (s : State) (m : Mode) (read : Nat) (emitted : List Byte) : State :=
  { s with
    mode := m, inCount := BitVec.ofNat 32 read, outCount := BitVec.ofNat 32 emitted.length,
    out := s.out ++ (emitted.map (·.setWidth 9) ++ [0x100]), pend := none, carry := [], busy := false,
    cmdDone := s.cmdDone + BitVec.ofNat 32 (read + 2) }

theorem built_inStream (hb : build s = .done s) (m : Mode) (read : Nat) (emitted : List Byte) (pend : Option Nat)
    (carry : List Byte) :
    build (inStream s m read emitted pend carry) = .done (inStream s m read emitted pend carry) :=
  built_congr (s := s) rfl hb

/-! ### One command -/

/-- START of an empty stream. -/
theorem exec_start_inStream (hst : s.procState = .idle) (htv : s.tv = true) (m : Mode) :
    exec (.start m) s = .next (inStream s m 0 [] none []) := by
  rw [exec_start m hst htv]
  simp [inStream, counted]

theorem exec_data_pends_inStream (hb : build s = .done s) (read : Nat) (emitted : List Byte) (h1 : c1 < s.alen) :
    exec (.data (symbolAt s c1)) (inStream s m read emitted none []) =
      .next (inStream s m (read + 1) emitted (some c1) []) := by
  refine (exec_data_pends (built_inStream hb m read emitted none []) rfl rfl h1).trans ?_
  simp [inStream, counted, BitVec.ofNat_add, BitVec.add_assoc]

theorem exec_data_emits_inStream (read : Nat) (emitted : List Byte) (hv : isMember s v = false) :
    exec (.data v) (inStream s m read emitted none []) = .next (inStream s m (read + 1) (emitted ++ [v]) none []) := by
  refine (exec_data_emits (s := inStream s m read emitted none []) rfl hv rfl).trans ?_
  simp [inStream, counted, BitVec.ofNat_add, BitVec.add_assoc]

theorem exec_data_carries_inStream (read : Nat) (emitted : List Byte) (hv : isMember s v = false)
    (hroom : carry.length < s.params.carryDepth) :
    exec (.data v) (inStream s m read emitted (some c1) carry) =
      .next (inStream s m (read + 1) emitted (some c1) (carry ++ [v])) := by
  refine (exec_data_carries (s := inStream s m read emitted (some c1) carry) rfl hv rfl hroom.ne).trans ?_
  simp [inStream, counted, BitVec.ofNat_add, BitVec.add_assoc]

theorem exec_data_resolves_inStream (hb : build s = .done s) (read : Nat) (emitted : List Byte) (h1 : c1 < s.alen)
    (h2 : c2 < s.alen) (ht : transforms s m c1 c2 o1 o2) :
    exec (.data (symbolAt s c2)) (inStream s m read emitted (some c1) es) =
      .next (inStream s m (read + 1) (emitted ++ pairBlock s o1 es o2 []) none []) := by
  refine (exec_data_resolves (built_inStream hb m read emitted (some c1) es) rfl rfl h1 h2 ht).trans ?_
  simp [inStream, counted, pairBlock, symbolAt, BitVec.ofNat_add, BitVec.add_assoc]

theorem exec_end_closes_inStream (hst : s.procState = .idle) (read : Nat) (emitted : List Byte) :
    exec .endStream (inStream s m read emitted none []) = .next (afterStream s m read emitted) := by
  refine (exec_end_closes rfl rfl rfl).trans ?_
  simp [inStream, afterStream, counted, hst, BitVec.ofNat_add, BitVec.add_assoc]

theorem exec_end_pads_inStream (hb : build s = .done s) (hst : s.procState = .idle) (read : Nat) (emitted : List Byte)
    (h1 : c1 < s.alen) (h2 : c2 < s.alen) (hpad : symbolAt s c2 = s.pad) (ht : transforms s m c1 c2 o1 o2) :
    exec .endStream (inStream s m read emitted (some c1) es) =
      .next (afterStream s m read (emitted ++ pairBlock s o1 es o2 [])) := by
  refine (exec_end_pads (built_inStream hb m read emitted (some c1) es) rfl rfl h1 h2 hpad ht).trans ?_
  simp [inStream, afterStream, counted, hst, pairBlock, symbolAt, BitVec.ofNat_add, BitVec.add_assoc]

/-! ### Runs of commands -/

theorem execAll_cons (h : exec i s = .next t) (is : List Instr) : execAll (i :: is) s = execAll is t := by
  rw [execAll, h]

/-- Behind a pending code, excluded bytes are carried while there is room (R97). -/
theorem execAll_carries (hes : AllExcluded s es) (read : Nat) (emitted carry : List Byte)
    (hroom : carry.length + es.length ≤ s.params.carryDepth) (is : List Instr) :
    execAll (es.map .data ++ is) (inStream s m read emitted (some c1) carry) =
      execAll is (inStream s m (read + es.length) emitted (some c1) (carry ++ es)) := by
  induction es generalizing read carry with
  | nil => simp
  | cons v es ih =>
    obtain ⟨hv, hes⟩ := List.forall_mem_cons.1 hes
    rw [List.length_cons] at hroom
    have hrest := ih hes (read + 1) (carry ++ [v]) (by simp; omega)
    rw [List.map_cons, List.cons_append, execAll_cons (exec_data_carries_inStream read emitted hv (by omega)), hrest,
      List.append_assoc, List.length_cons, Nat.add_right_comm]
    rfl

/-- An alphabet byte with nothing pending, and the excluded bytes behind it (R95, R97). -/
theorem execAll_halfPair (hb : build s = .done s) (h1 : c1 < s.alen) (hes : AllExcluded s es)
    (hroom : es.length ≤ s.params.carryDepth) (read : Nat) (emitted : List Byte) (is : List Instr) :
    execAll (.data (symbolAt s c1) :: (es.map .data ++ is)) (inStream s m read emitted none []) =
      execAll is (inStream s m (read + (es.length + 1)) emitted (some c1) es) := by
  rw [execAll_cons (exec_data_pends_inStream hb read emitted h1),
    execAll_carries hes _ _ _ (by simpa using hroom), List.nil_append, Nat.add_right_comm, Nat.add_assoc]

/-- From a stream with nothing pending, the remaining bytes and END run to the rest of the output, when no carry
overflows (R100). -/
theorem StreamsTo.execAll_data_end (hb : build s = .done s) (hst : s.procState = .idle)
    (h : StreamsTo s m bytes padded output) (hfits : AllPairs (PairFits s) (memberIndices s padded)) (read : Nat)
    (emitted : List Byte) :
    execAll (bytes.map .data ++ [.endStream]) (inStream s m read emitted none []) =
      .next (afterStream s m (read + bytes.length) (emitted ++ output)) := by
  induction h generalizing read emitted with
  | nil =>
    rw [List.append_nil]
    exact execAll_cons (exec_end_closes_inStream hst read emitted) []
  | @excluded v _ _ _ hv _ ih =>
    have hrest := ih ((allPairs_fit_excluded hv).1 hfits) (read + 1) (emitted ++ [v])
    rw [List.map_cons, List.cons_append, execAll_cons (exec_data_emits_inStream read emitted hv), hrest,
      List.append_assoc, List.length_cons, Nat.add_right_comm]
    rfl
  | @pair c1 c2 o1 o2 es bytes padded output h1 h2 ht hes _ ih =>
    obtain ⟨hroom, hfits⟩ := (allPairs_fit_pairBlock hb h1 h2 hes).1 hfits
    have hpair := exec_data_resolves_inStream (es := es) hb (read + (es.length + 1)) emitted h1 h2 ht
    have hrest := ih hfits (read + (es.length + 1) + 1) (emitted ++ pairBlock s o1 es o2 [])
    have hcommands : (pairBlock s c1 es c2 bytes).map Instr.data ++ [.endStream] =
        .data (symbolAt s c1) :: (es.map .data ++ .data (symbolAt s c2) :: (bytes.map .data ++ [.endStream])) := by
      simp [pairBlock]
    have hread : read + (es.length + 1) + 1 + bytes.length = read + (pairBlock s c1 es c2 bytes).length := by
      simp [pairBlock]
      omega
    have hemitted : emitted ++ pairBlock s o1 es o2 [] ++ output = emitted ++ pairBlock s o1 es o2 output := by
      simp [pairBlock]
    rw [hcommands, execAll_halfPair hb h1 hes hroom, execAll_cons hpair, hrest, hread, hemitted]
  | padded h1 h2 hpad ht hes =>
    obtain ⟨hroom, -⟩ := (allPairs_fit_pairBlock hb h1 h2 hes).1 hfits
    rw [List.map_cons, List.cons_append, execAll_halfPair hb h1 hes hroom]
    exact execAll_cons (exec_end_pads_inStream hb hst _ emitted h1 h2 hpad ht) []

/-- A whole stream runs to the output of R100. -/
theorem StreamsTo.execAll_streamCommands (hb : build s = .done s) (hst : s.procState = .idle)
    (h : StreamsTo s m bytes padded output) (hfits : AllPairs (PairFits s) (memberIndices s padded)) :
    execAll (streamCommands m bytes) s = .next (afterStream s m bytes.length output) := by
  rw [streamCommands, execAll_cons (exec_start_inStream hst (tv_of_built hb) m), h.execAll_data_end hb hst hfits,
    Nat.zero_add, List.nil_append]

/-- Every stream without overflow runs to an output of R100. -/
theorem exists_streamsTo_of_carryFits (hb : build s = .done s) (hst : s.procState = .idle) (m : Mode)
    (hfits : CarryFits s bytes) :
    ∃ output, StreamsTo s m bytes (paddedInput s bytes) output ∧
      execAll (streamCommands m bytes) s = .next (afterStream s m bytes.length output) := by
  obtain ⟨⟨padded, output, h⟩, -⟩ := exists_streamsTo hb m bytes
  obtain rfl := h.padded_eq hb
  exact ⟨output, h, h.execAll_streamCommands hb hst ((carryFits_iff s bytes).1 hfits)⟩

/-- A stream leaves the configuration and the tables, and so what streams to what. -/
theorem StreamsTo.afterStream (h : StreamsTo s m bytes padded output) (m' : Mode) (read : Nat)
    (emitted : List Byte) : StreamsTo (afterStream s m' read emitted) m bytes padded output := by
  induction h with
  | nil => exact .nil
  | excluded hv _ ih => exact .excluded hv ih
  | pair h1 h2 ht hes _ ih => exact .pair (s := Machine.afterStream s m' read emitted) h1 h2 ht hes ih
  | padded h1 h2 hpad ht hes => exact .padded (s := Machine.afterStream s m' read emitted) h1 h2 hpad ht hes

/-! ### The statements on whole streams -/

/-- Settles O41. -/
theorem streamComputesTheWholeStreamFunction : Obligations.StreamComputesTheWholeStreamFunction := by
  unfold Obligations.StreamComputesTheWholeStreamFunction
  intro s m bytes hinv hst htv hfits
  have hb := (cycleInv_of_inv hinv).config.built htv
  obtain ⟨output, h, hrun⟩ := exists_streamsTo_of_carryFits hb hst m hfits
  exact ⟨output, h.streamOutput hb, hrun⟩

/-- Settles O42: an output has the excluded bytes of the padded input at their places, and PAD is none. -/
theorem excludedBytesKeepTheirPlaces : Obligations.ExcludedBytesKeepTheirPlaces := by
  unfold Obligations.ExcludedBytesKeepTheirPlaces
  intro s m bytes t hinv hst htv hfits ht
  have hb := (cycleInv_of_inv hinv).config.built htv
  obtain ⟨output, h, hrun⟩ := exists_streamsTo_of_carryFits hb hst m hfits
  obtain ⟨-, hplaces, -⟩ := h.streamOutput hb
  rw [hrun] at ht
  cases ht
  exact ⟨output, rfl, hplaces, (h.samePlaces hb).filter_eq.trans (filter_paddedInput hb)⟩

/-- Settles O43: what an input streams to streams back, from the state that the first stream leaves, with the alphabet
bytes and so the carries in the same places. -/
theorem oppositeStreamRestoresTheInput : Obligations.OppositeStreamRestoresTheInput := by
  unfold Obligations.OppositeStreamRestoresTheInput
  intro s m bytes hinv hst htv hfits
  have hb := (cycleInv_of_inv hinv).config.built htv
  obtain ⟨output, h, hrun⟩ := exists_streamsTo_of_carryFits hb hst m hfits
  have hindices := (h.samePlaces hb).memberIndices_eq
  have hfits' : AllPairs (PairFits s) (memberIndices s output) := hindices ▸ (carryFits_iff s bytes).1 hfits
  have hafter : build (afterStream s m bytes.length output) = .done (afterStream s m bytes.length output) :=
    built_congr (s := s) rfl hb
  have hback := (h.opposite.afterStream m bytes.length output).execAll_streamCommands hafter hst hfits'
  exact ⟨output, _, _, hrun, rfl, hindices, hindices ▸ h.even_length_memberIndices hb, hback, rfl⟩

end Sys2Proof.Machine
end

section
/-! Proofs: the command cycle over every word the block takes, and the commands that control the block itself
(44_control R104 to R108). -/

namespace Sys2Proof.Machine

variable {s t : State} {i : Instr}

/-! ### Every word (R104) -/

/-- No rule writes the build-time parameters (R25). -/
theorem Effect.params (h : Effect s i t) : t.params = s.params := by
  cases h with
  | clear => rw [clear_eq]
  | abort => rw [abortStream_eq]
  | errack => rw [errack_eq]
  | nop | apush | kpush | setpad | build | start | data | endStream | query => rfl

/-- A command's cycle ends with BUSY 0, whether it ran, raised or was discarded, and keeps the parameters (R20, R25). -/
theorem exec_busy_params (h : exec i s = .next t) : t.busy = false ∧ t.params = s.params := by
  cases exec_ending h with
  | discarded => exact ⟨rfl, rfl⟩
  | raised e => rw [errorEntry_eq]; exact ⟨rfl, rfl⟩
  | buildRaised => rw [errorEntry_eq]; exact ⟨rfl, rfl⟩
  | ran hr he => exact ⟨rfl, he.params⟩

/-- So does an illegal word's cycle. -/
theorem runIllegal_busy_params {w : Word} {e : DecodeError} (h : runIllegal w e s = .next t) :
    t.busy = false ∧ t.params = s.params := by
  rw [runIllegal_eq] at h
  cases h
  split
  · exact ⟨rfl, rfl⟩
  · rw [errorEntry_eq]; exact ⟨rfl, rfl⟩

theorem runWord_busy_params {w : Word} (h : runWord w s = .next t) : t.busy = false ∧ t.params = s.params := by
  unfold runWord at h
  split at h
  · exact exec_busy_params h
  · exact runIllegal_busy_params h

/-- Settles O10: `step_cmds` counts the word, and its cycle ends with BUSY 0. -/
theorem everyWordIsCountedOnce : Obligations.EveryWordIsCountedOnce := by
  unfold Obligations.EveryWordIsCountedOnce
  intro s t w ws hcmds h
  obtain ⟨ht, hdone⟩ := step_cmds hcmds h
  rw [step_of_cons hcmds] at h
  obtain ⟨hbusy, hparams⟩ := runWord_busy_params h
  exact ⟨hdone, ht, hbusy, hparams⟩

/-- Settles O8. -/
theorem stepRunsTheDecodedCommand : Obligations.StepRunsTheDecodedCommand := by
  unfold Obligations.StepRunsTheDecodedCommand
  intro s w ws i hcmds hdecode
  rw [step_of_cons hcmds, runWord, hdecode]

/-! ### NOP, CLEAR and ERRACK (R106 to R108) -/

/-- NOP, CLEAR and ERRACK are in every cell of R105 outside ERROR state. -/
theorem control_allowed (hi : i.opcode ∈ [.nop, .clear, .errack]) (hst : s.procState ≠ .error) :
    allowed i.opcode s.procState s.tv = true := by
  have hrow : ∀ o ∈ [Opcode.nop, .clear, .errack], ∀ tv, allowed o .idle tv = true ∧ allowed o .stream tv = true := by
    decide
  cases hp : s.procState with
  | idle => exact (hrow _ hi s.tv).1
  | stream => exact (hrow _ hi s.tv).2
  | error => exact absurd hp hst

/-- Settles O17: ERROR state discards NOP, elsewhere its rule keeps the state. -/
theorem nopOnlyCounts : Obligations.NopOnlyCounts := by
  unfold Obligations.NopOnlyCounts
  intro s
  by_cases hst : s.procState = .error
  · rw [exec_eq_runCommand, runCommand_discarded _ hst rfl]
    rfl
  · have hrule : rule .nop (beginCycle s) = .done (beginCycle s) := rfl
    rw [exec_of_done hst (control_allowed (by simp [Instr.opcode]) hst) hrule]
    rfl

/-- Settles O18: `exec_clear` in every state, with the values of `clear_eq`. -/
theorem clearDiscardsConfigurationAndStream : Obligations.ClearDiscardsConfigurationAndStream := by
  unfold Obligations.ClearDiscardsConfigurationAndStream
  intro s
  rw [exec_clear, clear_eq]
  rfl

/-- Settles O19: ERROR state runs ERRACK, and elsewhere its rule keeps the state. -/
theorem errackLeavesErrorState : Obligations.ErrackLeavesErrorState := by
  unfold Obligations.ErrackLeavesErrorState
  intro s
  by_cases hst : s.procState = .error
  · have hrule : rule .errack (beginCycle s) = .done (leaveError (beginCycle s)) := by simp [rule, hst]
    rw [exec_eq_runCommand, runCommand_in_error _ hst rfl, hrule, if_pos hst]
    rfl
  · have hrule : rule .errack (beginCycle s) = .done (beginCycle s) := by simp [rule, hst]
    rw [exec_of_done hst (control_allowed (by simp [Instr.opcode]) hst) hrule, if_neg hst]
    rfl

end Sys2Proof.Machine
end

section
/-! Proofs: error entry: which raise is BAD_STATE, what a command that raises leaves, and the words that never reach a
rule (44_control R104, R105; 60_exceptions R110, R111, R121, R123). -/

namespace Sys2Proof.Machine

variable {s t : State} {i : Instr}

/-! ### BAD_STATE is raised by no rule (R111) -/

section Computations

variable {α β : Type}

/-- The computation does not stop with BAD_STATE. -/
inductive NeverBadState : Except Stop α → Prop
  | ok (a : α) : NeverBadState (.ok a)
  | fault (f : Fault) : NeverBadState (.error (.fault f))
  | raised {e : ErrorReport} (h : e.code ≠ .badState) : NeverBadState (.error (.raised e))

theorem NeverBadState.code_ne {e : ErrorReport} (h : NeverBadState (.error (.raised e) : Except Stop α)) :
    e.code ≠ .badState := by
  cases h with
  | raised hcode => exact hcode

theorem NeverBadState.raise {code : ErrCode} (h : code ≠ .badState) (sub arg : Nat) :
    NeverBadState (raise code sub arg : Except Stop α) := .raised h

theorem NeverBadState.bind {r : Except Stop α} {f : α → Except Stop β} (hr : NeverBadState r)
    (hf : ∀ a, NeverBadState (f a)) : NeverBadState (r >>= f) := by
  cases hr with
  | ok a => exact hf a
  | fault f => exact .fault f
  | raised h => exact .raised h

theorem NeverBadState.ite {p : Prop} [Decidable p] {r r' : Except Stop α} (hr : NeverBadState r)
    (hr' : NeverBadState r') : NeverBadState (if p then r else r') := by
  split
  · exact hr
  · exact hr'

theorem memRead_neverBadState (name : MemoryName) (size : Nat) (unlisted : α) (m : Memory α) (j : Nat) :
    NeverBadState (memRead name size unlisted m j) := .ite (.ok _) (.fault _)

theorem memWrite_neverBadState [DecidableEq α] (name : MemoryName) (size : Nat) (unlisted : α) (m : Memory α)
    (j : Nat) (v : α) : NeverBadState (memWrite name size unlisted m j v) := .ite (.ok _) (.fault _)

end Computations

/-! The parts of the rules, callees first; the codes each raises are those that R109 lists for it. -/

theorem apush_neverBadState (byte : Byte) (s : State) : NeverBadState (apush byte s) :=
  .ite (.raise (by decide) _ _) (.bind (memWrite_neverBadState ..) fun _ => .ok _)

theorem kpush_neverBadState (byte : Byte) (s : State) : NeverBadState (kpush byte s) :=
  .ite (.raise (by decide) _ _) (.bind (memWrite_neverBadState ..) fun _ => .ok _)

theorem checkCode_neverBadState (sub c : Nat) (s : State) : NeverBadState (checkCode sub c s) :=
  .ite (.raise (by decide) _ _) (.ok _)

theorem unpackQuery_neverBadState (c : Nat) (s : State) : NeverBadState (unpackQuery c s) :=
  .bind (checkCode_neverBadState ..) fun _ => .bind (memRead_neverBadState ..) fun _ => .ok _

theorem lookup_neverBadState (m : Mode) (c1 c2 : Nat) (s : State) : NeverBadState (lookup m c1 c2 s) :=
  .bind (memRead_neverBadState ..) fun _ => .ite (.ok _) (.raise (by decide) _ _)

theorem bigramQuery_neverBadState (m : Mode) (c1 c2 : Nat) (s : State) : NeverBadState (bigramQuery m c1 c2 s) :=
  .bind (checkCode_neverBadState ..) fun _ => .bind (checkCode_neverBadState ..) fun _ =>
    .bind (lookup_neverBadState ..) fun _ => .ok _

theorem resolve_neverBadState (c1 c2 : Nat) (s : State) : NeverBadState (resolve c1 c2 s) :=
  .bind (lookup_neverBadState ..) fun _ => .bind (memRead_neverBadState ..) fun _ =>
    .bind (memRead_neverBadState ..) fun _ => .ok _

theorem alphabetByte_neverBadState (c : Nat) (s : State) : NeverBadState (alphabetByte c s) := by
  unfold alphabetByte
  split
  · exact .ok _
  · exact resolve_neverBadState ..

theorem excludedByte_neverBadState (byte : Byte) (s : State) : NeverBadState (excludedByte byte s) := by
  unfold excludedByte
  split
  · exact .ok _
  · exact .ite (.raise (by decide) _ _) (.ok _)

theorem dataByte_neverBadState (byte : Byte) (s : State) : NeverBadState (dataByte byte s) := by
  rw [dataByte_eq]
  exact .bind (.ite (alphabetByte_neverBadState ..) (excludedByte_neverBadState ..)) fun _ => .ok _

theorem padPending_neverBadState (s : State) : NeverBadState (padPending s) := by
  unfold padPending
  split
  · exact resolve_neverBadState ..
  · exact .ite (.raise (by decide) _ _) (.ok _)

theorem endOfStream_neverBadState (s : State) : NeverBadState (endOfStream s) :=
  .bind (padPending_neverBadState s) fun _ => .ok _

theorem alphaCheck_neverBadState (s : State) : NeverBadState (alphaCheck s) := by
  refine .ite (.raise (by decide) _ _) (.ite (.raise (by decide) _ _) (.ite (.fault _) ?_))
  split
  · exact .raise (by decide) _ _
  · split
    · exact .raise (by decide) _ _
    · exact .ok _

theorem padCheck_neverBadState (s : State) : NeverBadState (padCheck s) :=
  .ite (.ok _) (.raise (by decide) _ _)

theorem keyCheck_neverBadState (s : State) : NeverBadState (keyCheck s) := by
  refine .ite (.raise (by decide) _ _) ?_
  split
  · exact .raise (by decide) _ _
  · exact .ok _

theorem stopAt_raised_code {stop : Stop} (hstop : NeverBadState (.error stop : Except Stop Unit)) {e : ErrorReport}
    (h : stopAt s stop = .raised e t) : e.code ≠ .badState := by
  cases hstop with
  | fault f => cases h
  | raised hcode =>
    cases h
    exact hcode

theorem precise_raised_code {r : Except Stop State} (hr : NeverBadState r) {e : ErrorReport}
    (h : precise s r = .raised e t) : e.code ≠ .badState := by
  obtain ⟨rfl, -⟩ := (precise_raised_iff _ _ _ _).1 h
  exact hr.code_ne

theorem build_raised_code {e : ErrorReport} (h : build s = .raised e t) : e.code ≠ .badState := by
  rw [build_eq] at h
  split at h
  next stop hcheck => exact stopAt_raised_code (hcheck ▸ alphaCheck_neverBadState _) h
  split at h
  next stop hcheck => exact stopAt_raised_code (hcheck ▸ padCheck_neverBadState _) h
  split at h
  next stop hcheck => exact stopAt_raised_code (hcheck ▸ keyCheck_neverBadState _) h
  rw [buildTables_eq] at h
  split at h
  · cases h
    nofun
  · cases h

/-- The state check alone raises BAD_STATE: no command's own rule does (R104, R111). -/
theorem rule_raised_code {e : ErrorReport} (h : rule i s = .raised e t) : e.code ≠ .badState := by
  cases i with
  | apush byte => exact precise_raised_code (apush_neverBadState ..) h
  | kpush byte => exact precise_raised_code (kpush_neverBadState ..) h
  | build => exact build_raised_code h
  | data byte => exact precise_raised_code (dataByte_neverBadState ..) h
  | endStream => exact precise_raised_code (endOfStream_neverBadState ..) h
  | encb c1 c2 => exact precise_raised_code (bigramQuery_neverBadState ..) h
  | decb c1 c2 => exact precise_raised_code (bigramQuery_neverBadState ..) h
  | unpack c => exact precise_raised_code (unpackQuery_neverBadState ..) h
  | nop | clear | setpad | start | abort | pack | errack => cases h

/-! ### The commands that answer an error -/

/-- A rule that ends at its last line does not enter ERROR state. -/
theorem Effect.procState_ne_error (h : Effect s i t) (hst : s.procState ≠ .error) : t.procState ≠ .error := by
  cases h with
  | clear | start | endStream => nofun
  | abort =>
    rw [abortStream_eq]
    dsimp only
    split
    · nofun
    · exact hst
  | errack => rwa [if_neg hst]
  | nop | apush | kpush | setpad | build | data | query => exact hst

/-- Nor does it record an error. -/
theorem Effect.errCode (h : Effect s i t) : t.errCode = s.errCode ∨ t.errCode = 0 := by
  cases h with
  | clear => exact .inr rfl
  | abort => rw [abortStream_eq]; exact .inl rfl
  | errack =>
    split
    · exact .inr rfl
    · exact .inl rfl
  | nop | apush | kpush | setpad | build | start | data | endStream | query => exact .inl rfl

/-- How a command's cycle outside ERROR state can answer: it is refused, or its rule runs to its last line or raises
(R104). -/
theorem exec_cases (hst : s.procState ≠ .error) (h : exec i s = .next t) :
    (allowed i.opcode s.procState s.tv = false ∧
      t = erred s 2 (badState s.procState s.tv).sub 0 (encode i)) ∨
    (allowed i.opcode s.procState s.tv = true ∧
      ((∃ u, Effect (beginCycle s) i u ∧ t = retire u) ∨
        ∃ e u, rule i (beginCycle s) = .raised e u ∧ t = retire (errorEntry e (encode i) u))) := by
  cases ha : allowed i.opcode s.procState s.tv with
  | false =>
    rw [exec_of_refused hst ha] at h
    cases h
    exact .inl ⟨rfl, rfl⟩
  | true =>
    rw [exec_eq_runCommand, runCommand_of_allowed _ hst ha, endCycle_next_iff] at h
    rcases h with ⟨u, hu, rfl⟩ | hraised
    · exact .inr ⟨rfl, .inl ⟨u, rule_done hu, rfl⟩⟩
    · exact .inr ⟨rfl, .inr hraised⟩

/-- The BAD_STATE cells of R105's table, outside the ERROR column. -/
theorem allowed_eq_false_iff {o : Opcode} {st : ProcState} (hst : st ≠ .error) (tv : Bool) :
    allowed o st tv = false ↔
      (st = .idle ∧ tv = false ∧ o ∈ [.start, .data, .endStream, .pack, .unpack, .encb, .decb]) ∨
      (st = .idle ∧ tv = true ∧ o ∈ [.data, .endStream]) ∨
      (st = .stream ∧ o ∈ [.apush, .kpush, .setpad, .build, .start]) := by
  cases st with
  | idle => cases tv <;> cases o <;> decide
  | stream => cases o <;> simp [allowed]
  | error => exact absurd rfl hst

theorem ErrCode.bits_eq_two_iff {c : ErrCode} : c.bits = 2 ↔ c = .badState := by cases c <;> decide

/-- A command whose answer newly records BAD_STATE was refused by the state check (R111). -/
theorem refused_of_errCode (hst : s.procState ≠ .error) (h : exec i s = .next t) (hs : s.errCode ≠ 2)
    (ht : t.errCode = 2) : allowed i.opcode s.procState s.tv = false := by
  rcases exec_cases hst h with ⟨ha, -⟩ | ⟨-, ⟨u, heffect, rfl⟩ | ⟨e, u, hraised, rfl⟩⟩
  · exact ha
  · rcases heffect.errCode with hkept | hcleared
    · exact absurd (hkept.symm.trans ht) hs
    · exact absurd (hcleared.symm.trans ht) (by decide)
  · exact absurd (ErrCode.bits_eq_two_iff.1 ht) (rule_raised_code hraised)

/-- Settles O15: the state check refuses exactly in the cells of `allowed_eq_false_iff`, and nothing else raises
BAD_STATE. -/
theorem badStateExactlyInItsCells : Obligations.BadStateExactlyInItsCells := by
  unfold Obligations.BadStateExactlyInItsCells
  intro i s hst
  have hcells := allowed_eq_false_iff (o := i.opcode) hst s.tv
  refine ⟨fun hidle htv hi => ?_, fun hidle htv hi => ?_, fun hstream htv hi => exec_loading_in_stream hi hstream htv,
    fun t h hs ht => hcells.1 (refused_of_errCode hst h hs ht)⟩
  · rw [exec_of_refused hst (hcells.2 (.inl ⟨hidle, htv, hi⟩)), hidle, htv]
    rfl
  · rw [exec_of_refused hst (hcells.2 (.inr (.inl ⟨hidle, htv, hi⟩))), hidle, htv]
    rfl

/-! ### Errors are precise (R121) -/

/-- A command other than BUILD in IDLE that enters ERROR state has no other effect. -/
theorem exec_raises_precisely (hst : s.procState ≠ .error) (h : exec i s = .next t) (ht : t.procState = .error)
    (hi : ¬(i = .build ∧ s.procState = .idle)) : ∃ code sub arg, t = erred s code sub arg (encode i) := by
  rcases exec_cases hst h with ⟨-, rfl⟩ | ⟨ha, ⟨u, heffect, rfl⟩ | ⟨e, u, hraised, rfl⟩⟩
  · exact ⟨_, _, _, rfl⟩
  · exact absurd ht (heffect.procState_ne_error hst)
  · rcases rule_raised hraised with rfl | rfl
    · exact ⟨_, _, _, retire_errorEntry_beginCycle ..⟩
    · cases hp : s.procState with
      | idle => exact absurd ⟨rfl, hp⟩ hi
      | stream => rw [hp] at ha; cases ha
      | error => exact absurd hp hst

/-- BUILD in IDLE that enters ERROR state leaves no tables, and CODEC, ENC and DEC as far as it wrote them. -/
theorem exec_build_raises (hst : s.procState = .idle) (h : exec .build s = .next t) (ht : t.procState = .error) :
    ∃ code sub arg, t = { erred s code sub arg (encode .build) with
      tv := false, k := 0, b := 0, codec := t.codec, enc := t.enc, dec := t.dec } := by
  have hne : s.procState ≠ .error := by simp [hst]
  rcases exec_cases hne h with ⟨ha, -⟩ | ⟨-, ⟨u, heffect, rfl⟩ | ⟨e, u, hraised, -⟩⟩
  · rw [loading_allowed (by simp [Instr.opcode]) hst] at ha
    cases ha
  · exact absurd ht (heffect.procState_ne_error hne)
  · obtain ⟨codec, enc, dec, rfl⟩ := build_raised hraised
    rw [exec_build_of_raised hst hraised] at h
    cases h
    exact ⟨_, _, _, rfl⟩

/-- Settles O16: only BUILD writes before it raises, and only in IDLE may it run. -/
theorem errorsArePrecise : Obligations.ErrorsArePrecise := by
  unfold Obligations.ErrorsArePrecise
  intro i s t hst h ht
  refine ⟨exec_raises_precisely hst h ht, fun hi hidle => ?_⟩
  subst hi
  exact exec_build_raises hidle h ht

/-! ### The words that reach no rule -/

/-- Settles O9: with an empty channel `takeWord` answers none. -/
theorem idleBlockHoldsItsState : Obligations.IdleBlockHoldsItsState := by
  unfold Obligations.IdleBlockHoldsItsState
  exact fun _ => step_of_nil

/-- Outside ERROR state the cycle of an illegal word does nothing but enter it (R110, R121). -/
theorem step_of_illegal {w : Word} {ws : List Word} {d : DecodeError} (hst : s.procState ≠ .error)
    (hcmds : s.cmds = w :: ws) (hdecode : decode w = .error d) :
    step s = .next { erred s 1 (illegalSub d) 0 w with cmds := ws } := by
  rw [step_of_cons hcmds, runWord, hdecode]
  dsimp only
  rw [runIllegal_eq, if_neg hst, retire_errorEntry_beginCycle]
  rfl

/-- Settles O13: the reserved opcode is one of the two decode errors, so the other words that do not decode are the
other. -/
theorem illegalWordRaisesIllegalCmd : Obligations.IllegalWordRaisesIllegalCmd := by
  unfold Obligations.IllegalWordRaisesIllegalCmd
  intro s w ws hst hcmds
  have hreserved : decode w = .error .reservedOpcode ↔ w.extractLsb' 28 4 = 0xF#4 :=
    decode_reservedOpcode_iff.trans (opcodeOf_eq_none_iff _)
  refine ⟨fun hopc => step_of_illegal hst hcmds (hreserved.2 hopc), fun hopc hillegal => ?_⟩
  cases hdecode : decode w with
  | ok i => exact absurd hdecode (hillegal i)
  | error d =>
    cases d with
    | reservedOpcode => exact absurd (hreserved.1 hdecode) hopc
    | reservedBits => exact step_of_illegal hst hcmds hdecode

/-- No command but CLEAR and ERRACK runs in ERROR state (R104). -/
theorem runsInError_eq_false (hclear : i ≠ .clear) (herrack : i ≠ .errack) : runsInError i.opcode = false := by
  cases i with
  | clear => exact absurd rfl hclear
  | errack => exact absurd rfl herrack
  | nop | apush | kpush | setpad | build | start | data | endStream | abort | encb | decb | pack | unpack => rfl

/-- Settles O14: the ERROR gate of the cycle discards a legal word before its rule, and an illegal one before its
raise. -/
theorem errorStateDiscardsWords : Obligations.ErrorStateDiscardsWords := by
  unfold Obligations.ErrorStateDiscardsWords
  intro s w ws hst hcmds hclear herrack
  rw [step_of_cons hcmds, runWord]
  cases hdecode : decode w with
  | ok i =>
    rw [hdecode] at hclear herrack
    have hgate := runsInError_eq_false (i := i) (fun h => hclear (congrArg _ h)) (fun h => herrack (congrArg _ h))
    dsimp only
    rw [exec_eq_runCommand, runCommand_discarded (s := { s with cmds := ws }) _ hst hgate]
    rfl
  | error d =>
    dsimp only
    rw [runIllegal_eq, if_pos hst]
    rfl

end Sys2Proof.Machine
end

section
/-! Proofs: what hardware reset leaves, in the state and in the registers (70_reset_and_hazards R131). -/

namespace Sys2Proof.Machine

/-- Settles O55: the state after reset depends on the build-time parameters only, and it lists nothing in the
memories. -/
theorem hardwareResetGivesResetValues : Obligations.HardwareResetGivesResetValues := by
  unfold Obligations.HardwareResetGivesResetValues
  intro s
  rw [hardwareReset_eq]
  exact ⟨[], [], [], [], [], rfl⟩

/-! ### The registers that are put together from elements -/

theorem regStatus_resetWith (p : Params) : regStatus (State.resetWith p) = 0 := by
  rw [regStatus_eq]
  rfl

theorem regError_resetWith (p : Params) : regError (State.resetWith p) = 0 := by
  rw [regError, resetWith_errArg, resetWith_errSub, resetWith_errCode]
  decide

theorem regConfig_resetWith (p : Params) : regConfig (State.resetWith p) = 0x00200000 := by
  rw [regConfig, resetWith_tv, resetWith_b, resetWith_k, resetWith_pad, resetWith_klen, resetWith_alen]
  decide

theorem regPending_resetWith (p : Params) : regPending (State.resetWith p) = 0 := by
  rw [regPending, resetWith_pend]
  decide

theorem regCarryLen_resetWith (p : Params) : regCarryLen (State.resetWith p) = 0 := by
  rw [regCarryLen, resetWith_carry]
  decide

/-! ### The register port -/

/-- Every register but ID, PARAMS and CONFIG shows only elements that reset makes 0, whatever the parameters (R131). -/
theorem readRegister_resetWith (p : Params) {a : BitVec 8} (hid : a ≠ 0x00) (hparams : a ≠ 0x01)
    (hconfig : a ≠ 0x05) : readRegister (State.resetWith p) a = 0 := by
  unfold readRegister
  split
  case h_1 haddr => exact absurd (BitVec.eq_of_toNat_eq haddr) hid
  case h_2 haddr => exact absurd (BitVec.eq_of_toNat_eq haddr) hparams
  case h_3 => exact regStatus_resetWith p
  case h_4 => exact regError_resetWith p
  case h_6 haddr => exact absurd (BitVec.eq_of_toNat_eq haddr) hconfig
  case h_8 => exact regPending_resetWith p
  case h_9 => exact regCarryLen_resetWith p
  all_goals rfl

/-- Settles O50: only PARAMS needs the default parameters. -/
theorem resetRegisterWords : Obligations.ResetRegisterWords := by
  unfold Obligations.ResetRegisterWords
  have hparams : regParams (State.resetWith Params.default) = 0x04004008 := by decide
  exact ⟨rfl, hparams, regConfig_resetWith _, fun _ => readRegister_resetWith _⟩

end Sys2Proof.Machine
end
